-- ==== Sys2Proof/Word.lean ====
section
/-! DEFINITION. The widths of the block's data (00_scope.md rule R8) and the two record types of its memories
(10_state.md rules R46 and R47). Plain types only; every operation on them stands under Machine/. -/

namespace Sys2Proof

/-- One host bus word, DATA_W = 32 (00_scope.md rule R8). -/
abbrev Word := BitVec 32

/-- A host bus byte offset, ADDR_W = 16 (00_scope.md rule R8). -/
abbrev Offset := BitVec 16

/-- A symbol, SYMBOL_W = 8 (00_scope.md rule R8). -/
abbrev Symbol := BitVec 8

/-- One entry of the node arena NODE (10_state.md rule R46). -/
structure Node where
  /-- 1 for a Leaf, 0 for an Internal node. -/
  leaf : Bool
  /-- The aggregate frequency, NFREQ_W = 40. -/
  freq : BitVec 40
  /-- The symbol of a Leaf, 0 in an Internal node. -/
  sym : Symbol
  /-- The bit-0 child of an Internal node, 0 in a Leaf. -/
  child0 : BitVec 9
  /-- The bit-1 child of an Internal node, 0 in a Leaf. -/
  child1 : BitVec 9
  deriving DecidableEq, Repr, Inhabited

/-- One entry of the code table CODE: CODE_LEN[s] and CODE_BITS[s] (10_state.md rule R47). Bit `j` of `bits` is
CODE_BITS[s][j]; bit 0 is emitted first. -/
structure CodeEntry where
  len : BitVec 8
  bits : BitVec 255
  deriving DecidableEq, Repr, Inhabited

end Sys2Proof
end

