-- ==== Sys2Proof/Syntax.lean ====
section
/-! DEFINITION. The six commands of spec/opcode_table.json (30_encoding.md rule R92). No command has an operand
field (30_encoding.md rules R90 and R91): operands are fixed registers and memories. -/

namespace Sys2Proof

/-- The block's commands, one constructor per row of spec/opcode_table.json. -/
inductive Instr where
  /-- NOP, 41_command_control.md rule R140. -/
  | nop
  /-- CLEAR_FREQ, 41_command_control.md rule R141. -/
  | clearFreq
  /-- BUILD_TREE, 42_tree_builder.md rule R150. -/
  | buildTree
  /-- GEN_CODES, 43_code_table_generator.md rule R170. -/
  | genCodes
  /-- ENCODE, 44_encoder.md rule R190. -/
  | encode
  /-- DECODE, 45_decoder.md rule R210. -/
  | decode
  deriving DecidableEq, Repr

end Sys2Proof
end

