-- ==== Sys2Proof/WellFormed.lean ====
section
/-! DEFINITION. Well-formedness. A command carries no operand, so every term of `Instr` is well formed; the checks
are on the command WORD: a word selects a command only if both hold (30_encoding.md rules R92 and R93). -/

namespace Sys2Proof

/-- RSVD, bits [31:8], must be 0 (30_encoding.md rule R90). -/
def wordRsvdZero (w : Word) : Bool := w.extractLsb' 8 24 == 0#24

/-- OPCODE, bits [7:0], is one of the values 0x00 to 0x05 (30_encoding.md rule R92). -/
def wordOpcodeAssigned (w : Word) : Bool := decide ((w.extractLsb' 0 8).toNat ≤ 5)

/-- The words outside the illegal space of 30_encoding.md rule R93. -/
def wordWellFormed (w : Word) : Bool := wordRsvdZero w && wordOpcodeAssigned w

/-- Well-formedness of a command: there is no field to check (30_encoding.md rules R90 and R91). -/
def Instr.wellFormed : Instr → Bool
  | .nop => true
  | .clearFreq => true
  | .buildTree => true
  | .genCodes => true
  | .encode => true
  | .decode => true

end Sys2Proof
end

