-- ==== Sys2Proof/Decode.lean ====
section
/-! DEFINITION. The decoder of command words, total on all 2^32 words (30_encoding.md rule R94), and the encoder. -/

namespace Sys2Proof

/-- Why a word is illegal (30_encoding.md rule R93). Both reasons have the same effect (41_command_control.md rule
R142). -/
inductive IllegalWord where
  /-- RSVD ≠ 0. -/
  | rsvdNonzero (rsvd : BitVec 24)
  /-- RSVD = 0 and OPCODE in 0x06 to 0xFF. -/
  | opcodeUnassigned (opcode : BitVec 8)
  deriving DecidableEq, Repr

/-- The decoder's answer: `Command | Illegal` of 30_encoding.md rule R94. -/
inductive Decoded where
  | command (i : Instr)
  | illegal (why : IllegalWord)
  deriving DecidableEq, Repr

/-- OPCODE, bits [7:0] (30_encoding.md rule R90). -/
def opcodeField (w : Word) : BitVec 8 := w.extractLsb' 0 8

/-- RSVD, bits [31:8] (30_encoding.md rule R90). -/
def rsvdField (w : Word) : BitVec 24 := w.extractLsb' 8 24

/-- decode(w) of 30_encoding.md rule R94. -/
def decode (w : Word) : Decoded :=
  if rsvdField w ≠ 0#24 then .illegal (.rsvdNonzero (rsvdField w))
  else
    match (opcodeField w).toNat with
    | 0x00 => .command .nop
    | 0x01 => .command .clearFreq
    | 0x02 => .command .buildTree
    | 0x03 => .command .genCodes
    | 0x04 => .command .encode
    | 0x05 => .command .decode
    | _ => .illegal (.opcodeUnassigned (opcodeField w))

/-- The opcode map (30_encoding.md rule R92). -/
def opcodeOf : Instr → BitVec 8
  | .nop => 0x00#8
  | .clearFreq => 0x01#8
  | .buildTree => 0x02#8
  | .genCodes => 0x03#8
  | .encode => 0x04#8
  | .decode => 0x05#8

/-- The command word of a command: RSVD = 0 above OPCODE (30_encoding.md rules R90 and R92). -/
def encode (i : Instr) : Word := (0#24 : BitVec 24) ++ opcodeOf i

/-- The host's question: what the decoder reads from an instruction whose bits are `w`, of which the table gives
`nbits`; the bits above them are 0. A command is one 32-bit word (30_encoding.md rule R95). -/
def decodeTableWord (nbits w : Nat) : Option Instr :=
  match decode (BitVec.ofNat 32 (w % 2 ^ nbits)) with
  | .command i => some i
  | .illegal _ => none

end Sys2Proof
end

