-- ==== Sys2Proof/Config.lean ====
section
/-! DEFINITION. What an implementation fixes (identification values, the two build-time parameters) and the values
the spec leaves UNSPECIFIED. A constant without a body is a free value: no proof can see what it is. -/

namespace Sys2Proof

/-- ID (10_state.md rule R21). -/
def Config.idValue : Word := 0x48554646#32

/-- VERSION (10_state.md rule R22). -/
def Config.versionValue : Word := 0x00010000#32

/-- The build-time parameters (00_scope.md rule R9), in a type that holds exactly their legal values:
P_SYM_DEPTH is 4 times, and P_BIT_DEPTH 32 times, a number from 1 to 4096. -/
structure Params where
  /-- P_SYM_DEPTH / 4 - 1. -/
  symWords : Fin 4096
  /-- P_BIT_DEPTH / 32 - 1. -/
  bitWords : Fin 4096
  deriving DecidableEq, Repr

/-- P_SYM_DEPTH (00_scope.md rule R9, 93_implementation_defined.md P1). -/
def Params.symDepth (p : Params) : Nat := 4 * (p.symWords.val + 1)

/-- P_BIT_DEPTH (00_scope.md rule R9, 93_implementation_defined.md P2). -/
def Params.bitDepth (p : Params) : Nat := 32 * (p.bitWords.val + 1)

/-- The reference parameters of 00_scope.md rule R9: P_SYM_DEPTH = 4096, P_BIT_DEPTH = 32768. Used by tests only. -/
def Config.referenceParams : Params := ⟨1023, 1023⟩

/-- FREE VALUE (log entry 6): P_SYM_DEPTH / 4 - 1 of the block at hand. -/
opaque Config.symWords : Fin 4096

/-- FREE VALUE (log entry 6): P_BIT_DEPTH / 32 - 1 of the block at hand. -/
opaque Config.bitWords : Fin 4096

/-- The parameters of the block at hand, any legal values (00_scope.md rule R9). -/
def Config.params : Params := ⟨Config.symWords, Config.bitWords⟩

/-- FREE VALUE (log entry 1): FREQ[s] after the reset numbered `resets` (70_reset_and_hazards.md rule R260,
93_implementation_defined.md U4). -/
opaque Config.freqAtReset (resets s : Nat) : Word

/-- FREE VALUE (log entry 1): NODE[i] after a reset (93_implementation_defined.md U4). -/
opaque Config.nodeAtReset (resets i : Nat) : Node

/-- FREE VALUE (log entry 1): CODE_LEN[s] and CODE_BITS[s] after a reset (93_implementation_defined.md U4). -/
opaque Config.codeAtReset (resets s : Nat) : CodeEntry

/-- FREE VALUE (log entry 1): SYM[i] after a reset (93_implementation_defined.md U4). -/
opaque Config.symAtReset (resets i : Nat) : Symbol

/-- FREE VALUE (log entry 1): BIT[i] after a reset (93_implementation_defined.md U4). -/
opaque Config.bitAtReset (resets i : Nat) : Bool

/-- FREE VALUE (log entry 3): what the UNSPECIFIED read numbered `draws` made while BUSY = 1 returns
(10_state.md rule R55, 93_implementation_defined.md U5). -/
opaque Config.busyRead (draws : Nat) : Word

end Sys2Proof
end

