-- ==== Sys2Proof/Machine/State.lean ====
section
/-! DEFINITION. The machine's state as plain data (10_state.md), the events of its environment, the reasons a step can
stop, and the state right after reset (70_reset_and_hazards.md rule R260). -/

namespace Sys2Proof.Machine

/-- One of the block's memories: the entries written since reset, as (index, value) pairs with the indices strictly
rising. An index that is not listed holds no value of its own; reading it gives a free value of Config (log entries 1
and 2). The canonical form is `Memory.wf`. -/
abbrev Memory (α : Type) := List (Nat × α)

/-- What the environment does next. 20_memory.md rule R72 performs host accesses one at a time in the host's order,
and 60_exceptions.md rule R239 interleaves them with the engine's step in any order: a list of these is one order. -/
inductive Input where
  /-- A bus read transaction (40_host_access.md rule R110). -/
  | read (addr : Offset)
  /-- A bus write transaction (40_host_access.md rule R111). -/
  | write (addr : Offset) (v : Word)
  /-- The engine takes its step if it is enabled (41_command_control.md rule R133). -/
  | engine
  /-- rst_n falls and rises again (70_reset_and_hazards.md rules R260 and R261). -/
  | reset
  deriving DecidableEq, Repr

/-- The results of a command, ERR_CODE by name (60_exceptions.md rule R230). -/
inductive ErrCode where
  | none
  | emptyAlphabet
  | symbolNotInAlphabet
  | truncatedStream
  | noTree
  | noCodes
  | outputOverflow
  | illegalCommand
  | badLength
  deriving DecidableEq, Repr

/-- Everything the spec gives the block. Registers: 10_state.md rule R43. Memories: rules R45 to R49. -/
structure State where
  /-- PENDING: the accepted command's word while BUSY = 1, or no command (10_state.md rule R50). STATUS.BUSY is "some
  command is pending" (rule R29; log entry 7). -/
  pending : Option Word
  /-- STATUS.DONE (10_state.md rule R30). -/
  done : Bool
  /-- STATUS.ERROR (10_state.md rule R31). -/
  error : Bool
  /-- STATUS.REJECT (10_state.md rule R32). -/
  reject : Bool
  /-- STATUS.TREE_VALID (10_state.md rule R33). -/
  treeValid : Bool
  /-- STATUS.CODES_VALID (10_state.md rule R34). -/
  codesValid : Bool
  /-- ERR_CODE (10_state.md rule R35). -/
  errCode : BitVec 8
  /-- ERR_INDEX (10_state.md rule R36). -/
  errIndex : Word
  /-- IRQ_EN: DONE_IE [0], ERROR_IE [1], REJECT_IE [2] (10_state.md rule R37). -/
  irqEn : BitVec 3
  /-- NSYM (10_state.md rule R38). -/
  nsym : BitVec 9
  /-- ROOT (10_state.md rule R39). -/
  root : BitVec 9
  /-- NNODES (10_state.md rule R40). -/
  nnodes : BitVec 10
  /-- SYM_LEN (10_state.md rule R41). -/
  symLen : Word
  /-- BIT_LEN (10_state.md rule R42). -/
  bitLen : Word
  /-- FREQ, indices 0..255 (10_state.md rule R45). -/
  freq : Memory Word
  /-- NODE, indices 0..510 (10_state.md rule R46). -/
  node : Memory Node
  /-- CODE, indices 0..255 (10_state.md rule R47). -/
  code : Memory CodeEntry
  /-- SYM, indices 0..P_SYM_DEPTH - 1 (10_state.md rule R48). -/
  sym : Memory Symbol
  /-- BIT, indices 0..P_BIT_DEPTH - 1 (10_state.md rule R49). -/
  bit : Memory Bool
  /-- P_SYM_DEPTH and P_BIT_DEPTH, which PARAM_SYM and PARAM_BIT report (10_state.md rules R23 and R24). No step
  changes them (log entry 6). -/
  params : Params
  /-- The bus_rdata port: the data of the last completed read (20_memory.md rule R80; log entry 9). -/
  rdata : Word
  /-- The MODEL's own: how many resets came before, which selects the reset contents of the memories (log entry 1). -/
  resets : Nat
  /-- The MODEL's own: how many UNSPECIFIED reads were drawn, which selects the next one (log entry 3). -/
  draws : Nat
  /-- The MODEL's own: the environment's coming events, in order (log entry 4). -/
  inputs : List Input
  deriving DecidableEq, Repr

/-- The reasons a step can stop. The spec gives the block none: errors are completions (60_exceptions.md rule R232)
and the bus has no error response (20_memory.md rule R67). Both reasons here need TREE_VALID = 1 over an arena that no
BUILD_TREE wrote, which 10_state.md rule R53 excludes from every run (log entry 8). -/
inductive Fault where
  /-- Raised by GEN_CODES when its walk would need a path longer than 255 bits, which 43_code_table_generator.md rule
  R174 excludes for a tree. SAFE: the model stops where the spec's recursion has no result. -/
  | walkTooDeep
  /-- Raised by GEN_CODES and DECODE when they read NODE at an index outside the arena 0..510 (10_state.md rule R46);
  45_decoder.md rule R220 excludes it for a tree. SAFE: the model stops at an entry that does not exist. -/
  | nodeIndexOutOfArena
  deriving DecidableEq, Repr

/-- The reasons the model gives no meaning. -/
inductive Refusal where
  /-- Raised by an arm of exec whose instruction has no meaning yet. SAFE: nothing is claimed of it. No arm raises it
  in this model: every command has its meaning. -/
  | notModelled (mnemonic : String)
  deriving DecidableEq, Repr

/-- The state after a reset (70_reset_and_hazards.md rule R260), for a block with parameters `p`: every register 0, no
command pending, nothing written in any memory. The last three arguments are the model's own fields. -/
def State.resetWith (p : Params) (resets draws : Nat) (inputs : List Input) : State where
  pending := none
  done := false
  error := false
  reject := false
  treeValid := false
  codesValid := false
  errCode := 0#8
  errIndex := 0#32
  irqEn := 0#3
  nsym := 0#9
  root := 0#9
  nnodes := 0#10
  symLen := 0#32
  bitLen := 0#32
  freq := []
  node := []
  code := []
  sym := []
  bit := []
  params := p
  rdata := 0#32
  resets := resets
  draws := draws
  inputs := inputs

/-- The machine right after its first reset (70_reset_and_hazards.md rule R260), with no event in view. -/
def State.reset : State := State.resetWith Config.params 0 0 []

end Sys2Proof.Machine
end

