-- ==== Sys2Proof/Machine/Ops.lean ====
section
/-! DEFINITION. The named operations over the memories and the registers: the one read and the one write of a memory,
the accessors of FREQ, NODE, CODE, SYM and BIT, the completion of a command (success or error), and reset. -/

namespace Sys2Proof.Machine

/-! ### Memories -/

/-- What is written at index `k`, or none if nothing was written there since reset. -/
def Memory.get? {α : Type} : Memory α → Nat → Option α
  | [], _ => none
  | (j, v) :: m, k => bif Nat.beq j k then some v else Memory.get? m k

/-- The values `vals` at the indices `start`, `start + 1`, and so on. -/
def Memory.block {α : Type} : Nat → List α → Memory α
  | _, [] => []
  | k, v :: vals => (k, v) :: Memory.block (k + 1) vals

/-- The one write: `vals` at the indices from `start`, every other entry kept. -/
def Memory.writeRange {α : Type} (m : Memory α) (start : Nat) (vals : List α) : Memory α :=
  m.filter (fun c => decide (c.1 < start)) ++ Memory.block start vals ++
    m.filter (fun c => decide (start + vals.length ≤ c.1))

/-- The canonical form of a memory of `bound` entries: indices strictly rising and below `bound`. -/
abbrev Memory.wf {α : Type} (bound : Nat) (m : Memory α) : Prop :=
  (m.map Prod.fst).Pairwise (· < ·) ∧ ∀ c ∈ m, c.1 < bound

/-- N_SYM = 256 (00_scope.md rule R8). -/
def nSym : Nat := 256

/-- MAX_NODES = 511 (00_scope.md rule R8). -/
def maxNodes : Nat := 511

/-- MAX_CODE_LEN = 255 (00_scope.md rule R8). -/
def maxCodeLen : Nat := 255

/-- FREQ[s] (10_state.md rule R45); a free value where nothing was written since reset (log entry 1). -/
def State.freqAt (s : State) (k : Nat) : Word :=
  (Memory.get? s.freq k).getD (Config.freqAtReset s.resets k)

/-- NODE[i] (10_state.md rule R46); a free value where nothing was written since reset (log entry 1). -/
def State.nodeAt (s : State) (k : Nat) : Node :=
  (Memory.get? s.node k).getD (Config.nodeAtReset s.resets k)

/-- CODE_LEN[s] and CODE_BITS[s] (10_state.md rule R47); a free value where nothing was written since reset (log entry
1). -/
def State.codeAt (s : State) (k : Nat) : CodeEntry :=
  (Memory.get? s.code k).getD (Config.codeAtReset s.resets k)

/-- SYM[i] (10_state.md rule R48); a free value where nothing was written since reset (log entry 1). -/
def State.symAt (s : State) (k : Nat) : Symbol :=
  (Memory.get? s.sym k).getD (Config.symAtReset s.resets k)

/-- BIT[i] (10_state.md rule R49); a free value where nothing was written since reset (log entry 1). -/
def State.bitAt (s : State) (k : Nat) : Bool :=
  (Memory.get? s.bit k).getD (Config.bitAtReset s.resets k)

/-- NODE[i] for the engine: none outside the arena 0..510 (10_state.md rule R46; log entry 8). -/
def State.arenaAt? (s : State) (i : Nat) : Option Node :=
  if i < maxNodes then some (s.nodeAt i) else none

/-! ### Bit strings as numbers, bit 0 first (20_memory.md rules R64 and R66) -/

/-- The number whose bit `j` is the `j`-th bit of the list. -/
def bitsToNat : List Bool → Nat
  | [] => 0
  | b :: p => b.toNat + 2 * bitsToNat p

/-! ### Completion (41_command_control.md rule R132, 00_scope.md rule R14) -/

/-- ERR_CODE's number of a result (60_exceptions.md rule R230). -/
def errCodeNumber : ErrCode → BitVec 8
  | .none => 0#8
  | .emptyAlphabet => 1#8
  | .symbolNotInAlphabet => 2#8
  | .truncatedStream => 3#8
  | .noTree => 4#8
  | .noCodes => 5#8
  | .outputOverflow => 6#8
  | .illegalCommand => 7#8
  | .badLength => 8#8

/-- complete_with(code, index) of 41_command_control.md rule R132. BUSY <- 0 is "no command pending". -/
def State.completeWith (s : State) (code : ErrCode) (index : Nat) : State :=
  { s with
    errCode := errCodeNumber code
    errIndex := BitVec.ofNat 32 index
    pending := none
    done := true
    error := decide (errCodeNumber code ≠ 0#8) }

/-- complete() of 00_scope.md rule R14: the success completion. -/
def State.complete (s : State) : State := s.completeWith .none 0

/-- `raise CommandError(code, index)` of 00_scope.md rule R14, after the command's own failure actions: the block's
one way of taking an error. It saves no other state and transfers control nowhere (60_exceptions.md rule R232), and
there is no return from it (rule R234). -/
def State.raiseError (s : State) (code : ErrCode) (index : Nat) : State := s.completeWith code index

/-- TREE_VALID and CODES_VALID <- 0 (10_state.md rules R33 and R34). -/
def State.invalidate (s : State) : State := { s with treeValid := false, codesValid := false }

/-! ### Reset -/

/-- The rst_n event (70_reset_and_hazards.md rules R260 and R261): every register to its reset value, a running command
abandoned, every memory UNSPECIFIED anew. The parameters are the block's; the environment's later events still come. -/
def State.afterReset (s : State) : State :=
  State.resetWith s.params (s.resets + 1) s.draws s.inputs

end Sys2Proof.Machine
end

