-- ==== Sys2Proof/Machine/Flags.lean ====
section
/-! DEFINITION. The block's flags, the six STATUS bits (10_state.md rules R28 and R56): BUSY, the STATUS word, the
write-1-to-clear write, the rejection flag, and the interrupt output that the flags drive. -/

namespace Sys2Proof.Machine

/-- STATUS.BUSY: 1 from a command's acceptance to its completion (10_state.md rule R29; log entry 7). -/
def State.busy (s : State) : Bool := s.pending.isSome

/-- The STATUS word: zext_32({CODES_VALID, TREE_VALID, REJECT, ERROR, DONE, BUSY}) (40_host_access.md rule R110). -/
def State.statusWord (s : State) : Word :=
  (0#26 : BitVec 26) ++ BitVec.ofBool s.codesValid ++ BitVec.ofBool s.treeValid ++ BitVec.ofBool s.reject ++
    BitVec.ofBool s.error ++ BitVec.ofBool s.done ++ BitVec.ofBool s.busy

/-- status_write(v) of 40_host_access.md rule R114: a 1 in bit 1, 2 or 3 clears DONE, ERROR or REJECT. -/
def State.statusWrite (s : State) (v : Word) : State :=
  { s with
    done := s.done && !v.getLsbD 1
    error := s.error && !v.getLsbD 2
    reject := s.reject && !v.getLsbD 3 }

/-- A rejected access: REJECT <- 1 and nothing else (40_host_access.md rule R113, 60_exceptions.md rule R237). -/
def State.rejectAccess (s : State) : State := { s with reject := true }

/-- Acceptance of a command word (41_command_control.md rule R131): PENDING <- v, BUSY <- 1, DONE and ERROR <- 0. -/
def State.accept (s : State) (v : Word) : State :=
  { s with pending := some v, done := false, error := false }

/-- The interrupt output, a level (60_exceptions.md rule R236). -/
def State.irq (s : State) : Bool :=
  (s.done && s.irqEn.getLsbD 0) || (s.error && s.irqEn.getLsbD 1) || (s.reject && s.irqEn.getLsbD 2)

end Sys2Proof.Machine
end

