-- ==== Sys2Proof/Machine/Operands.lean ====
section
/-! DEFINITION. The operand forms. A command's operands are implicit (30_encoding.md rule R91): its input sequence is
read here from the fixed registers and memories. A host access names a bus offset (20_memory.md rules R61 to R69): the
address map and the words of the windows stand here too. -/

namespace Sys2Proof.Machine

/-! ### The commands' implicit operands -/

/-- SYM[0..n-1] (44_encoder.md rule R190). -/
def State.symbolsIn (s : State) (n : Nat) : List Symbol := (List.range n).map s.symAt

/-- BIT[0..n-1] (45_decoder.md rule R210). -/
def State.bitsIn (s : State) (n : Nat) : List Bool := (List.range n).map s.bitAt

/-- CODE_BITS[s][0..CODE_LEN[s]-1], the code as a bit string, first emitted bit first (10_state.md rule R47). -/
def codeString (c : CodeEntry) : List Bool := (List.range c.len.toNat).map c.bits.getLsbD

/-- The entry that holds the bit string `p`: its length, and bit `j` of CODE_BITS is `p[j]`, every further bit 0
(43_code_table_generator.md rules R170 and R173). -/
def codeEntryOf (p : List Bool) : CodeEntry := ⟨BitVec.ofNat 8 p.length, BitVec.ofNat 255 (bitsToNat p)⟩

/-- The entry of a symbol with no code (43_code_table_generator.md rule R173). -/
def noCode : CodeEntry := ⟨0#8, 0#255⟩

/-! ### The address map -/

/-- What a bus offset reaches (10_state.md rule R43, 20_memory.md rule R61). -/
inductive Target where
  | id
  | version
  | paramSym
  | paramBit
  | cmd
  | status
  | errCode
  | errIndex
  | irqEn
  | nsym
  | root
  | nnodes
  | symLen
  | bitLen
  /-- FREQ[s] (20_memory.md rule R62). -/
  | freq (s : Nat)
  /-- Word `w` (0..3) of entry `i` of the NODE window (20_memory.md rule R63). -/
  | node (i w : Nat)
  /-- Word `w` (0..15) of entry `s` of the CODE window (20_memory.md rule R64). -/
  | code (s w : Nat)
  /-- Word `w` of the SYM window (20_memory.md rule R65). -/
  | sym (w : Nat)
  /-- Word `w` of the BIT window (20_memory.md rule R66). -/
  | bit (w : Nat)
  /-- A reserved offset (20_memory.md rule R67). -/
  | reserved
  deriving DecidableEq, Repr

/-- {addr[15:2], 0b00} (20_memory.md rule R69). -/
def alignOffset (addr : Offset) : Nat := 4 * (addr.extractLsb' 2 14).toNat

/-- The address map at an aligned offset (10_state.md rule R43, 20_memory.md rule R61). -/
def targetAt (o : Nat) : Target :=
  if o = 0x000 then .id
  else if o = 0x004 then .version
  else if o = 0x008 then .paramSym
  else if o = 0x00C then .paramBit
  else if o = 0x010 then .cmd
  else if o = 0x014 then .status
  else if o = 0x018 then .errCode
  else if o = 0x01C then .errIndex
  else if o = 0x020 then .irqEn
  else if o = 0x024 then .nsym
  else if o = 0x028 then .root
  else if o = 0x02C then .nnodes
  else if o = 0x030 then .symLen
  else if o = 0x034 then .bitLen
  else if 0x0400 ≤ o ∧ o ≤ 0x07FC then .freq ((o - 0x0400) / 4)
  else if 0x2000 ≤ o ∧ o ≤ 0x3FFC then .node ((o - 0x2000) / 16) ((o - 0x2000) % 16 / 4)
  else if 0x4000 ≤ o ∧ o ≤ 0x7FFC then .code ((o - 0x4000) / 64) ((o - 0x4000) % 64 / 4)
  else if 0x8000 ≤ o ∧ o ≤ 0xBFFC then .sym ((o - 0x8000) / 4)
  else if 0xC000 ≤ o ∧ o ≤ 0xFFFC then .bit ((o - 0xC000) / 4)
  else .reserved

/-- What a host access at `addr` reaches. -/
def targetOf (addr : Offset) : Target := targetAt (alignOffset addr)

/-- GUARDED: the targets whose writes are rejected while BUSY = 1 (40_host_access.md rule R112). -/
def guarded : Target → Bool
  | .symLen | .bitLen | .freq _ | .sym _ | .bit _ => true
  | .id | .version | .paramSym | .paramBit | .cmd | .status | .errCode | .errIndex | .irqEn | .nsym | .root
  | .nnodes | .node _ _ | .code _ _ | .reserved => false

/-- RESULT_OR_WINDOW: the targets whose reads are UNSPECIFIED while BUSY = 1 (40_host_access.md rule R110, 10_state.md
rule R55). -/
def resultOrWindow : Target → Bool
  | .errCode | .errIndex | .nsym | .root | .nnodes | .symLen | .bitLen | .freq _ | .node _ _ | .code _ _ | .sym _
  | .bit _ => true
  | .id | .version | .paramSym | .paramBit | .cmd | .status | .irqEn | .reserved => false

/-! ### The words of the windows -/

/-- Word `w` of a node record: N_FREQ_LO, N_FREQ_HI, N_INFO, N_LINK (20_memory.md rule R63). -/
def nodeRecordWord (nd : Node) : Nat → Word
  | 0 => nd.freq.extractLsb' 0 32
  | 1 => (0#24 : BitVec 24) ++ nd.freq.extractLsb' 32 8
  | 2 => BitVec.ofBool nd.leaf ++ (0#23 : BitVec 23) ++ nd.sym
  | 3 => (0#7 : BitVec 7) ++ nd.child1 ++ (0#7 : BitVec 7) ++ nd.child0
  | _ => 0#32

/-- node_word: entry 511 reads 0 (20_memory.md rule R63). -/
def State.nodeWord (s : State) (i w : Nat) : Word :=
  if i < maxNodes then nodeRecordWord (s.nodeAt i) w else 0#32

/-- code_word: C_LEN, C_BITS_0 to C_BITS_7, then reserved words (20_memory.md rule R64). -/
def State.codeWord (s : State) (k w : Nat) : Word :=
  if w = 0 then (s.codeAt k).len.setWidth 32
  else if w ≤ 8 then (s.codeAt k).bits.extractLsb' (32 * (w - 1)) 32
  else 0#32

/-- sym_word: symbol 4w in bits [7:0], and so on upward; 0 beyond the buffer (20_memory.md rule R65). -/
def State.symWord (s : State) (w : Nat) : Word :=
  if w < s.params.symDepth / 4 then
    s.symAt (4 * w + 3) ++ s.symAt (4 * w + 2) ++ s.symAt (4 * w + 1) ++ s.symAt (4 * w)
  else 0#32

/-- bit_word: bit `b` is BIT[32w + b]; 0 beyond the buffer (20_memory.md rule R66). -/
def State.bitWord (s : State) (w : Nat) : Word :=
  if w < s.params.bitDepth / 32 then
    BitVec.ofNat 32 (bitsToNat ((List.range 32).map (fun b => s.bitAt (32 * w + b))))
  else 0#32

/-- Lane `k` of a SYM window word: v[8k+7:8k] (20_memory.md rule R65). -/
def symLane (v : Word) (k : Nat) : Symbol := v.extractLsb' (8 * k) 8

end Sys2Proof.Machine
end

