-- ==== Sys2Proof/Machine/CodeTableGenerator.lean ====
section
/-! DEFINITION. GEN_CODES, the walk that writes the code table (43_code_table_generator.md rules R170 to R177). -/

namespace Sys2Proof.Machine

/-- The answer of the walk: the code table so far, or the reason it cannot go on (log entry 8). -/
inductive WalkEnd where
  | table (t : Memory CodeEntry)
  | stuck (why : Fault)
  deriving DecidableEq, Repr

/-- The recording of one symbol's code (43_code_table_generator.md rule R170). -/
def recordCode (t : Memory CodeEntry) (sym : Symbol) (p : List Bool) : Memory CodeEntry :=
  Memory.writeRange t sym.toNat [codeEntryOf p]

/-- walk(k, p) of 43_code_table_generator.md rule R170, child0 first. `fuel` counts the levels that are left: |p| may
not pass 255 (rule R174). -/
def walk (arenaAt? : Nat → Option Node) : Nat → Nat → List Bool → Memory CodeEntry → WalkEnd
  | 0, _, _, _ => .stuck .walkTooDeep
  | fuel + 1, k, p, t =>
    match arenaAt? k with
    | none => .stuck .nodeIndexOutOfArena
    | some nd =>
      if nd.leaf then .table (recordCode t nd.sym p)
      else
        match walk arenaAt? fuel nd.child0.toNat (p ++ [false]) t with
        | .stuck why => .stuck why
        | .table t' => walk arenaAt? fuel nd.child1.toNat (p ++ [true]) t'

/-- The table with every entry cleared (43_code_table_generator.md rules R170 and R173). -/
def clearedTable (old : Memory CodeEntry) : Memory CodeEntry :=
  Memory.writeRange old 0 (List.replicate nSym noCode)

/-- The code table of the tree at ROOT: the fixed code "0" for a single Leaf (43_code_table_generator.md rule R172),
else the walk from ROOT (rule R171). -/
def State.codeTable (s : State) : WalkEnd :=
  match s.arenaAt? s.root.toNat with
  | none => .stuck .nodeIndexOutOfArena
  | some nd =>
    if nd.leaf then .table (recordCode (clearedTable s.code) nd.sym [false])
    else walk s.arenaAt? (maxCodeLen + 1) s.root.toNat [] (clearedTable s.code)

/-- GEN_CODES (43_code_table_generator.md rule R170); NO_TREE changes no CODE entry (rule R177). -/
def execGenCodes (s : State) : Host.Outcome State Fault Refusal :=
  if !s.treeValid then .next (s.raiseError .noTree 0)
  else
    match s.codeTable with
    | .stuck why => .fault why
    | .table t => .next { s with code := t, codesValid := true }.complete

end Sys2Proof.Machine
end

