-- ==== Sys2Proof/Machine/Control.lean ====
section
/-! DEFINITION. NOP, CLEAR_FREQ and the completion of an illegal word (41_command_control.md rules R140 to R142). -/

namespace Sys2Proof.Machine

/-- NOP (41_command_control.md rule R140). -/
def execNop (s : State) : Host.Outcome State Fault Refusal := .next s.complete

/-- Every FREQ entry 0 (41_command_control.md rule R141). -/
def State.clearFreq (s : State) : State :=
  { s with freq := Memory.writeRange s.freq 0 (List.replicate nSym 0#32) }

/-- CLEAR_FREQ (41_command_control.md rule R141). -/
def execClearFreq (s : State) : Host.Outcome State Fault Refusal := .next s.clearFreq.invalidate.complete

/-- The completion of an accepted word that decodes to Illegal (41_command_control.md rule R142). -/
def illegal (s : State) : Host.Outcome State Fault Refusal := .next (s.raiseError .illegalCommand 0)

end Sys2Proof.Machine
end

