-- ==== Sys2Proof/Machine/Decoder.lean ====
section
/-! DEFINITION. DECODE, the bitstream-to-tree-walk state machine (45_decoder.md rules R210 to R222). -/

namespace Sys2Proof.Machine

/-- How the decoder's loop ends: the symbols written so far, and for a failure its code and the bit position. -/
inductive DecodeEnd where
  | done (out : List Symbol)
  | failed (code : ErrCode) (index : Nat) (out : List Symbol)
  | stuck (why : Fault)
  deriving DecidableEq, Repr

/-- The move on one bit: to child0 on 0 and to child1 on 1 from an Internal node, no move from a Leaf (45_decoder.md
rules R211 and R213). -/
def moveOn (nd : Node) (k : Nat) (b : Bool) : Nat :=
  if nd.leaf then k else if b then nd.child1.toNat else nd.child0.toNat

/-- The loop of 45_decoder.md rule R210 from bit `i` on: `r` is ROOT, `k` the current node, `start` the first bit of the
current codeword, `out` SYM[0..out-1], `cap` P_SYM_DEPTH. The stream may end only at ROOT (rule R214). -/
def decodeLoop (arenaAt? : Nat → Option Node) (r cap : Nat) : Nat → Nat → Nat → List Symbol → List Bool → DecodeEnd
  | _, k, start, out, [] => if k ≠ r then .failed .truncatedStream start out else .done out
  | i, k, start, out, b :: rest =>
    match arenaAt? k with
    | none => .stuck .nodeIndexOutOfArena
    | some nd =>
      match arenaAt? (moveOn nd k b) with
      | none => .stuck .nodeIndexOutOfArena
      | some nd' =>
        if nd'.leaf then
          if out.length = cap then .failed .outputOverflow i out
          else decodeLoop arenaAt? r cap (i + 1) r (if k = r then i else start) (out ++ [nd'.sym]) rest
        else decodeLoop arenaAt? r cap (i + 1) (moveOn nd k b) (if k = r then i else start) out rest

/-- SYM[0..] and SYM_LEN after DECODE: the symbols from index 0, every other SYM entry kept (45_decoder.md rules R210
and R219). -/
def State.decodeOutput (s : State) (out : List Symbol) (len : Nat) : State :=
  { s with sym := Memory.writeRange s.sym 0 out, symLen := BitVec.ofNat 32 len }

/-- DECODE (45_decoder.md rule R210): NO_TREE, then BAD_LENGTH, then the bits in ascending index. Every failure sets
SYM_LEN to 0 (rule R219). Every run starts at ROOT (rule R215). -/
def execDecode (s : State) : Host.Outcome State Fault Refusal :=
  if !s.treeValid then .next ((s.decodeOutput [] 0).raiseError .noTree 0)
  else if s.bitLen.toNat > s.params.bitDepth then .next ((s.decodeOutput [] 0).raiseError .badLength 0)
  else
    match decodeLoop s.arenaAt? s.root.toNat s.params.symDepth 0 s.root.toNat 0 [] (s.bitsIn s.bitLen.toNat) with
    | .stuck why => .fault why
    | .failed code index out => .next ((s.decodeOutput out 0).raiseError code index)
    | .done out => .next (s.decodeOutput out out.length).complete

end Sys2Proof.Machine
end

