-- ==== Sys2Proof/Machine/Encoder.lean ====
section
/-! DEFINITION. ENCODE, the concatenation of the input symbols' codes (44_encoder.md rules R190 to R199). -/

namespace Sys2Proof.Machine

/-- How the encoder's loop ends: the bits written so far, and for a failure its code and the symbol's index. -/
inductive EncodeEnd where
  | done (out : List Bool)
  | failed (code : ErrCode) (index : Nat) (out : List Bool)
  deriving DecidableEq, Repr

/-- The loop of 44_encoder.md rule R190 from symbol `i` on; `out` is BIT[0..pos-1], `cap` is P_BIT_DEPTH. For one
symbol the absent code is checked before the capacity (60_exceptions.md rule R238). -/
def encodeLoop (codeAt : Nat → CodeEntry) (cap : Nat) : Nat → List Bool → List Symbol → EncodeEnd
  | _, out, [] => .done out
  | i, out, x :: rest =>
    if (codeAt x.toNat).len = 0#8 then .failed .symbolNotInAlphabet i out
    else if out.length + (codeAt x.toNat).len.toNat > cap then .failed .outputOverflow i out
    else encodeLoop codeAt cap (i + 1) (out ++ codeString (codeAt x.toNat)) rest

/-- BIT[0..] and BIT_LEN after ENCODE: the bits from index 0, every other BIT entry kept (44_encoder.md rules R190 and
R196). -/
def State.encodeOutput (s : State) (out : List Bool) (len : Nat) : State :=
  { s with bit := Memory.writeRange s.bit 0 out, bitLen := BitVec.ofNat 32 len }

/-- encode() of 44_encoder.md rule R190: NO_CODES, then BAD_LENGTH, then the symbols in ascending index. Every failure
sets BIT_LEN to 0 (rule R196). -/
def State.encode (s : State) : State :=
  if !s.codesValid then (s.encodeOutput [] 0).raiseError .noCodes 0
  else if s.symLen.toNat > s.params.symDepth then (s.encodeOutput [] 0).raiseError .badLength 0
  else
    match encodeLoop s.codeAt s.params.bitDepth 0 [] (s.symbolsIn s.symLen.toNat) with
    | .failed code index out => (s.encodeOutput out 0).raiseError code index
    | .done out => (s.encodeOutput out out.length).complete

/-- ENCODE (44_encoder.md rule R190). -/
def execEncode (s : State) : Host.Outcome State Fault Refusal := .next s.encode

end Sys2Proof.Machine
end

