-- ==== Sys2Proof/Machine/TreeBuilder.lean ====
section
/-! DEFINITION. BUILD_TREE, the greedy leaf-pair merge (42_tree_builder.md rules R150 to R160). -/

namespace Sys2Proof.Machine

/-- A Leaf (42_tree_builder.md rule R150): its frequency is the 32-bit count, zero-extended to 40 bits (rule R157). -/
def leafNode (s : Nat) (count : Word) : Node :=
  { leaf := true, freq := count.setWidth 40, sym := BitVec.ofNat 8 s, child0 := 0#9, child1 := 0#9 }

/-- The leaves, one for each symbol with FREQ[s] ≠ 0, in ascending symbol order (42_tree_builder.md rule R151). -/
def leavesOf (freqAt : Nat → Word) : List Node :=
  (List.range nSym).filterMap (fun s => if freqAt s ≠ 0#32 then some (leafNode s (freqAt s)) else none)

/-- A member of the active set: an arena index with its node's frequency, the key (freq, index) of 42_tree_builder.md
rule R152. -/
structure Active where
  freq : Nat
  index : Nat
  deriving DecidableEq, Repr

/-- The key of `x` is less than the key of `y`: by freq first, by arena index when freqs are equal (42_tree_builder.md
rule R152). -/
def keyLess (x y : Active) : Bool :=
  decide (x.freq < y.freq) || (decide (x.freq = y.freq) && decide (x.index < y.index))

/-- The member with the least key among `x` and the list. -/
def leastOf (x : Active) : List Active → Active
  | [] => x
  | y :: ys => leastOf (if keyLess y x then y else x) ys

/-- The member with the least key, and the active set without it (42_tree_builder.md rule R152). -/
def removeLeast : List Active → Option (Active × List Active)
  | [] => none
  | x :: xs => some (leastOf x xs, (x :: xs).erase (leastOf x xs))

/-- The Internal node over the removed `a` and then `b`: the first removed is the bit-0 child (42_tree_builder.md rule
R153). The sum is exact (rule R157). -/
def internalNode (a b : Active) : Node :=
  { leaf := false, freq := BitVec.ofNat 40 (a.freq + b.freq), sym := 0#8, child0 := BitVec.ofNat 9 a.index,
    child1 := BitVec.ofNat 9 b.index }

/-- The merge loop (42_tree_builder.md rules R153 and R154): while the active set has two members, remove the two least
and add their parent at the next arena index. `fuel` bounds the number of merges; the active set's size is enough. -/
def mergeLoop : Nat → List Node → List Active → List Node
  | 0, arena, _ => arena
  | fuel + 1, arena, active =>
    match removeLeast active with
    | none => arena
    | some (a, rest) =>
      match removeLeast rest with
      | none => arena
      | some (b, rest') =>
        mergeLoop fuel (arena ++ [internalNode a b]) (⟨a.freq + b.freq, arena.length⟩ :: rest')

/-- The first active set: every leaf (42_tree_builder.md rule R150). -/
def activeLeaves (leaves : List Node) : List Active :=
  leaves.zipIdx.map (fun p => ⟨p.1.freq.toNat, p.2⟩)

/-- NODE[0..2n-2] as BUILD_TREE writes it: the leaves, then the Internal nodes in creation order (42_tree_builder.md
rule R150). -/
def arenaOf (leaves : List Node) : List Node := mergeLoop leaves.length leaves (activeLeaves leaves)

/-- The failure with no present symbol (42_tree_builder.md rule R156). -/
def State.buildEmpty (s : State) : State :=
  { s.invalidate with nsym := 0#9, root := 0#9, nnodes := 0#10 }

/-- The success with the given leaves (42_tree_builder.md rule R150): only NODE[0..2n-2] is written. -/
def State.buildFrom (s : State) (leaves : List Node) : State :=
  { s with
    node := Memory.writeRange s.node 0 (arenaOf leaves)
    nsym := BitVec.ofNat 9 leaves.length
    nnodes := BitVec.ofNat 10 (arenaOf leaves).length
    root := BitVec.ofNat 9 ((arenaOf leaves).length - 1)
    treeValid := true
    codesValid := false }

/-- build_tree() of 42_tree_builder.md rule R150. -/
def State.buildTree (s : State) : State :=
  if (leavesOf s.freqAt).length = 0 then s.buildEmpty.raiseError .emptyAlphabet 0
  else (s.buildFrom (leavesOf s.freqAt)).complete

/-- BUILD_TREE (42_tree_builder.md rule R150). -/
def execBuildTree (s : State) : Host.Outcome State Fault Refusal := .next s.buildTree

end Sys2Proof.Machine
end

