-- ==== Sys2Proof/Machine/HostAccess.lean ====
section
/-! DEFINITION. The host's bus reads and writes (40_host_access.md rules R110 to R120). -/

namespace Sys2Proof.Machine

/-! ### Reads -/

/-- What a read of a target returns when its value is exact (40_host_access.md rule R110). -/
def State.targetWord (s : State) : Target → Word
  | .id => Config.idValue
  | .version => Config.versionValue
  | .paramSym => BitVec.ofNat 32 s.params.symDepth
  | .paramBit => BitVec.ofNat 32 s.params.bitDepth
  | .cmd => 0#32
  | .status => s.statusWord
  | .errCode => s.errCode.setWidth 32
  | .errIndex => s.errIndex
  | .irqEn => s.irqEn.setWidth 32
  | .nsym => s.nsym.setWidth 32
  | .root => s.root.setWidth 32
  | .nnodes => s.nnodes.setWidth 32
  | .symLen => s.symLen
  | .bitLen => s.bitLen
  | .freq k => s.freqAt k
  | .node i w => s.nodeWord i w
  | .code k w => s.codeWord k w
  | .sym w => s.symWord w
  | .bit w => s.bitWord w
  | .reserved => 0#32

/-- A read of `addr` returns an UNSPECIFIED value now (10_state.md rule R55). -/
def State.readIsDrawn (s : State) (addr : Offset) : Bool := s.busy && resultOrWindow (targetOf addr)

/-- The word HostRead(addr) returns (40_host_access.md rule R110). -/
def State.readValue (s : State) (addr : Offset) : Word :=
  if s.readIsDrawn addr then Config.busyRead s.draws else s.targetWord (targetOf addr)

/-- HostRead(addr): the data appear on bus_rdata; no architectural state changes (40_host_access.md rule R110,
20_memory.md rule R70). A drawn value is drawn fresh on each read (93_implementation_defined.md U5). -/
def State.hostRead (s : State) (addr : Offset) : State :=
  { s with
    rdata := s.readValue addr
    draws := if s.readIsDrawn addr then s.draws + 1 else s.draws }

/-! ### Writes -/

/-- cmd_write(v) of 41_command_control.md rule R131. -/
def State.cmdWrite (s : State) (v : Word) : State :=
  if s.busy then s.rejectAccess else s.accept v

/-- A FREQ write (40_host_access.md rule R116). -/
def State.freqWrite (s : State) (k : Nat) (v : Word) : State :=
  { s.invalidate with freq := Memory.writeRange s.freq k [v] }

/-- A SYM window write: all four lanes, for a word inside the buffer (40_host_access.md rule R117). -/
def State.symWrite (s : State) (w : Nat) (v : Word) : State :=
  if w < s.params.symDepth / 4 then
    { s with sym := Memory.writeRange s.sym (4 * w) [symLane v 0, symLane v 1, symLane v 2, symLane v 3] }
  else s

/-- A BIT window write: all 32 bits, for a word inside the buffer (40_host_access.md rule R117). -/
def State.bitWrite (s : State) (w : Nat) (v : Word) : State :=
  if w < s.params.bitDepth / 32 then
    { s with bit := Memory.writeRange s.bit (32 * w) ((List.range 32).map v.getLsbD) }
  else s

/-- The effect of a write that is not rejected (40_host_access.md rules R114 to R118, R120). -/
def State.targetWrite (s : State) (v : Word) : Target → State
  | .cmd => s.cmdWrite v
  | .status => s.statusWrite v
  | .irqEn => { s with irqEn := v.setWidth 3 }
  | .symLen => { s with symLen := v }
  | .bitLen => { s with bitLen := v }
  | .freq k => s.freqWrite k v
  | .sym w => s.symWrite w v
  | .bit w => s.bitWrite w v
  | .id | .version | .paramSym | .paramBit | .errCode | .errIndex | .nsym | .root | .nnodes | .node _ _ | .code _ _
  | .reserved => s

/-- HostWrite(addr, v) of 40_host_access.md rule R111: a guarded write is rejected while BUSY = 1 (rule R113). -/
def State.hostWrite (s : State) (addr : Offset) (v : Word) : State :=
  if guarded (targetOf addr) && s.busy then s.rejectAccess else s.targetWrite v (targetOf addr)

end Sys2Proof.Machine
end

