-- ==== Sys2Proof/Machine/Engine.lean ====
section
/-! DEFINITION. The engine step (41_command_control.md rule R133), the events of the environment, and the placing of a
command word where the engine takes it. -/

namespace Sys2Proof.Machine

/-- EngineStep of 41_command_control.md rule R133: enabled exactly while BUSY = 1, it decodes PENDING and runs the
command to its completion. While BUSY = 0 nothing happens (60_exceptions.md rule R246; log entry 5). -/
def engineStep (s : State) : Host.Outcome State Fault Refusal :=
  match s.pending with
  | none => .next s
  | some w =>
    match Sys2Proof.decode w with
    | .command i => exec i s
    | .illegal _ => illegal s

/-- One event: a host access, the engine's turn, or a reset. -/
def handleInput (s : State) : Input → Host.Outcome State Fault Refusal
  | .read addr => .next (s.hostRead addr)
  | .write addr v => .next (s.hostWrite addr v)
  | .engine => engineStep s
  | .reset => .next s.afterReset

/-- One step of the whole block: the environment's next event; with no event in view, the engine's step if it is
enabled (41_command_control.md rule R133; log entries 4 and 5). -/
def blockStep (s : State) : Host.Outcome State Fault Refusal :=
  match s.inputs with
  | [] => engineStep s
  | e :: rest => handleInput { s with inputs := rest } e

/-- The command word `w` accepted as a CMD write accepts it (41_command_control.md rule R131), with the engine's turn as
the next event, so that the next step runs it (log entry 12). -/
def State.withCommandWord (s : State) (w : Word) : State :=
  { s.accept w with inputs := .engine :: s.inputs }

end Sys2Proof.Machine
end

