-- ==== Sys2Proof/Machine/Step.lean ====
section
/-! DEFINITION. The machine's one step, and the placing of an instruction where it fetches next. -/

namespace Sys2Proof.Machine

/-- One step of the block: the environment's next event, or the engine's step (20_memory.md rules R72 and R73). -/
def step (s : State) : Host.Outcome State Fault Refusal := blockStep s

/-- The state whose very next step runs the command word `w`, of which the table gives `nbits` (log entry 12). -/
def State.withFetchWord (s : State) (nbits w : Nat) : State :=
  s.withCommandWord (BitVec.ofNat 32 (w % 2 ^ nbits))

end Sys2Proof.Machine
end

