-- ==== Sys2Proof/Safety.lean ====
section
/-! DEFINITION. The terms claims are stated in: a completed command, the parts of the state a command leaves alone, the
tree and the code table as the spec describes them (without the model's own algorithms), and the machine's invariant. -/

namespace Sys2Proof.Safety

open Sys2Proof.Machine

/-! ### Offsets -/

/-- The aligned word a host access at `addr` reaches: `addr` with bits [1:0] cleared (20_memory.md rule R69). -/
abbrev wordOffset (addr : Offset) : Nat := addr.toNat - addr.toNat % 4

/-- GUARDED (40_host_access.md rule R112), by offset. -/
abbrev GuardedOffset (o : Nat) : Prop :=
  o = 0x030 ∨ o = 0x034 ∨ (0x0400 ≤ o ∧ o ≤ 0x07FC) ∨ (0x8000 ≤ o ∧ o ≤ 0xBFFC) ∨ (0xC000 ≤ o ∧ o ≤ 0xFFFC)

/-- RESULT_OR_WINDOW (40_host_access.md rule R110), by offset. -/
abbrev ResultOrWindowOffset (o : Nat) : Prop :=
  o = 0x018 ∨ o = 0x01C ∨ o = 0x024 ∨ o = 0x028 ∨ o = 0x02C ∨ o = 0x030 ∨ o = 0x034 ∨ (0x0400 ≤ o ∧ o ≤ 0x07FC) ∨
    (0x2000 ≤ o ∧ o ≤ 0x3FFC) ∨ (0x4000 ≤ o ∧ o ≤ 0x7FFC) ∨ (0x8000 ≤ o ∧ o ≤ 0xBFFC) ∨ (0xC000 ≤ o ∧ o ≤ 0xFFFC)

/-- The reserved offsets (20_memory.md rule R61). -/
abbrev ReservedOffset (o : Nat) : Prop := (0x0038 ≤ o ∧ o ≤ 0x03FC) ∨ (0x0800 ≤ o ∧ o ≤ 0x1FFC)

/-- The offsets whose writes have no effect (40_host_access.md rule R120). -/
abbrev NoEffectOffset (o : Nat) : Prop :=
  o = 0x000 ∨ o = 0x004 ∨ o = 0x008 ∨ o = 0x00C ∨ o = 0x018 ∨ o = 0x01C ∨ o = 0x024 ∨ o = 0x028 ∨ o = 0x02C ∨
    (0x2000 ≤ o ∧ o ≤ 0x3FFC) ∨ (0x4000 ≤ o ∧ o ≤ 0x7FFC) ∨ ReservedOffset o

/-! ### Completion and frames -/

/-- The state right after the completion of a command with result `code` and position `index` (41_command_control.md
rule R132). -/
abbrev CompletedWith (t : State) (code index : Nat) : Prop :=
  t.errCode.toNat = code ∧ t.errIndex.toNat = index ∧ t.busy = false ∧ t.done = true ∧ t.error = decide (code ≠ 0)

/-- FREQ reads the same. -/
abbrev SameFreq (s t : State) : Prop := ∀ k, t.freqAt k = s.freqAt k

/-- NODE, NSYM, ROOT, NNODES and TREE_VALID read the same. -/
abbrev SameTree (s t : State) : Prop :=
  (∀ k, t.nodeAt k = s.nodeAt k) ∧ t.nsym = s.nsym ∧ t.root = s.root ∧ t.nnodes = s.nnodes ∧
    t.treeValid = s.treeValid

/-- CODE and CODES_VALID read the same. -/
abbrev SameCodes (s t : State) : Prop := (∀ k, t.codeAt k = s.codeAt k) ∧ t.codesValid = s.codesValid

/-- SYM and SYM_LEN read the same. -/
abbrev SameSymbols (s t : State) : Prop := (∀ k, t.symAt k = s.symAt k) ∧ t.symLen = s.symLen

/-- BIT and BIT_LEN read the same. -/
abbrev SameBits (s t : State) : Prop := (∀ k, t.bitAt k = s.bitAt k) ∧ t.bitLen = s.bitLen

/-- What no command writes: STATUS.REJECT, IRQ_EN, the parameters, the bus_rdata port, and the model's own fields. -/
abbrev SameRest (s t : State) : Prop :=
  t.reject = s.reject ∧ t.irqEn = s.irqEn ∧ t.params = s.params ∧ t.rdata = s.rdata ∧ t.resets = s.resets ∧
    t.draws = s.draws ∧ t.inputs = s.inputs

/-! ### Reset -/

/-- Nothing has been written in a memory since reset: every entry is UNSPECIFIED. -/
abbrev Unwritten {α : Type} (m : Memory α) : Prop := ∀ k, Memory.get? m k = none

/-- The table of 70_reset_and_hazards.md rule R260. -/
abbrev IsResetState (t : State) : Prop :=
  (t.busy = false ∧ t.done = false ∧ t.error = false ∧ t.reject = false) ∧
  (t.treeValid = false ∧ t.codesValid = false) ∧
  (t.errCode = 0#8 ∧ t.errIndex = 0#32 ∧ t.irqEn = 0#3) ∧
  (t.nsym = 0#9 ∧ t.root = 0#9 ∧ t.nnodes = 0#10) ∧
  (t.symLen = 0#32 ∧ t.bitLen = 0#32) ∧
  (t.pending = none ∧ t.irq = false) ∧
  (t.readValue 0x000#16 = 0x48554646#32 ∧ t.readValue 0x004#16 = 0x00010000#32 ∧
    t.readValue 0x008#16 = BitVec.ofNat 32 t.params.symDepth ∧
    t.readValue 0x00C#16 = BitVec.ofNat 32 t.params.bitDepth) ∧
  (Unwritten t.freq ∧ Unwritten t.node ∧ Unwritten t.code ∧ Unwritten t.sym ∧ Unwritten t.bit)

/-! ### The tree as the spec describes it -/

/-- The present symbols, in ascending order (42_tree_builder.md rule R151). -/
def presentSymbols (s : State) : List Nat := (List.range 256).filter (fun k => s.freqAt k ≠ 0#32)

/-- n, the number of present symbols. -/
def leafCount (s : State) : Nat := (presentSymbols s).length

/-- `j` is the bit-0 or the bit-1 child of node `p`. -/
abbrev IsChild (nodeAt : Nat → Node) (p j : Nat) : Prop :=
  (nodeAt p).child0.toNat = j ∨ (nodeAt p).child1.toNat = j

/-- Node `j` is in the active set when node `k` is created: it exists by then, and no Internal node created before `k`
removed it (42_tree_builder.md rule R153). -/
abbrev ActiveAt (nodeAt : Nat → Node) (n k j : Nat) : Prop :=
  j < k ∧ ∀ p ∈ List.range k, n ≤ p → ¬ IsChild nodeAt p j

/-- The key (freq, index) of `i` is less than that of `j` (42_tree_builder.md rule R152). -/
abbrev KeyBefore (nodeAt : Nat → Node) (i j : Nat) : Prop :=
  (nodeAt i).freq.toNat < (nodeAt j).freq.toNat ∨ ((nodeAt i).freq.toNat = (nodeAt j).freq.toNat ∧ i < j)

/-- Node `k` is what one merge creates (42_tree_builder.md rules R152 and R153): an Internal node over the two active
nodes with the least keys, the least as child0 and the next as child1, with the exact sum of their frequencies. -/
abbrev MergedAt (nodeAt : Nat → Node) (n k : Nat) : Prop :=
  (nodeAt k).leaf = false ∧ (nodeAt k).sym = 0#8 ∧
  ActiveAt nodeAt n k (nodeAt k).child0.toNat ∧ ActiveAt nodeAt n k (nodeAt k).child1.toNat ∧
  KeyBefore nodeAt (nodeAt k).child0.toNat (nodeAt k).child1.toNat ∧
  (∀ j ∈ List.range k, ActiveAt nodeAt n k j → ¬ IsChild nodeAt k j → KeyBefore nodeAt (nodeAt k).child1.toNat j) ∧
  (nodeAt k).freq.toNat = (nodeAt (nodeAt k).child0.toNat).freq.toNat + (nodeAt (nodeAt k).child1.toNat).freq.toNat

/-- Node `i` is the Leaf of the present symbol `x` (42_tree_builder.md rule R150). -/
abbrev IsLeafOf (s : State) (i x : Nat) : Prop :=
  (s.nodeAt i).leaf = true ∧ (s.nodeAt i).freq.toNat = (s.freqAt x).toNat ∧ (s.nodeAt i).sym.toNat = x ∧
    (s.nodeAt i).child0 = 0#9 ∧ (s.nodeAt i).child1 = 0#9

/-- NODE, NSYM, ROOT and NNODES hold the tree of the present FREQ contents, said without the model's algorithm
(10_state.md rule R53, 42_tree_builder.md rules R150 to R154). -/
abbrev TreeMatches (s : State) : Prop :=
  1 ≤ leafCount s ∧
  (s.nsym.toNat = leafCount s ∧ s.nnodes.toNat = 2 * leafCount s - 1 ∧ s.root.toNat = 2 * leafCount s - 2) ∧
  (∀ i ∈ List.range (leafCount s), IsLeafOf s i ((presentSymbols s).getD i 0)) ∧
  (∀ k ∈ List.range (2 * leafCount s - 1), leafCount s ≤ k → MergedAt s.nodeAt (leafCount s) k)

/-- The node reached from `k` by the child choices `p`, or none where the path would leave a Leaf (00_scope.md rule
R17, "Path of a node"). -/
def descend (nodeAt : Nat → Node) : Nat → List Bool → Option Nat
  | k, [] => some k
  | k, b :: p =>
    if (nodeAt k).leaf then none
    else descend nodeAt (if b then (nodeAt k).child1.toNat else (nodeAt k).child0.toNat) p

/-- `p` is a codeword of the tree that ends at Leaf `i`: the path from ROOT to `i`, or, in a single-leaf tree, any one
bit (45_decoder.md rules R212 and R213). -/
abbrev IsCodeword (s : State) (p : List Bool) (i : Nat) : Prop :=
  (s.nodeAt i).leaf = true ∧
    (if (s.nodeAt s.root.toNat).leaf then i = s.root.toNat ∧ p.length = 1
     else descend s.nodeAt s.root.toNat p = some i)

/-- The code of symbol `x` as GEN_CODES wrote it, as a bit string (10_state.md rule R47). -/
abbrev codeOf (s : State) (x : Nat) : List Bool := codeString (s.codeAt x)

/-- The length of the code of symbol `x`. -/
abbrev codeLen (s : State) (x : Nat) : Nat := (s.codeAt x).len.toNat

/-- CODE holds the code of the present symbol `x`: "0" in a single-leaf tree, else the path of its Leaf, with every
code bit beyond it 0 (10_state.md rules R47 and R54, 43_code_table_generator.md rules R171 and R172). -/
abbrev IsCodeOf (s : State) (x : Nat) : Prop :=
  1 ≤ codeLen s x ∧
  (∀ j ∈ List.range 255, codeLen s x ≤ j → (s.codeAt x).bits.getLsbD j = false) ∧
  (if leafCount s = 1 then codeOf s x = [false]
   else ∃ i ∈ List.range (leafCount s), (s.nodeAt i).sym.toNat = x ∧
     descend s.nodeAt s.root.toNat (codeOf s x) = some i)

/-- CODE holds the code table of the present tree (10_state.md rule R54, 43_code_table_generator.md rules R171 to
R173). -/
abbrev CodesMatch (s : State) : Prop :=
  ∀ x ∈ List.range 256, if s.freqAt x = 0#32 then s.codeAt x = noCode else IsCodeOf s x

/-- The first stream position of the code of SYM[j] in an encoding: the sum of the code lengths before it
(44_encoder.md rule R192). -/
def codeStart (s : State) (j : Nat) : Nat :=
  ((List.range j).map (fun i => codeLen s (s.symAt i).toNat)).sum

/-! ### The invariant -/

/-- Every memory is in its canonical form. -/
abbrev MemoriesCanonical (s : State) : Prop :=
  Memory.wf 256 s.freq ∧ Memory.wf 511 s.node ∧ Memory.wf 256 s.code ∧ Memory.wf s.params.symDepth s.sym ∧
    Memory.wf s.params.bitDepth s.bit

/-- What the spec says of the registers in every reachable state: ERR_CODE is one of 0 to 8 (60_exceptions.md rule
R230), ERR_INDEX is 0 for the codes that have no position (rule R231) and below 2^18 (10_state.md rule R36), NSYM, ROOT
and NNODES are in range (rules R38 to R40), DONE and ERROR are 0 while BUSY (40_host_access.md rule R114), and
CODES_VALID implies TREE_VALID (10_state.md rule R52). -/
abbrev RegistersInRange (s : State) : Prop :=
  s.errCode.toNat ≤ 8 ∧
  (s.errCode.toNat ∈ [0, 1, 4, 5, 7, 8] → s.errIndex = 0#32) ∧
  s.errIndex.toNat < 2 ^ 18 ∧
  (s.nsym.toNat ≤ 256 ∧ s.root.toNat ≤ 510 ∧ s.nnodes.toNat ≤ 511) ∧
  (s.busy = true → s.done = false ∧ s.error = false) ∧
  (s.codesValid = true → s.treeValid = true)

/-- The machine's invariant: canonical memories, registers in range, TREE_VALID means the tree of the present FREQ
(10_state.md rule R53) and CODES_VALID the code table of that tree (rule R54). -/
structure Inv (s : State) : Prop where
  memories : MemoriesCanonical s
  registers : RegistersInRange s
  tree : s.treeValid = true → TreeMatches s
  codes : s.codesValid = true → CodesMatch s

/-! ### Which command a step runs -/

/-- It is the engine's turn in this step of the block: its event comes next, or no event is in view (log entry 4). -/
def engineTurn (s : State) : Bool :=
  match s.inputs with
  | [] => true
  | .engine :: _ => true
  | .read _ :: _ => false
  | .write _ _ :: _ => false
  | .reset :: _ => false

/-- The events that remain after this step. -/
abbrev remainingInputs (s : State) : List Input := s.inputs.tail

/-- The command this step runs to its completion, if it is the engine's turn, BUSY = 1 and the pending word is legal
(41_command_control.md rule R133). -/
def commandRun (s : State) : Option Instr :=
  if engineTurn s then
    match s.pending with
    | none => none
    | some w =>
      match Sys2Proof.decode w with
      | .command i => some i
      | .illegal _ => none
  else none

end Sys2Proof.Safety
end

