-- ==== Sys2Proof/Certificates/Slice0/Obligations.lean ====
section
/-! DEFINITION. The statements for the provers. Each docstring names the rules of spec/ it formalises. The frames are
said with the Same… predicates of Safety.lean, which read every entry of every memory. -/

open Sys2Proof Sys2Proof.Machine Sys2Proof.Safety

/-! ### Encoding -/

/-- The opcode map (30_encoding.md rule R92): which word selects which command, and that no other word selects one. -/
def Obligations.OpcodeMapIsExact : Prop :=
  ∀ w : Word,
    ((w.toNat / 256 ≠ 0 ∨ 6 ≤ w.toNat % 256) ↔ ∃ why, decode w = .illegal why) ∧
    (decode w = .command .nop ↔ w = 0x00000000#32) ∧
    (decode w = .command .clearFreq ↔ w = 0x00000001#32) ∧
    (decode w = .command .buildTree ↔ w = 0x00000002#32) ∧
    (decode w = .command .genCodes ↔ w = 0x00000003#32) ∧
    (decode w = .command .encode ↔ w = 0x00000004#32) ∧
    (decode w = .command .decode ↔ w = 0x00000005#32)

/-- Decode and encode agree on every well-formed command and every word (30_encoding.md rules R90, R92 and R94), also
through the host's numbering of an instruction's bits. -/
def Obligations.DecodeInvertsEncode : Prop :=
  ∀ i : Instr, i.wellFormed = true →
    (∀ w : Word, decode w = .command i ↔ w = encode i) ∧ wordWellFormed (encode i) = true ∧
      decodeTableWord 32 (encode i).toNat = some i

/-- A few words written out bit by bit from 30_encoding.md rules R90 and R92 and 95_test_vectors.md V6. -/
def Obligations.SpecWordsDecode : Prop :=
  decode 0b00000000000000000000000000000010#32 = .command .buildTree ∧
  decode 0b00000000000000000000000000000100#32 = .command .encode ∧
  decode 0b00000000000000000000000000000101#32 = .command .decode ∧
  decode 0x00000102#32 = .illegal (.rsvdNonzero 1#24) ∧
  decode 0x000000FF#32 = .illegal (.opcodeUnassigned 0xFF#8)

/-! ### The step -/

/-- A step runs the decoded command (41_command_control.md rule R133): with no event in view (log entry 4), or when the
engine's turn comes next. -/
def Obligations.StepRunsPendingCommand : Prop :=
  ∀ (s : State) (w : Word) (i : Instr), s.pending = some w → decode w = .command i →
    (s.inputs = [] → step s = exec i s) ∧
    (∀ rest, s.inputs = .engine :: rest → step s = exec i { s with inputs := rest })

/-- What a step is when no command runs: a host access (20_memory.md rule R72), the engine's turn while idle, or
nothing at all (60_exceptions.md rule R246; log entries 4 and 5). -/
def Obligations.StepPerformsHostAccess : Prop :=
  ∀ s : State,
    (∀ rest addr, s.inputs = .read addr :: rest → step s = .next (State.hostRead { s with inputs := rest } addr)) ∧
    (∀ rest addr v, s.inputs = .write addr v :: rest →
      step s = .next (State.hostWrite { s with inputs := rest } addr v)) ∧
    (∀ rest, s.busy = false → s.inputs = .engine :: rest → step s = .next { s with inputs := rest }) ∧
    (s.busy = false → s.inputs = [] → step s = .next s)

/-- An accepted illegal word (41_command_control.md rule R142): ILLEGAL_COMMAND and nothing else changes. -/
def Obligations.IllegalWordOnlyCompletes : Prop :=
  ∀ (s : State) (w : Word), s.pending = some w → (w.toNat / 256 ≠ 0 ∨ 6 ≤ w.toNat % 256) →
    ∃ t, engineStep s = .next t ∧ CompletedWith t 7 0 ∧ SameFreq s t ∧ SameTree s t ∧ SameCodes s t ∧
      SameSymbols s t ∧ SameBits s t ∧ SameRest s t

/-! ### Reset -/

/-- The state after a reset (70_reset_and_hazards.md rule R260), at power-up and after every later reset. -/
def Obligations.ResetLeavesTheResetState : Prop :=
  (IsResetState State.reset ∧ State.reset.params = Config.params) ∧
  ∀ (s : State) (rest : List Input), s.inputs = .reset :: rest →
    ∃ t, step s = .next t ∧ IsResetState t ∧ t.params = s.params

/-- Reset during a command abandons it, and nothing else ends a command without its completion
(70_reset_and_hazards.md rule R261). -/
def Obligations.OnlyResetAbandonsACommand : Prop :=
  ∀ s t : State, s.busy = true → step s = .next t →
    (s.inputs.head? = some .reset → IsResetState t) ∧
    (s.inputs.head? ≠ some .reset → t.busy = false → t.done = true)

/-- The invariant holds right after reset. -/
def Obligations.InvariantHoldsAtReset : Prop := Inv State.reset

/-! ### Host accesses -/

/-- cmd_write (41_command_control.md rule R131): accepted while BUSY = 0, whatever the word; rejected while BUSY = 1. -/
def Obligations.CmdWriteAcceptsOrRejects : Prop :=
  ∀ (s : State) (addr : Offset) (v : Word), wordOffset addr = 0x010 →
    (s.busy = true → s.hostWrite addr v = { s with reject := true }) ∧
    (s.busy = false → s.hostWrite addr v = { s with pending := some v, done := false, error := false } ∧
      (s.hostWrite addr v).busy = true)

/-- A write to a GUARDED offset while BUSY = 1 (40_host_access.md rules R112 and R113). -/
def Obligations.GuardedWritesAreRejectedWhileBusy : Prop :=
  ∀ (s : State) (addr : Offset) (v : Word), s.busy = true → GuardedOffset (wordOffset addr) →
    s.hostWrite addr v = { s with reject := true } ∧
    (s.irqEn.getLsbD 2 = true → (s.hostWrite addr v).irq = true)

/-- A STATUS write clears DONE, ERROR and REJECT where it has a 1 and changes nothing else (40_host_access.md rule
R114). -/
def Obligations.StatusWriteClearsNamedBits : Prop :=
  ∀ (s : State) (addr : Offset) (v : Word), wordOffset addr = 0x014 →
    ∃ t, s.hostWrite addr v = t ∧
      t.done = (if v.getLsbD 1 then false else s.done) ∧
      t.error = (if v.getLsbD 2 then false else s.error) ∧
      t.reject = (if v.getLsbD 3 then false else s.reject) ∧
      t = { s with done := t.done, error := t.error, reject := t.reject }

/-- An IRQ_EN write is never rejected, stores v[2:0] and acts on the interrupt output at once (40_host_access.md rule
R115). -/
def Obligations.IrqEnWriteStoresThreeBits : Prop :=
  ∀ (s : State) (addr : Offset) (v : Word), wordOffset addr = 0x020 →
    ∃ t, s.hostWrite addr v = t ∧ (∀ j < 3, t.irqEn.getLsbD j = v.getLsbD j) ∧ t = { s with irqEn := t.irqEn } ∧
      t.irq = ((s.done && v.getLsbD 0) || (s.error && v.getLsbD 1) || (s.reject && v.getLsbD 2))

/-- An accepted FREQ write stores the count and invalidates the tree and the codes (40_host_access.md rule R116). -/
def Obligations.FreqWriteStoresAndInvalidates : Prop :=
  ∀ (s : State) (addr : Offset) (x : Nat) (v : Word), s.busy = false → x < 256 → wordOffset addr = 0x0400 + 4 * x →
    ∃ t, s.hostWrite addr v = t ∧ t.freqAt x = v ∧ (∀ k, k ≠ x → t.freqAt k = s.freqAt k) ∧
      t.treeValid = false ∧ t.codesValid = false ∧
      t = { s with freq := t.freq, treeValid := false, codesValid := false }

/-- Writes to the SYM and BIT windows (40_host_access.md rule R117): all four lanes or all 32 bits of a word inside the
buffer, no effect beyond it. -/
def Obligations.SymAndBitWindowWrites : Prop :=
  ∀ (s : State) (addr : Offset) (w : Nat) (v : Word), s.busy = false → w < 4096 →
    (wordOffset addr = 0x8000 + 4 * w →
      ∃ t, s.hostWrite addr v = t ∧ t = { s with sym := t.sym } ∧
        (w < s.params.symDepth / 4 → (∀ k < 4, t.symAt (4 * w + k) = v.extractLsb' (8 * k) 8) ∧
          ∀ j, (j < 4 * w ∨ 4 * w + 4 ≤ j) → t.symAt j = s.symAt j) ∧
        (s.params.symDepth / 4 ≤ w → t = s)) ∧
    (wordOffset addr = 0xC000 + 4 * w →
      ∃ t, s.hostWrite addr v = t ∧ t = { s with bit := t.bit } ∧
        (w < s.params.bitDepth / 32 → (∀ b < 32, t.bitAt (32 * w + b) = v.getLsbD b) ∧
          ∀ j, (j < 32 * w ∨ 32 * w + 32 ≤ j) → t.bitAt j = s.bitAt j) ∧
        (s.params.bitDepth / 32 ≤ w → t = s))

/-- Writes to SYM_LEN and BIT_LEN store all 32 bits, whatever the value (40_host_access.md rule R118). -/
def Obligations.LengthWritesStoreTheWord : Prop :=
  ∀ (s : State) (addr : Offset) (v : Word), s.busy = false →
    (wordOffset addr = 0x030 → s.hostWrite addr v = { s with symLen := v }) ∧
    (wordOffset addr = 0x034 → s.hostWrite addr v = { s with bitLen := v })

/-- Writes with no effect, whether BUSY is 0 or 1 (40_host_access.md rule R120). -/
def Obligations.ReadOnlyAndReservedWritesDoNothing : Prop :=
  ∀ (s : State) (addr : Offset) (v : Word), NoEffectOffset (wordOffset addr) → s.hostWrite addr v = s

/-- Offset bits [1:0] are ignored by every access (20_memory.md rule R69). -/
def Obligations.LowOffsetBitsAreIgnored : Prop :=
  ∀ (s : State) (a b : Offset) (v : Word), wordOffset a = wordOffset b →
    s.hostRead a = s.hostRead b ∧ s.hostWrite a v = s.hostWrite b v

/-- A read changes no architectural state (20_memory.md rule R70, 40_host_access.md rule R110): only the bus_rdata port
(log entry 9) and the model's own count of drawn values (log entry 3). -/
def Obligations.ReadsChangeNoState : Prop :=
  ∀ (s : State) (addr : Offset),
    s.hostRead addr = { s with rdata := (s.hostRead addr).rdata, draws := (s.hostRead addr).draws }

/-- Reads while BUSY = 1 (10_state.md rule R55): a fresh free value for results and windows (the model's form of it: log
entry 3), the exact value elsewhere. -/
def Obligations.ReadsWhileBusy : Prop :=
  ∀ (s : State) (addr : Offset), s.busy = true →
    (ResultOrWindowOffset (wordOffset addr) →
      (s.hostRead addr).rdata = Config.busyRead s.draws ∧ (s.hostRead addr).draws = s.draws + 1) ∧
    (¬ ResultOrWindowOffset (wordOffset addr) → (s.hostRead addr).draws = s.draws) ∧
    (wordOffset addr = 0x000 → (s.hostRead addr).rdata = 0x48554646#32) ∧
    (wordOffset addr = 0x004 → (s.hostRead addr).rdata = 0x00010000#32) ∧
    (wordOffset addr = 0x008 → (s.hostRead addr).rdata.toNat = s.params.symDepth) ∧
    (wordOffset addr = 0x00C → (s.hostRead addr).rdata.toNat = s.params.bitDepth) ∧
    (wordOffset addr = 0x010 → (s.hostRead addr).rdata = 0#32) ∧
    (wordOffset addr = 0x014 → (s.hostRead addr).rdata = s.statusWord ∧ s.statusWord.getLsbD 0 = true) ∧
    (wordOffset addr = 0x020 → (s.hostRead addr).rdata.toNat = s.irqEn.toNat) ∧
    (ReservedOffset (wordOffset addr) → (s.hostRead addr).rdata = 0#32)

/-- Reads while BUSY = 0 of every register, of the FREQ window and of the reserved offsets (10_state.md rule R43,
20_memory.md rules R62 and R67, 40_host_access.md rule R110), with the layout of STATUS (10_state.md rule R28). -/
def Obligations.ReadsWhileIdle : Prop :=
  ∀ (s : State) (addr : Offset), s.busy = false →
    (wordOffset addr = 0x000 → (s.hostRead addr).rdata = 0x48554646#32) ∧
    (wordOffset addr = 0x004 → (s.hostRead addr).rdata = 0x00010000#32) ∧
    (wordOffset addr = 0x008 → (s.hostRead addr).rdata.toNat = s.params.symDepth) ∧
    (wordOffset addr = 0x00C → (s.hostRead addr).rdata.toNat = s.params.bitDepth) ∧
    (wordOffset addr = 0x010 → (s.hostRead addr).rdata = 0#32) ∧
    (wordOffset addr = 0x014 → (s.hostRead addr).rdata.toNat =
      2 * s.done.toNat + 4 * s.error.toNat + 8 * s.reject.toNat + 16 * s.treeValid.toNat + 32 * s.codesValid.toNat) ∧
    (wordOffset addr = 0x018 → (s.hostRead addr).rdata.toNat = s.errCode.toNat) ∧
    (wordOffset addr = 0x01C → (s.hostRead addr).rdata = s.errIndex) ∧
    (wordOffset addr = 0x020 → (s.hostRead addr).rdata.toNat = s.irqEn.toNat) ∧
    (wordOffset addr = 0x024 → (s.hostRead addr).rdata.toNat = s.nsym.toNat) ∧
    (wordOffset addr = 0x028 → (s.hostRead addr).rdata.toNat = s.root.toNat) ∧
    (wordOffset addr = 0x02C → (s.hostRead addr).rdata.toNat = s.nnodes.toNat) ∧
    (wordOffset addr = 0x030 → (s.hostRead addr).rdata = s.symLen) ∧
    (wordOffset addr = 0x034 → (s.hostRead addr).rdata = s.bitLen) ∧
    (∀ x < 256, wordOffset addr = 0x0400 + 4 * x → (s.hostRead addr).rdata = s.freqAt x) ∧
    (ReservedOffset (wordOffset addr) → (s.hostRead addr).rdata = 0#32)

/-- The NODE window (20_memory.md rule R63): the four words of an entry and entry 511, read while BUSY = 0 (a read while
BUSY = 1 is a free value by 10_state.md rule R55 and 40_host_access.md rule R110), and its writes. -/
def Obligations.NodeWindowShowsTheArena : Prop :=
  ∀ (s : State) (addr : Offset) (i w : Nat), i ≤ 511 → w < 4 → wordOffset addr = 0x2000 + 16 * i + 4 * w →
    (s.busy = false →
      (i = 511 → (s.hostRead addr).rdata = 0#32) ∧
      (i ≤ 510 → (s.hostRead addr).rdata.toNat =
        (if w = 0 then (s.nodeAt i).freq.toNat % 2 ^ 32
         else if w = 1 then (s.nodeAt i).freq.toNat / 2 ^ 32
         else if w = 2 then (s.nodeAt i).leaf.toNat * 2 ^ 31 + (s.nodeAt i).sym.toNat
         else (s.nodeAt i).child0.toNat + (s.nodeAt i).child1.toNat * 2 ^ 16))) ∧
    (∀ v, s.hostWrite addr v = s)

/-- The CODE window (20_memory.md rule R64): the length, the code bits from the first, the reserved words, and its
writes. -/
def Obligations.CodeWindowShowsTheCodes : Prop :=
  ∀ (s : State) (addr : Offset) (x w : Nat), x < 256 → w < 16 → wordOffset addr = 0x4000 + 64 * x + 4 * w →
    (s.busy = false →
      (w = 0 → (s.hostRead addr).rdata.toNat = (s.codeAt x).len.toNat) ∧
      (1 ≤ w → w ≤ 8 → ∀ b < 32, (s.hostRead addr).rdata.getLsbD b =
        (decide (32 * (w - 1) + b ≤ 254) && (s.codeAt x).bits.getLsbD (32 * (w - 1) + b))) ∧
      (9 ≤ w → (s.hostRead addr).rdata = 0#32)) ∧
    (∀ v, s.hostWrite addr v = s)

/-- Reads of the SYM and BIT windows (20_memory.md rules R65 and R66): little-endian lanes, least-significant bit first,
0 beyond the buffer. -/
def Obligations.SymAndBitWindowReads : Prop :=
  ∀ (s : State) (addr : Offset) (w : Nat), s.busy = false → w < 4096 →
    (wordOffset addr = 0x8000 + 4 * w →
      (w < s.params.symDepth / 4 → ∀ k < 4, (s.hostRead addr).rdata.extractLsb' (8 * k) 8 = s.symAt (4 * w + k)) ∧
      (s.params.symDepth / 4 ≤ w → (s.hostRead addr).rdata = 0#32)) ∧
    (wordOffset addr = 0xC000 + 4 * w →
      (w < s.params.bitDepth / 32 → ∀ b < 32, (s.hostRead addr).rdata.getLsbD b = s.bitAt (32 * w + b)) ∧
      (s.params.bitDepth / 32 ≤ w → (s.hostRead addr).rdata = 0#32))

/-- A read right after an accepted write returns the written value where the location stores it
(70_reset_and_hazards.md rule R269): FREQ, SYM and BIT inside the buffers, SYM_LEN, BIT_LEN, and IRQ_EN's three
bits. -/
def Obligations.ReadAfterWriteReturnsTheWord : Prop :=
  ∀ (s : State) (addr : Offset) (v : Word), s.busy = false →
    ((0x0400 ≤ wordOffset addr ∧ wordOffset addr ≤ 0x07FC) ∨
      (0x8000 ≤ wordOffset addr ∧ wordOffset addr < 0x8000 + s.params.symDepth) ∨
      (0xC000 ≤ wordOffset addr ∧ wordOffset addr < 0xC000 + s.params.bitDepth / 8) ∨
      wordOffset addr = 0x030 ∨ wordOffset addr = 0x034 →
        ((s.hostWrite addr v).hostRead addr).rdata = v) ∧
    (wordOffset addr = 0x020 → ((s.hostWrite addr v).hostRead addr).rdata.toNat = v.toNat % 8)

/-- The interrupt output (60_exceptions.md rule R236). -/
def Obligations.IrqIsTheEnabledSources : Prop :=
  (∀ s : State, s.irq = true ↔
    (s.done = true ∧ s.irqEn.getLsbD 0 = true) ∨ (s.error = true ∧ s.irqEn.getLsbD 1 = true) ∨
      (s.reject = true ∧ s.irqEn.getLsbD 2 = true)) ∧
  State.reset.irq = false

/-! ### NOP and CLEAR_FREQ -/

/-- NOP (41_command_control.md rule R140). -/
def Obligations.NopOnlyCompletes : Prop :=
  ∀ s : State, ∃ t, exec .nop s = .next t ∧ CompletedWith t 0 0 ∧ SameFreq s t ∧ SameTree s t ∧ SameCodes s t ∧
    SameSymbols s t ∧ SameBits s t ∧ SameRest s t

/-- CLEAR_FREQ (41_command_control.md rule R141), with the BUILD_TREE that follows it. -/
def Obligations.ClearFreqEmptiesTheTable : Prop :=
  ∀ s : State, ∃ t, exec .clearFreq s = .next t ∧ CompletedWith t 0 0 ∧ (∀ k < 256, t.freqAt k = 0#32) ∧
    t.treeValid = false ∧ t.codesValid = false ∧ (∀ k, t.nodeAt k = s.nodeAt k) ∧ (∀ k, t.codeAt k = s.codeAt k) ∧
    t.nsym = s.nsym ∧ t.root = s.root ∧ t.nnodes = s.nnodes ∧ SameSymbols s t ∧ SameBits s t ∧ SameRest s t ∧
    ∃ u, exec .buildTree t = .next u ∧ CompletedWith u 1 0

/-! ### BUILD_TREE -/

/-- The empty alphabet (42_tree_builder.md rule R156). -/
def Obligations.BuildTreeFailsOnEmptyAlphabet : Prop :=
  ∀ s : State, (∀ k < 256, s.freqAt k = 0#32) →
    ∃ t, exec .buildTree s = .next t ∧ CompletedWith t 1 0 ∧ (∀ k, t.nodeAt k = s.nodeAt k) ∧ t.nsym = 0#9 ∧
      t.root = 0#9 ∧ t.nnodes = 0#10 ∧ t.treeValid = false ∧ t.codesValid = false ∧ SameFreq s t ∧
      (∀ k, t.codeAt k = s.codeAt k) ∧ SameSymbols s t ∧ SameBits s t ∧ SameRest s t

/-- A build with a present symbol succeeds and stores the tree: the leaves in ascending symbol order (42_tree_builder.md
rule R151), then one merge of the two least keys at a time (rules R152 and R153) up to the root (rule R154). NODE
entries at 2n - 1 and above are not written (rule R150). -/
def Obligations.BuildTreeStoresTheGreedyTree : Prop :=
  ∀ s : State, (∃ k < 256, s.freqAt k ≠ 0#32) →
    ∃ t, exec .buildTree s = .next t ∧ CompletedWith t 0 0 ∧ t.treeValid = true ∧ t.codesValid = false ∧
      TreeMatches t ∧ (∀ k, 2 * leafCount s - 1 ≤ k → t.nodeAt k = s.nodeAt k) ∧ SameFreq s t ∧
      (∀ k, t.codeAt k = s.codeAt k) ∧ SameSymbols s t ∧ SameBits s t ∧ SameRest s t

/-- The structure of the result of a successful build (42_tree_builder.md rule R160, 10_state.md rule R53). -/
def Obligations.BuiltTreeIsStrictBinary : Prop :=
  ∀ s t : State, exec .buildTree s = .next t → t.errCode = 0#8 →
    TreeMatches t ∧
    (∀ k < t.nnodes.toNat, (t.nodeAt k).leaf = false →
      (t.nodeAt k).child0.toNat < k ∧ (t.nodeAt k).child1.toNat < k ∧ (t.nodeAt k).child0 ≠ (t.nodeAt k).child1) ∧
    (∀ j < t.root.toNat, ∃ p < t.nnodes.toNat, (t.nodeAt p).leaf = false ∧ IsChild t.nodeAt p j ∧
      ∀ q < t.nnodes.toNat, (t.nodeAt q).leaf = false → IsChild t.nodeAt q j → q = p) ∧
    (∀ p < t.nnodes.toNat, (t.nodeAt p).leaf = false → ¬ IsChild t.nodeAt p t.root.toNat) ∧
    (∀ x < 256, s.freqAt x ≠ 0#32 ↔
      ∃ i < t.nnodes.toNat, (t.nodeAt i).leaf = true ∧ (t.nodeAt i).sym.toNat = x ∧
        ∀ j < t.nnodes.toNat, (t.nodeAt j).leaf = true → (t.nodeAt j).sym.toNat = x → j = i)

/-- No frequency sum wraps (42_tree_builder.md rule R157): every sum is exact and the root holds the total count. -/
def Obligations.BuiltFrequenciesAreExact : Prop :=
  ∀ s t : State, exec .buildTree s = .next t → t.errCode = 0#8 →
    (∀ k < t.nnodes.toNat, (t.nodeAt k).leaf = false → (t.nodeAt k).freq.toNat =
      (t.nodeAt (t.nodeAt k).child0.toNat).freq.toNat + (t.nodeAt (t.nodeAt k).child1.toNat).freq.toNat) ∧
    (t.nodeAt t.root.toNat).freq.toNat = ((List.range 256).map (fun x => (s.freqAt x).toNat)).sum

/-- The result of a build is a function of FREQ alone (42_tree_builder.md rule R158). -/
def Obligations.BuildDependsOnFreqAlone : Prop :=
  ∀ s s' : State, (∀ k < 256, s.freqAt k = s'.freqAt k) →
    ∃ t t', exec .buildTree s = .next t ∧ exec .buildTree s' = .next t' ∧ t.errCode = t'.errCode ∧
      t.nsym = t'.nsym ∧ t.root = t'.root ∧ t.nnodes = t'.nnodes ∧
      ∀ k < t.nnodes.toNat, t.nodeAt k = t'.nodeAt k

/-- The tie-break's consequences (42_tree_builder.md rule R152): of two nodes that are both removed, the one with the
lower index and a frequency that is not greater is removed first. So among equals leaves go before internal nodes,
leaves in ascending symbol order, internal nodes oldest first. -/
def Obligations.TiesGoToTheLowerIndex : Prop :=
  ∀ s t : State, exec .buildTree s = .next t → t.errCode = 0#8 →
    ∀ i j p q, i < j → p < t.nnodes.toNat → q < t.nnodes.toNat →
      (t.nodeAt p).leaf = false → (t.nodeAt q).leaf = false → IsChild t.nodeAt p i → IsChild t.nodeAt q j →
      (t.nodeAt i).freq.toNat ≤ (t.nodeAt j).freq.toNat →
      p < q ∨ (p = q ∧ (t.nodeAt p).child0.toNat = i)

/-- The code lengths are optimal (42_tree_builder.md rule R159): no assignment of non-empty, prefix-free codes to the
present symbols has a smaller weighted length than the table GEN_CODES wrote for the tree. -/
def Obligations.CodeLengthsAreOptimal : Prop :=
  ∀ s : State, TreeMatches s → CodesMatch s → ∀ c : Nat → List Bool,
    (∀ x ∈ presentSymbols s, c x ≠ []) →
    (∀ x ∈ presentSymbols s, ∀ y ∈ presentSymbols s, x ≠ y → ¬ c x <+: c y) →
    ((presentSymbols s).map (fun x => (s.freqAt x).toNat * codeLen s x)).sum ≤
      ((presentSymbols s).map (fun x => (s.freqAt x).toNat * (c x).length)).sum

/-! ### GEN_CODES -/

/-- GEN_CODES without a tree (43_code_table_generator.md rule R177). -/
def Obligations.GenCodesNeedsATree : Prop :=
  ∀ s : State, s.treeValid = false →
    ∃ t, exec .genCodes s = .next t ∧ CompletedWith t 4 0 ∧ SameFreq s t ∧ SameTree s t ∧ SameCodes s t ∧
      SameSymbols s t ∧ SameBits s t ∧ SameRest s t ∧ (Inv s → t.codesValid = false)

/-- GEN_CODES on a tree completes and writes the paths (43_code_table_generator.md rule R171), the code "0" for a single
leaf (rule R172) and no code for absent symbols (rule R173). -/
def Obligations.GenCodesWritesThePaths : Prop :=
  ∀ s : State, s.treeValid = true → TreeMatches s →
    ∃ t, exec .genCodes s = .next t ∧ CompletedWith t 0 0 ∧ t.codesValid = true ∧ CodesMatch t ∧ SameFreq s t ∧
      SameTree s t ∧ SameSymbols s t ∧ SameBits s t ∧ SameRest s t

/-- The codes are non-empty and prefix-free (43_code_table_generator.md rule R175). -/
def Obligations.CodesArePrefixFree : Prop :=
  ∀ s t : State, Inv s → exec .genCodes s = .next t → t.errCode = 0#8 →
    ∀ x ∈ presentSymbols t, 1 ≤ codeLen t x ∧
      ∀ y ∈ presentSymbols t, x ≠ y → ¬ codeOf t x <+: codeOf t y

/-- A code is never longer than n - 1 bits, or 1 bit for a single leaf, so at most 255 (43_code_table_generator.md rule
R174). -/
def Obligations.CodeLengthsAreBounded : Prop :=
  ∀ s t : State, Inv s → exec .genCodes s = .next t → t.errCode = 0#8 →
    ∀ x ∈ presentSymbols t, 1 ≤ codeLen t x ∧ codeLen t x ≤ max 1 (leafCount t - 1) ∧ codeLen t x ≤ 255

/-- GEN_CODES's frame in every state (43_code_table_generator.md rule R170): it writes CODE, CODES_VALID and the
completion registers only, and CODE only with success. -/
def Obligations.GenCodesFrame : Prop :=
  ∀ s t : State, exec .genCodes s = .next t →
    SameFreq s t ∧ SameTree s t ∧ SameSymbols s t ∧ SameBits s t ∧ SameRest s t ∧
    (t.errCode ≠ 0#8 → SameCodes s t) ∧ (t.errCode = 0#8 → t.codesValid = true)

/-! ### ENCODE -/

/-- ENCODE's preconditions (44_encoder.md rules R194 and R195): NO_CODES before any other check, then BAD_LENGTH, with
no BIT entry written. -/
def Obligations.EncodeChecksItsPreconditions : Prop :=
  ∀ s : State, (s.codesValid = false ∨ s.params.symDepth < s.symLen.toNat) →
    ∃ t, exec .encode s = .next t ∧ CompletedWith t (if s.codesValid then 8 else 5) 0 ∧ t.bitLen = 0#32 ∧
      (∀ k, t.bitAt k = s.bitAt k) ∧ SameFreq s t ∧ SameTree s t ∧ SameCodes s t ∧ SameSymbols s t ∧ SameRest s t

/-- ENCODE succeeds when every symbol has a code and the output fits, and BIT is the concatenation of the codes
(44_encoder.md rule R192). -/
def Obligations.EncodeConcatenatesCodes : Prop :=
  ∀ s : State, s.codesValid = true → s.symLen.toNat ≤ s.params.symDepth →
    (∀ j < s.symLen.toNat, codeLen s (s.symAt j).toNat ≠ 0) → codeStart s s.symLen.toNat ≤ s.params.bitDepth →
    ∃ t, exec .encode s = .next t ∧ CompletedWith t 0 0 ∧ t.bitLen.toNat = codeStart s s.symLen.toNat ∧
      (∀ j < s.symLen.toNat, ∀ i < codeLen s (s.symAt j).toNat,
        t.bitAt (codeStart s j + i) = (s.codeAt (s.symAt j).toNat).bits.getLsbD i) ∧
      (∀ k, codeStart s s.symLen.toNat ≤ k → t.bitAt k = s.bitAt k) ∧
      SameFreq s t ∧ SameTree s t ∧ SameCodes s t ∧ SameSymbols s t ∧ SameRest s t

/-- ENCODE stops at the first symbol with no code (44_encoder.md rules R191 and R196). -/
def Obligations.EncodeStopsAtAbsentSymbol : Prop :=
  ∀ (s : State) (i : Nat), s.codesValid = true → s.symLen.toNat ≤ s.params.symDepth → i < s.symLen.toNat →
    (∀ j < i, codeLen s (s.symAt j).toNat ≠ 0) → codeStart s i ≤ s.params.bitDepth →
    codeLen s (s.symAt i).toNat = 0 →
    ∃ t, exec .encode s = .next t ∧ CompletedWith t 2 i ∧ t.bitLen = 0#32 ∧
      (∀ j < i, ∀ b < codeLen s (s.symAt j).toNat,
        t.bitAt (codeStart s j + b) = (s.codeAt (s.symAt j).toNat).bits.getLsbD b) ∧
      (∀ k, codeStart s i ≤ k → t.bitAt k = s.bitAt k) ∧
      SameFreq s t ∧ SameTree s t ∧ SameCodes s t ∧ SameSymbols s t ∧ SameRest s t

/-- ENCODE stops at the first symbol whose code does not fit (44_encoder.md rules R193 and R196). -/
def Obligations.EncodeStopsAtFullBuffer : Prop :=
  ∀ (s : State) (i : Nat), s.codesValid = true → s.symLen.toNat ≤ s.params.symDepth → i < s.symLen.toNat →
    (∀ j ≤ i, codeLen s (s.symAt j).toNat ≠ 0) → codeStart s i ≤ s.params.bitDepth →
    s.params.bitDepth < codeStart s (i + 1) →
    ∃ t, exec .encode s = .next t ∧ CompletedWith t 6 i ∧ t.bitLen = 0#32 ∧
      (∀ j < i, ∀ b < codeLen s (s.symAt j).toNat,
        t.bitAt (codeStart s j + b) = (s.codeAt (s.symAt j).toNat).bits.getLsbD b) ∧
      (∀ k, codeStart s i ≤ k → t.bitAt k = s.bitAt k) ∧
      SameFreq s t ∧ SameTree s t ∧ SameCodes s t ∧ SameSymbols s t ∧ SameRest s t

/-- A single-symbol stream is all zeros (44_encoder.md rule R199). -/
def Obligations.SingleSymbolEncodesToZeros : Prop :=
  ∀ (s : State) (x : Nat), s.codesValid = true → CodesMatch s → presentSymbols s = [x] →
    s.symLen.toNat ≤ s.params.symDepth → s.symLen.toNat ≤ s.params.bitDepth →
    (∀ j < s.symLen.toNat, (s.symAt j).toNat = x) →
    ∃ t, exec .encode s = .next t ∧ CompletedWith t 0 0 ∧ t.bitLen = s.symLen ∧
      ∀ j < s.symLen.toNat, t.bitAt j = false

/-- ENCODE's output is a function of SYM, SYM_LEN, CODE, CODES_VALID and the buffers' depths (44_encoder.md rule R198;
the depth of SYM enters through BAD_LENGTH, rule R194). -/
def Obligations.EncodeIsPure : Prop :=
  ∀ s s' : State, s.codesValid = s'.codesValid → s.symLen = s'.symLen → s.params = s'.params →
    (∀ j < s.params.symDepth, s.symAt j = s'.symAt j) → (∀ x < 256, s.codeAt x = s'.codeAt x) →
    ∃ t t', exec .encode s = .next t ∧ exec .encode s' = .next t' ∧ t.errCode = t'.errCode ∧
      t.errIndex = t'.errIndex ∧ t.bitLen = t'.bitLen ∧ ∀ k < t.bitLen.toNat, t.bitAt k = t'.bitAt k

/-- ENCODE's frame in every state (20_memory.md rule R79, 44_encoder.md rules R196 and R198). -/
def Obligations.EncodeFrame : Prop :=
  ∀ s t : State, exec .encode s = .next t →
    SameFreq s t ∧ SameTree s t ∧ SameCodes s t ∧ SameSymbols s t ∧ SameRest s t ∧
    (t.errCode ≠ 0#8 → t.bitLen = 0#32) ∧
    (t.errCode = 0#8 → ∀ k, t.bitLen.toNat ≤ k → t.bitAt k = s.bitAt k) ∧
    (∀ k, s.params.bitDepth ≤ k → t.bitAt k = s.bitAt k)

/-! ### DECODE -/

/-- DECODE's preconditions (45_decoder.md rule R218): NO_TREE, then BAD_LENGTH, with no SYM entry written. CODES_VALID
is not needed. -/
def Obligations.DecodeChecksItsPreconditions : Prop :=
  ∀ s : State, (s.treeValid = false ∨ s.params.bitDepth < s.bitLen.toNat) →
    ∃ t, exec .decode s = .next t ∧ CompletedWith t (if s.treeValid then 8 else 4) 0 ∧ t.symLen = 0#32 ∧
      (∀ k, t.symAt k = s.symAt k) ∧ SameFreq s t ∧ SameTree s t ∧ SameCodes s t ∧ SameBits s t ∧ SameRest s t

/-- DECODE of a stream of whole codewords that fits succeeds with their symbols (45_decoder.md rules R211 and R212). -/
def Obligations.DecodeReadsWholeCodewords : Prop :=
  ∀ (s : State) (ws : List (List Bool × Nat)), s.treeValid = true → TreeMatches s →
    s.bitLen.toNat ≤ s.params.bitDepth → (∀ c ∈ ws, IsCodeword s c.1 c.2) → ws.length ≤ s.params.symDepth →
    (List.range s.bitLen.toNat).map s.bitAt = (ws.map Prod.fst).flatten →
    ∃ t, exec .decode s = .next t ∧ CompletedWith t 0 0 ∧ t.symLen.toNat = ws.length ∧
      (∀ j (h : j < ws.length), t.symAt j = (s.nodeAt ws[j].2).sym) ∧
      (∀ k, ws.length ≤ k → t.symAt k = s.symAt k) ∧
      SameFreq s t ∧ SameTree s t ∧ SameCodes s t ∧ SameBits s t ∧ SameRest s t

/-- DECODE of a stream that ends inside a codeword fails at that codeword's first bit (45_decoder.md rules R214 and
R219), which a single-leaf tree never does. -/
def Obligations.DecodeReportsTruncation : Prop :=
  (∀ (s : State) (ws : List (List Bool × Nat)) (tail : List Bool) (k : Nat), s.treeValid = true → TreeMatches s →
    s.bitLen.toNat ≤ s.params.bitDepth → (∀ c ∈ ws, IsCodeword s c.1 c.2) → ws.length ≤ s.params.symDepth →
    tail ≠ [] → descend s.nodeAt s.root.toNat tail = some k → (s.nodeAt k).leaf = false →
    (List.range s.bitLen.toNat).map s.bitAt = (ws.map Prod.fst).flatten ++ tail →
    ∃ t, exec .decode s = .next t ∧ CompletedWith t 3 (ws.map Prod.fst).flatten.length ∧ t.symLen = 0#32 ∧
      (∀ j (h : j < ws.length), t.symAt j = (s.nodeAt ws[j].2).sym) ∧
      (∀ j, ws.length ≤ j → t.symAt j = s.symAt j) ∧
      SameFreq s t ∧ SameTree s t ∧ SameCodes s t ∧ SameBits s t ∧ SameRest s t) ∧
  (∀ s t : State, TreeMatches s → leafCount s = 1 → exec .decode s = .next t → t.errCode ≠ 3#8)

/-- DECODE fails at the bit that completes a symbol that does not fit (45_decoder.md rules R217 and R219). -/
def Obligations.DecodeReportsOverflow : Prop :=
  ∀ (s : State) (ws : List (List Bool × Nat)) (p rest : List Bool) (i : Nat), s.treeValid = true → TreeMatches s →
    s.bitLen.toNat ≤ s.params.bitDepth → (∀ c ∈ ws, IsCodeword s c.1 c.2) → ws.length = s.params.symDepth →
    IsCodeword s p i →
    (List.range s.bitLen.toNat).map s.bitAt = (ws.map Prod.fst).flatten ++ p ++ rest →
    ∃ t, exec .decode s = .next t ∧ CompletedWith t 6 ((ws.map Prod.fst).flatten.length + p.length - 1) ∧
      t.symLen = 0#32 ∧ (∀ j (h : j < ws.length), t.symAt j = (s.nodeAt ws[j].2).sym) ∧
      (∀ k, ws.length ≤ k → t.symAt k = s.symAt k) ∧
      SameFreq s t ∧ SameTree s t ∧ SameCodes s t ∧ SameBits s t ∧ SameRest s t

/-- In a single-leaf tree every bit emits the sole symbol, whatever its value (45_decoder.md rule R213). -/
def Obligations.SingleLeafDecodesEveryBit : Prop :=
  ∀ (s : State) (x : Nat), s.treeValid = true → TreeMatches s → presentSymbols s = [x] →
    s.bitLen.toNat ≤ s.params.bitDepth →
    ∃ t, exec .decode s = .next t ∧
      (s.bitLen.toNat ≤ s.params.symDepth → CompletedWith t 0 0 ∧ t.symLen = s.bitLen ∧
        ∀ j < s.bitLen.toNat, (t.symAt j).toNat = x) ∧
      (s.params.symDepth < s.bitLen.toNat → CompletedWith t 6 s.params.symDepth ∧ t.symLen = 0#32 ∧
        ∀ j < s.params.symDepth, (t.symAt j).toNat = x)

/-- No bit pattern is undecodable (45_decoder.md rule R220): on a tree, with BIT_LEN in range, DECODE ends in success,
TRUNCATED_STREAM or OUTPUT_OVERFLOW. -/
def Obligations.DecodeIsNeverUndefined : Prop :=
  ∀ s : State, s.treeValid = true → TreeMatches s → s.bitLen.toNat ≤ s.params.bitDepth →
    ∃ t, exec .decode s = .next t ∧ (t.errCode = 0#8 ∨ t.errCode = 3#8 ∨ t.errCode = 6#8)

/-- DECODE's frame in every state (20_memory.md rule R79, 45_decoder.md rules R210 and R219). -/
def Obligations.DecodeFrame : Prop :=
  ∀ s t : State, exec .decode s = .next t →
    SameFreq s t ∧ SameTree s t ∧ SameCodes s t ∧ SameBits s t ∧ SameRest s t ∧
    (t.errCode ≠ 0#8 → t.symLen = 0#32) ∧
    (t.errCode = 0#8 → ∀ k, t.symLen.toNat ≤ k → t.symAt k = s.symAt k) ∧
    (∀ k, s.params.symDepth ≤ k → t.symAt k = s.symAt k)

/-! ### Encoder and decoder together -/

/-- The round trip (45_decoder.md rule R221): what ENCODE wrote, DECODE reads back, in any later state with the same
tree, BIT and BIT_LEN. -/
def Obligations.DecodeInvertsEncodeOfSymbols : Prop :=
  ∀ s t t' : State, Inv s → exec .encode s = .next t → t.errCode = 0#8 →
    SameTree t t' → SameBits t t' → t'.params = t.params →
    ∃ u, exec .decode t' = .next u ∧ CompletedWith u 0 0 ∧ u.symLen = s.symLen ∧
      ∀ j < s.symLen.toNat, u.symAt j = s.symAt j

/-- A strict prefix of an encoding (45_decoder.md rule R222, 90_conflicts.md C4): a cut on a codeword boundary decodes
to the symbols before it, a cut inside a codeword fails with TRUNCATED_STREAM. -/
def Obligations.PrefixOfAnEncodingDecodes : Prop :=
  ∀ (s t t' : State) (j : Nat), Inv s → exec .encode s = .next t → t.errCode = 0#8 →
    SameTree t t' → (∀ k, t'.bitAt k = t.bitAt k) → t'.params = t.params →
    0 < t'.bitLen.toNat → j < s.symLen.toNat → codeStart s j ≤ t'.bitLen.toNat →
    t'.bitLen.toNat < codeStart s (j + 1) →
    ∃ u, exec .decode t' = .next u ∧
      (if t'.bitLen.toNat = codeStart s j then
        CompletedWith u 0 0 ∧ u.symLen.toNat = j ∧ ∀ i < j, u.symAt i = s.symAt i
       else CompletedWith u 3 (codeStart s j) ∧ u.symLen = 0#32)

/-! ### The whole machine -/

/-- Every step keeps the invariant: canonical memories, registers in range (10_state.md rules R36, R38 to R40 and R52,
60_exceptions.md rules R230 and R231), the tree-valid invariant (rule R53) and the codes-valid invariant (rule R54). -/
def Obligations.StepKeepsInvariant : Prop :=
  ∀ s t : State, Inv s → step s = .next t → Inv t

/-- From a state that meets the invariant no step stops, and an engine step with a command pending completes it
(41_command_control.md rule R133). -/
def Obligations.InvariantStatesNeverStop : Prop :=
  ∀ s : State, Inv s →
    ∃ t, step s = .next t ∧ (s.busy = true → engineTurn s = true → t.busy = false ∧ t.done = true)

/-- The tree and the code table change only by BUILD_TREE, GEN_CODES, CLEAR_FREQ, FREQ writes and reset (20_memory.md
rule R79). -/
def Obligations.OnlyTreeCommandsChangeTheTree : Prop :=
  ∀ s t : State, step s = .next t → s.inputs.head? ≠ some .reset →
    (∀ rest addr v, s.inputs = .write addr v :: rest → ¬ (0x0400 ≤ wordOffset addr ∧ wordOffset addr ≤ 0x07FC)) →
    commandRun s ≠ some .clearFreq → commandRun s ≠ some .buildTree →
    SameFreq s t ∧ SameTree s t ∧ (commandRun s ≠ some .genCodes → SameCodes s t)

/-- A failed command changes none of FREQ, NODE and CODE, no tree register and no valid flag but BUILD_TREE's own
failure actions, and none of the inputs it read (41_command_control.md rule R134). -/
def Obligations.FailedCommandsKeepTreeAndInputs : Prop :=
  ∀ (i : Instr) (s t : State), exec i s = .next t → t.errCode ≠ 0#8 →
    SameFreq s t ∧ (∀ k, t.nodeAt k = s.nodeAt k) ∧ (∀ k, t.codeAt k = s.codeAt k) ∧
    (i ≠ .buildTree → SameTree s t ∧ SameCodes s t) ∧ (i ≠ .encode → SameBits s t) ∧ (i ≠ .decode → SameSymbols s t)
end

