-- ==== Sys2Proof/Laws/Memory.lean ====
section
/-! SUPPORT. What the one read and the one write of a memory do: a read after a write, and the canonical form kept. -/

namespace Sys2Proof.Machine

variable {α : Type}

@[simp] theorem memory_get?_nil (k : Nat) : Memory.get? ([] : Memory α) k = none := rfl

theorem memory_get?_cons (j : Nat) (v : α) (m : Memory α) (k : Nat) :
    Memory.get? ((j, v) :: m) k = if j = k then some v else Memory.get? m k := by
  rw [Memory.get?, Bool.cond_eq_ite]; simp only [Nat.beq_eq]

theorem memory_get?_append (m n : Memory α) (k : Nat) :
    Memory.get? (m ++ n) k = (Memory.get? m k).or (Memory.get? n k) := by
  induction m with
  | nil => rfl
  | cons c m ih =>
    obtain ⟨j, v⟩ := c
    by_cases h : j = k <;> simp [memory_get?_cons, h, ih]

/-- Keeping the entries whose index meets `p` reads as before where `p` holds, and nothing elsewhere. -/
theorem memory_get?_filter (p : Nat → Bool) (m : Memory α) (k : Nat) :
    Memory.get? (m.filter (fun c => p c.1)) k = if p k then Memory.get? m k else none := by
  induction m with
  | nil => simp
  | cons c m ih =>
    obtain ⟨j, v⟩ := c
    by_cases hj : p j <;> by_cases hk : j = k
    · subst hk; simp [hj, memory_get?_cons]
    · simp [hj, memory_get?_cons, hk, ih]
    · subst hk; simpa [List.filter_cons, hj] using ih
    · simpa [List.filter_cons, hj, memory_get?_cons, hk] using ih

theorem memory_get?_block (start : Nat) (vals : List α) (k : Nat) :
    Memory.get? (Memory.block start vals) k = if start ≤ k then vals[k - start]? else none := by
  induction vals generalizing start with
  | nil => simp [Memory.block]
  | cons v vals ih =>
    by_cases h : start = k
    · subst h; simp [Memory.block, memory_get?_cons]
    · rw [Memory.block, memory_get?_cons, if_neg h, ih]
      by_cases hk : start ≤ k
      · obtain ⟨d, rfl⟩ := Nat.exists_eq_add_of_le hk
        obtain ⟨d, rfl⟩ : ∃ e, d = e + 1 := ⟨d - 1, by omega⟩
        rw [if_pos (by omega), if_pos hk, show start + (d + 1) - (start + 1) = d by omega,
          show start + (d + 1) - start = d + 1 by omega, List.getElem?_cons_succ]
      · rw [if_neg (by omega), if_neg hk]

/-- The one write, read back: the written values in their range, every other entry as before. -/
theorem memory_get?_writeRange (m : Memory α) (start : Nat) (vals : List α) (k : Nat) :
    Memory.get? (Memory.writeRange m start vals) k =
      if start ≤ k ∧ k < start + vals.length then vals[k - start]? else Memory.get? m k := by
  rw [Memory.writeRange, memory_get?_append, memory_get?_append,
    memory_get?_filter (fun j => decide (j < start)),
    memory_get?_filter (fun j => decide (start + vals.length ≤ j)), memory_get?_block]
  by_cases h₁ : start ≤ k
  · by_cases h₂ : k < start + vals.length
    · have : k - start < vals.length := by omega
      simp [h₁, h₂, Nat.not_lt.mpr h₁, List.getElem?_eq_getElem this]
    · have : vals.length ≤ k - start := by omega
      simp [h₁, h₂, Nat.not_lt.mpr h₁, Nat.not_lt.mp h₂, List.getElem?_eq_none this]
  · simp [h₁, Nat.lt_of_not_le h₁, show ¬ start + vals.length ≤ k by omega]

/-- The written values, by position. -/
theorem memory_get?_writeRange_inside (m : Memory α) {start : Nat} {vals : List α} {i : Nat} (h : i < vals.length) :
    Memory.get? (Memory.writeRange m start vals) (start + i) = some vals[i] := by
  rw [memory_get?_writeRange, if_pos ⟨by omega, by omega⟩, Nat.add_sub_cancel_left, List.getElem?_eq_getElem h]

theorem memory_get?_writeRange_outside (m : Memory α) {start : Nat} {vals : List α} {k : Nat}
    (h : k < start ∨ start + vals.length ≤ k) :
    Memory.get? (Memory.writeRange m start vals) k = Memory.get? m k := by
  rw [memory_get?_writeRange, if_neg (by omega)]

theorem memory_wf_nil (bound : Nat) : Memory.wf bound ([] : Memory α) :=
  ⟨List.Pairwise.nil, fun _ h => absurd h List.not_mem_nil⟩

theorem memory_mem_block {start : Nat} {vals : List α} {c : Nat × α} (h : c ∈ Memory.block start vals) :
    start ≤ c.1 ∧ c.1 < start + vals.length := by
  induction vals generalizing start with
  | nil => simp [Memory.block] at h
  | cons v vals ih =>
    rw [Memory.block, List.mem_cons] at h
    obtain rfl | h := h
    · simp
    · have := ih h
      simp only [List.length_cons]; omega

theorem memory_block_sorted (start : Nat) (vals : List α) :
    ((Memory.block start vals).map Prod.fst).Pairwise (· < ·) := by
  induction vals generalizing start with
  | nil => simp [Memory.block]
  | cons v vals ih =>
    rw [Memory.block, List.map_cons, List.pairwise_cons]
    refine ⟨fun j hj => ?_, ih (start + 1)⟩
    obtain ⟨c, hc, rfl⟩ := List.mem_map.mp hj
    have := (memory_mem_block hc).1
    simp only; omega

/-- The one write keeps the canonical form, if it stays below the bound. -/
theorem memory_wf_writeRange {bound start : Nat} {m : Memory α} {vals : List α} (hm : Memory.wf bound m)
    (hb : start + vals.length ≤ bound) : Memory.wf bound (Memory.writeRange m start vals) := by
  obtain ⟨hs, hlt⟩ := hm
  have keep (p : Nat × α → Bool) : ((m.filter p).map Prod.fst).Pairwise (· < ·) :=
    hs.sublist (List.filter_sublist.map _)
  refine ⟨?_, fun c hc => ?_⟩
  · rw [Memory.writeRange, List.map_append, List.map_append, List.pairwise_append, List.pairwise_append]
    refine ⟨⟨keep _, memory_block_sorted _ _, fun a ha b hb => ?_⟩, keep _, fun a ha b hb => ?_⟩
    · obtain ⟨c, hc, rfl⟩ := List.mem_map.mp ha
      obtain ⟨d, hd, rfl⟩ := List.mem_map.mp hb
      have h₁ := (List.mem_filter.mp hc).2
      have h₂ := memory_mem_block hd
      simp only [decide_eq_true_eq] at h₁; omega
    · obtain ⟨d, hd, rfl⟩ := List.mem_map.mp hb
      have h₁ := (List.mem_filter.mp hd).2
      simp only [decide_eq_true_eq] at h₁
      rcases List.mem_append.mp ha with ha | ha <;> obtain ⟨c, hc, rfl⟩ := List.mem_map.mp ha
      · have h₂ := (List.mem_filter.mp hc).2
        simp only [decide_eq_true_eq] at h₂; omega
      · have h₂ := memory_mem_block hc
        omega
  · rw [Memory.writeRange, List.mem_append, List.mem_append] at hc
    rcases hc with (hc | hc) | hc
    · exact hlt c (List.mem_filter.mp hc).1
    · have := memory_mem_block hc; omega
    · exact hlt c (List.mem_filter.mp hc).1

/-- Writing nothing changes nothing. -/
@[simp] theorem memory_writeRange_nil (m : Memory α) : Memory.writeRange m 0 [] = m := by
  simp [Memory.writeRange, Memory.block]

end Sys2Proof.Machine
end

