-- ==== Sys2Proof/Laws/State.lean ====
section
/-! SUPPORT. One lemma per field per named update of the state, each true by definition, so that no proof unfolds a
record update; and what the memory accessors read after each of them. -/

namespace Sys2Proof.Machine

variable (s : State)

@[simp] theorem complete_eq : s.complete = s.completeWith .none 0 := rfl
@[simp] theorem raiseError_eq (code : ErrCode) (index : Nat) :
    s.raiseError code index = s.completeWith code index := rfl


/-! ### completeWith -/

@[simp] theorem completeWith_pending (code : ErrCode) (index : Nat) : (s.completeWith code index).pending = none := rfl
@[simp] theorem completeWith_done (code : ErrCode) (index : Nat) : (s.completeWith code index).done = true := rfl
@[simp] theorem completeWith_error (code : ErrCode) (index : Nat) :
    (s.completeWith code index).error = decide (errCodeNumber code ≠ 0#8) := rfl
@[simp] theorem completeWith_reject (code : ErrCode) (index : Nat) :
    (s.completeWith code index).reject = s.reject := rfl
@[simp] theorem completeWith_treeValid (code : ErrCode) (index : Nat) :
    (s.completeWith code index).treeValid = s.treeValid := rfl
@[simp] theorem completeWith_codesValid (code : ErrCode) (index : Nat) :
    (s.completeWith code index).codesValid = s.codesValid := rfl
@[simp] theorem completeWith_errCode (code : ErrCode) (index : Nat) :
    (s.completeWith code index).errCode = errCodeNumber code := rfl
@[simp] theorem completeWith_errIndex (code : ErrCode) (index : Nat) :
    (s.completeWith code index).errIndex = BitVec.ofNat 32 index := rfl
@[simp] theorem completeWith_irqEn (code : ErrCode) (index : Nat) : (s.completeWith code index).irqEn = s.irqEn := rfl
@[simp] theorem completeWith_nsym (code : ErrCode) (index : Nat) : (s.completeWith code index).nsym = s.nsym := rfl
@[simp] theorem completeWith_root (code : ErrCode) (index : Nat) : (s.completeWith code index).root = s.root := rfl
@[simp] theorem completeWith_nnodes (code : ErrCode) (index : Nat) :
    (s.completeWith code index).nnodes = s.nnodes := rfl
@[simp] theorem completeWith_symLen (code : ErrCode) (index : Nat) :
    (s.completeWith code index).symLen = s.symLen := rfl
@[simp] theorem completeWith_bitLen (code : ErrCode) (index : Nat) :
    (s.completeWith code index).bitLen = s.bitLen := rfl
@[simp] theorem completeWith_freq (code : ErrCode) (index : Nat) : (s.completeWith code index).freq = s.freq := rfl
@[simp] theorem completeWith_node (code : ErrCode) (index : Nat) : (s.completeWith code index).node = s.node := rfl
@[simp] theorem completeWith_code (code : ErrCode) (index : Nat) : (s.completeWith code index).code = s.code := rfl
@[simp] theorem completeWith_sym (code : ErrCode) (index : Nat) : (s.completeWith code index).sym = s.sym := rfl
@[simp] theorem completeWith_bit (code : ErrCode) (index : Nat) : (s.completeWith code index).bit = s.bit := rfl
@[simp] theorem completeWith_params (code : ErrCode) (index : Nat) :
    (s.completeWith code index).params = s.params := rfl
@[simp] theorem completeWith_rdata (code : ErrCode) (index : Nat) : (s.completeWith code index).rdata = s.rdata := rfl
@[simp] theorem completeWith_resets (code : ErrCode) (index : Nat) :
    (s.completeWith code index).resets = s.resets := rfl
@[simp] theorem completeWith_draws (code : ErrCode) (index : Nat) : (s.completeWith code index).draws = s.draws := rfl
@[simp] theorem completeWith_inputs (code : ErrCode) (index : Nat) :
    (s.completeWith code index).inputs = s.inputs := rfl
@[simp] theorem completeWith_freqAt (code : ErrCode) (index : Nat) (i : Nat) :
    (s.completeWith code index).freqAt i = s.freqAt i := rfl
@[simp] theorem completeWith_nodeAt (code : ErrCode) (index : Nat) (i : Nat) :
    (s.completeWith code index).nodeAt i = s.nodeAt i := rfl
@[simp] theorem completeWith_codeAt (code : ErrCode) (index : Nat) (i : Nat) :
    (s.completeWith code index).codeAt i = s.codeAt i := rfl
@[simp] theorem completeWith_symAt (code : ErrCode) (index : Nat) (i : Nat) :
    (s.completeWith code index).symAt i = s.symAt i := rfl
@[simp] theorem completeWith_bitAt (code : ErrCode) (index : Nat) (i : Nat) :
    (s.completeWith code index).bitAt i = s.bitAt i := rfl
@[simp] theorem completeWith_busy (code : ErrCode) (index : Nat) : (s.completeWith code index).busy = false := rfl

/-! ### invalidate -/

@[simp] theorem invalidate_pending : s.invalidate.pending = s.pending := rfl
@[simp] theorem invalidate_done : s.invalidate.done = s.done := rfl
@[simp] theorem invalidate_error : s.invalidate.error = s.error := rfl
@[simp] theorem invalidate_reject : s.invalidate.reject = s.reject := rfl
@[simp] theorem invalidate_treeValid : s.invalidate.treeValid = false := rfl
@[simp] theorem invalidate_codesValid : s.invalidate.codesValid = false := rfl
@[simp] theorem invalidate_errCode : s.invalidate.errCode = s.errCode := rfl
@[simp] theorem invalidate_errIndex : s.invalidate.errIndex = s.errIndex := rfl
@[simp] theorem invalidate_irqEn : s.invalidate.irqEn = s.irqEn := rfl
@[simp] theorem invalidate_nsym : s.invalidate.nsym = s.nsym := rfl
@[simp] theorem invalidate_root : s.invalidate.root = s.root := rfl
@[simp] theorem invalidate_nnodes : s.invalidate.nnodes = s.nnodes := rfl
@[simp] theorem invalidate_symLen : s.invalidate.symLen = s.symLen := rfl
@[simp] theorem invalidate_bitLen : s.invalidate.bitLen = s.bitLen := rfl
@[simp] theorem invalidate_freq : s.invalidate.freq = s.freq := rfl
@[simp] theorem invalidate_node : s.invalidate.node = s.node := rfl
@[simp] theorem invalidate_code : s.invalidate.code = s.code := rfl
@[simp] theorem invalidate_sym : s.invalidate.sym = s.sym := rfl
@[simp] theorem invalidate_bit : s.invalidate.bit = s.bit := rfl
@[simp] theorem invalidate_params : s.invalidate.params = s.params := rfl
@[simp] theorem invalidate_rdata : s.invalidate.rdata = s.rdata := rfl
@[simp] theorem invalidate_resets : s.invalidate.resets = s.resets := rfl
@[simp] theorem invalidate_draws : s.invalidate.draws = s.draws := rfl
@[simp] theorem invalidate_inputs : s.invalidate.inputs = s.inputs := rfl
@[simp] theorem invalidate_freqAt (i : Nat) : s.invalidate.freqAt i = s.freqAt i := rfl
@[simp] theorem invalidate_nodeAt (i : Nat) : s.invalidate.nodeAt i = s.nodeAt i := rfl
@[simp] theorem invalidate_codeAt (i : Nat) : s.invalidate.codeAt i = s.codeAt i := rfl
@[simp] theorem invalidate_symAt (i : Nat) : s.invalidate.symAt i = s.symAt i := rfl
@[simp] theorem invalidate_bitAt (i : Nat) : s.invalidate.bitAt i = s.bitAt i := rfl
@[simp] theorem invalidate_busy : s.invalidate.busy = s.busy := rfl

/-! ### clearFreq -/

@[simp] theorem clearFreq_pending : s.clearFreq.pending = s.pending := rfl
@[simp] theorem clearFreq_done : s.clearFreq.done = s.done := rfl
@[simp] theorem clearFreq_error : s.clearFreq.error = s.error := rfl
@[simp] theorem clearFreq_reject : s.clearFreq.reject = s.reject := rfl
@[simp] theorem clearFreq_treeValid : s.clearFreq.treeValid = s.treeValid := rfl
@[simp] theorem clearFreq_codesValid : s.clearFreq.codesValid = s.codesValid := rfl
@[simp] theorem clearFreq_errCode : s.clearFreq.errCode = s.errCode := rfl
@[simp] theorem clearFreq_errIndex : s.clearFreq.errIndex = s.errIndex := rfl
@[simp] theorem clearFreq_irqEn : s.clearFreq.irqEn = s.irqEn := rfl
@[simp] theorem clearFreq_nsym : s.clearFreq.nsym = s.nsym := rfl
@[simp] theorem clearFreq_root : s.clearFreq.root = s.root := rfl
@[simp] theorem clearFreq_nnodes : s.clearFreq.nnodes = s.nnodes := rfl
@[simp] theorem clearFreq_symLen : s.clearFreq.symLen = s.symLen := rfl
@[simp] theorem clearFreq_bitLen : s.clearFreq.bitLen = s.bitLen := rfl
@[simp] theorem clearFreq_freq : s.clearFreq.freq = Memory.writeRange s.freq 0 (List.replicate nSym 0#32) := rfl
@[simp] theorem clearFreq_node : s.clearFreq.node = s.node := rfl
@[simp] theorem clearFreq_code : s.clearFreq.code = s.code := rfl
@[simp] theorem clearFreq_sym : s.clearFreq.sym = s.sym := rfl
@[simp] theorem clearFreq_bit : s.clearFreq.bit = s.bit := rfl
@[simp] theorem clearFreq_params : s.clearFreq.params = s.params := rfl
@[simp] theorem clearFreq_rdata : s.clearFreq.rdata = s.rdata := rfl
@[simp] theorem clearFreq_resets : s.clearFreq.resets = s.resets := rfl
@[simp] theorem clearFreq_draws : s.clearFreq.draws = s.draws := rfl
@[simp] theorem clearFreq_inputs : s.clearFreq.inputs = s.inputs := rfl
@[simp] theorem clearFreq_nodeAt (i : Nat) : s.clearFreq.nodeAt i = s.nodeAt i := rfl
@[simp] theorem clearFreq_codeAt (i : Nat) : s.clearFreq.codeAt i = s.codeAt i := rfl
@[simp] theorem clearFreq_symAt (i : Nat) : s.clearFreq.symAt i = s.symAt i := rfl
@[simp] theorem clearFreq_bitAt (i : Nat) : s.clearFreq.bitAt i = s.bitAt i := rfl
@[simp] theorem clearFreq_busy : s.clearFreq.busy = s.busy := rfl

/-! ### buildEmpty -/

@[simp] theorem buildEmpty_pending : s.buildEmpty.pending = s.pending := rfl
@[simp] theorem buildEmpty_done : s.buildEmpty.done = s.done := rfl
@[simp] theorem buildEmpty_error : s.buildEmpty.error = s.error := rfl
@[simp] theorem buildEmpty_reject : s.buildEmpty.reject = s.reject := rfl
@[simp] theorem buildEmpty_treeValid : s.buildEmpty.treeValid = false := rfl
@[simp] theorem buildEmpty_codesValid : s.buildEmpty.codesValid = false := rfl
@[simp] theorem buildEmpty_errCode : s.buildEmpty.errCode = s.errCode := rfl
@[simp] theorem buildEmpty_errIndex : s.buildEmpty.errIndex = s.errIndex := rfl
@[simp] theorem buildEmpty_irqEn : s.buildEmpty.irqEn = s.irqEn := rfl
@[simp] theorem buildEmpty_nsym : s.buildEmpty.nsym = 0#9 := rfl
@[simp] theorem buildEmpty_root : s.buildEmpty.root = 0#9 := rfl
@[simp] theorem buildEmpty_nnodes : s.buildEmpty.nnodes = 0#10 := rfl
@[simp] theorem buildEmpty_symLen : s.buildEmpty.symLen = s.symLen := rfl
@[simp] theorem buildEmpty_bitLen : s.buildEmpty.bitLen = s.bitLen := rfl
@[simp] theorem buildEmpty_freq : s.buildEmpty.freq = s.freq := rfl
@[simp] theorem buildEmpty_node : s.buildEmpty.node = s.node := rfl
@[simp] theorem buildEmpty_code : s.buildEmpty.code = s.code := rfl
@[simp] theorem buildEmpty_sym : s.buildEmpty.sym = s.sym := rfl
@[simp] theorem buildEmpty_bit : s.buildEmpty.bit = s.bit := rfl
@[simp] theorem buildEmpty_params : s.buildEmpty.params = s.params := rfl
@[simp] theorem buildEmpty_rdata : s.buildEmpty.rdata = s.rdata := rfl
@[simp] theorem buildEmpty_resets : s.buildEmpty.resets = s.resets := rfl
@[simp] theorem buildEmpty_draws : s.buildEmpty.draws = s.draws := rfl
@[simp] theorem buildEmpty_inputs : s.buildEmpty.inputs = s.inputs := rfl
@[simp] theorem buildEmpty_freqAt (i : Nat) : s.buildEmpty.freqAt i = s.freqAt i := rfl
@[simp] theorem buildEmpty_nodeAt (i : Nat) : s.buildEmpty.nodeAt i = s.nodeAt i := rfl
@[simp] theorem buildEmpty_codeAt (i : Nat) : s.buildEmpty.codeAt i = s.codeAt i := rfl
@[simp] theorem buildEmpty_symAt (i : Nat) : s.buildEmpty.symAt i = s.symAt i := rfl
@[simp] theorem buildEmpty_bitAt (i : Nat) : s.buildEmpty.bitAt i = s.bitAt i := rfl
@[simp] theorem buildEmpty_busy : s.buildEmpty.busy = s.busy := rfl

/-! ### buildFrom -/

@[simp] theorem buildFrom_pending (leaves : List Node) : (s.buildFrom leaves).pending = s.pending := rfl
@[simp] theorem buildFrom_done (leaves : List Node) : (s.buildFrom leaves).done = s.done := rfl
@[simp] theorem buildFrom_error (leaves : List Node) : (s.buildFrom leaves).error = s.error := rfl
@[simp] theorem buildFrom_reject (leaves : List Node) : (s.buildFrom leaves).reject = s.reject := rfl
@[simp] theorem buildFrom_treeValid (leaves : List Node) : (s.buildFrom leaves).treeValid = true := rfl
@[simp] theorem buildFrom_codesValid (leaves : List Node) : (s.buildFrom leaves).codesValid = false := rfl
@[simp] theorem buildFrom_errCode (leaves : List Node) : (s.buildFrom leaves).errCode = s.errCode := rfl
@[simp] theorem buildFrom_errIndex (leaves : List Node) : (s.buildFrom leaves).errIndex = s.errIndex := rfl
@[simp] theorem buildFrom_irqEn (leaves : List Node) : (s.buildFrom leaves).irqEn = s.irqEn := rfl
@[simp] theorem buildFrom_nsym (leaves : List Node) : (s.buildFrom leaves).nsym = BitVec.ofNat 9 leaves.length := rfl
@[simp] theorem buildFrom_root (leaves : List Node) :
    (s.buildFrom leaves).root = BitVec.ofNat 9 ((arenaOf leaves).length - 1) := rfl
@[simp] theorem buildFrom_nnodes (leaves : List Node) :
    (s.buildFrom leaves).nnodes = BitVec.ofNat 10 (arenaOf leaves).length := rfl
@[simp] theorem buildFrom_symLen (leaves : List Node) : (s.buildFrom leaves).symLen = s.symLen := rfl
@[simp] theorem buildFrom_bitLen (leaves : List Node) : (s.buildFrom leaves).bitLen = s.bitLen := rfl
@[simp] theorem buildFrom_freq (leaves : List Node) : (s.buildFrom leaves).freq = s.freq := rfl
@[simp] theorem buildFrom_node (leaves : List Node) :
    (s.buildFrom leaves).node = Memory.writeRange s.node 0 (arenaOf leaves) := rfl
@[simp] theorem buildFrom_code (leaves : List Node) : (s.buildFrom leaves).code = s.code := rfl
@[simp] theorem buildFrom_sym (leaves : List Node) : (s.buildFrom leaves).sym = s.sym := rfl
@[simp] theorem buildFrom_bit (leaves : List Node) : (s.buildFrom leaves).bit = s.bit := rfl
@[simp] theorem buildFrom_params (leaves : List Node) : (s.buildFrom leaves).params = s.params := rfl
@[simp] theorem buildFrom_rdata (leaves : List Node) : (s.buildFrom leaves).rdata = s.rdata := rfl
@[simp] theorem buildFrom_resets (leaves : List Node) : (s.buildFrom leaves).resets = s.resets := rfl
@[simp] theorem buildFrom_draws (leaves : List Node) : (s.buildFrom leaves).draws = s.draws := rfl
@[simp] theorem buildFrom_inputs (leaves : List Node) : (s.buildFrom leaves).inputs = s.inputs := rfl
@[simp] theorem buildFrom_freqAt (leaves : List Node) (i : Nat) : (s.buildFrom leaves).freqAt i = s.freqAt i := rfl
@[simp] theorem buildFrom_codeAt (leaves : List Node) (i : Nat) : (s.buildFrom leaves).codeAt i = s.codeAt i := rfl
@[simp] theorem buildFrom_symAt (leaves : List Node) (i : Nat) : (s.buildFrom leaves).symAt i = s.symAt i := rfl
@[simp] theorem buildFrom_bitAt (leaves : List Node) (i : Nat) : (s.buildFrom leaves).bitAt i = s.bitAt i := rfl
@[simp] theorem buildFrom_busy (leaves : List Node) : (s.buildFrom leaves).busy = s.busy := rfl

/-! ### encodeOutput -/

@[simp] theorem encodeOutput_pending (out : List Bool) (len : Nat) : (s.encodeOutput out len).pending = s.pending := rfl
@[simp] theorem encodeOutput_done (out : List Bool) (len : Nat) : (s.encodeOutput out len).done = s.done := rfl
@[simp] theorem encodeOutput_error (out : List Bool) (len : Nat) : (s.encodeOutput out len).error = s.error := rfl
@[simp] theorem encodeOutput_reject (out : List Bool) (len : Nat) : (s.encodeOutput out len).reject = s.reject := rfl
@[simp] theorem encodeOutput_treeValid (out : List Bool) (len : Nat) :
    (s.encodeOutput out len).treeValid = s.treeValid := rfl
@[simp] theorem encodeOutput_codesValid (out : List Bool) (len : Nat) :
    (s.encodeOutput out len).codesValid = s.codesValid := rfl
@[simp] theorem encodeOutput_errCode (out : List Bool) (len : Nat) : (s.encodeOutput out len).errCode = s.errCode := rfl
@[simp] theorem encodeOutput_errIndex (out : List Bool) (len : Nat) :
    (s.encodeOutput out len).errIndex = s.errIndex := rfl
@[simp] theorem encodeOutput_irqEn (out : List Bool) (len : Nat) : (s.encodeOutput out len).irqEn = s.irqEn := rfl
@[simp] theorem encodeOutput_nsym (out : List Bool) (len : Nat) : (s.encodeOutput out len).nsym = s.nsym := rfl
@[simp] theorem encodeOutput_root (out : List Bool) (len : Nat) : (s.encodeOutput out len).root = s.root := rfl
@[simp] theorem encodeOutput_nnodes (out : List Bool) (len : Nat) : (s.encodeOutput out len).nnodes = s.nnodes := rfl
@[simp] theorem encodeOutput_symLen (out : List Bool) (len : Nat) : (s.encodeOutput out len).symLen = s.symLen := rfl
@[simp] theorem encodeOutput_bitLen (out : List Bool) (len : Nat) :
    (s.encodeOutput out len).bitLen = BitVec.ofNat 32 len := rfl
@[simp] theorem encodeOutput_freq (out : List Bool) (len : Nat) : (s.encodeOutput out len).freq = s.freq := rfl
@[simp] theorem encodeOutput_node (out : List Bool) (len : Nat) : (s.encodeOutput out len).node = s.node := rfl
@[simp] theorem encodeOutput_code (out : List Bool) (len : Nat) : (s.encodeOutput out len).code = s.code := rfl
@[simp] theorem encodeOutput_sym (out : List Bool) (len : Nat) : (s.encodeOutput out len).sym = s.sym := rfl
@[simp] theorem encodeOutput_bit (out : List Bool) (len : Nat) :
    (s.encodeOutput out len).bit = Memory.writeRange s.bit 0 out := rfl
@[simp] theorem encodeOutput_params (out : List Bool) (len : Nat) : (s.encodeOutput out len).params = s.params := rfl
@[simp] theorem encodeOutput_rdata (out : List Bool) (len : Nat) : (s.encodeOutput out len).rdata = s.rdata := rfl
@[simp] theorem encodeOutput_resets (out : List Bool) (len : Nat) : (s.encodeOutput out len).resets = s.resets := rfl
@[simp] theorem encodeOutput_draws (out : List Bool) (len : Nat) : (s.encodeOutput out len).draws = s.draws := rfl
@[simp] theorem encodeOutput_inputs (out : List Bool) (len : Nat) : (s.encodeOutput out len).inputs = s.inputs := rfl
@[simp] theorem encodeOutput_freqAt (out : List Bool) (len : Nat) (i : Nat) :
    (s.encodeOutput out len).freqAt i = s.freqAt i := rfl
@[simp] theorem encodeOutput_nodeAt (out : List Bool) (len : Nat) (i : Nat) :
    (s.encodeOutput out len).nodeAt i = s.nodeAt i := rfl
@[simp] theorem encodeOutput_codeAt (out : List Bool) (len : Nat) (i : Nat) :
    (s.encodeOutput out len).codeAt i = s.codeAt i := rfl
@[simp] theorem encodeOutput_symAt (out : List Bool) (len : Nat) (i : Nat) :
    (s.encodeOutput out len).symAt i = s.symAt i := rfl
@[simp] theorem encodeOutput_busy (out : List Bool) (len : Nat) : (s.encodeOutput out len).busy = s.busy := rfl

/-! ### decodeOutput -/

@[simp] theorem decodeOutput_pending (out : List Symbol) (len : Nat) :
    (s.decodeOutput out len).pending = s.pending := rfl
@[simp] theorem decodeOutput_done (out : List Symbol) (len : Nat) : (s.decodeOutput out len).done = s.done := rfl
@[simp] theorem decodeOutput_error (out : List Symbol) (len : Nat) : (s.decodeOutput out len).error = s.error := rfl
@[simp] theorem decodeOutput_reject (out : List Symbol) (len : Nat) : (s.decodeOutput out len).reject = s.reject := rfl
@[simp] theorem decodeOutput_treeValid (out : List Symbol) (len : Nat) :
    (s.decodeOutput out len).treeValid = s.treeValid := rfl
@[simp] theorem decodeOutput_codesValid (out : List Symbol) (len : Nat) :
    (s.decodeOutput out len).codesValid = s.codesValid := rfl
@[simp] theorem decodeOutput_errCode (out : List Symbol) (len : Nat) :
    (s.decodeOutput out len).errCode = s.errCode := rfl
@[simp] theorem decodeOutput_errIndex (out : List Symbol) (len : Nat) :
    (s.decodeOutput out len).errIndex = s.errIndex := rfl
@[simp] theorem decodeOutput_irqEn (out : List Symbol) (len : Nat) : (s.decodeOutput out len).irqEn = s.irqEn := rfl
@[simp] theorem decodeOutput_nsym (out : List Symbol) (len : Nat) : (s.decodeOutput out len).nsym = s.nsym := rfl
@[simp] theorem decodeOutput_root (out : List Symbol) (len : Nat) : (s.decodeOutput out len).root = s.root := rfl
@[simp] theorem decodeOutput_nnodes (out : List Symbol) (len : Nat) : (s.decodeOutput out len).nnodes = s.nnodes := rfl
@[simp] theorem decodeOutput_symLen (out : List Symbol) (len : Nat) :
    (s.decodeOutput out len).symLen = BitVec.ofNat 32 len := rfl
@[simp] theorem decodeOutput_bitLen (out : List Symbol) (len : Nat) : (s.decodeOutput out len).bitLen = s.bitLen := rfl
@[simp] theorem decodeOutput_freq (out : List Symbol) (len : Nat) : (s.decodeOutput out len).freq = s.freq := rfl
@[simp] theorem decodeOutput_node (out : List Symbol) (len : Nat) : (s.decodeOutput out len).node = s.node := rfl
@[simp] theorem decodeOutput_code (out : List Symbol) (len : Nat) : (s.decodeOutput out len).code = s.code := rfl
@[simp] theorem decodeOutput_sym (out : List Symbol) (len : Nat) :
    (s.decodeOutput out len).sym = Memory.writeRange s.sym 0 out := rfl
@[simp] theorem decodeOutput_bit (out : List Symbol) (len : Nat) : (s.decodeOutput out len).bit = s.bit := rfl
@[simp] theorem decodeOutput_params (out : List Symbol) (len : Nat) : (s.decodeOutput out len).params = s.params := rfl
@[simp] theorem decodeOutput_rdata (out : List Symbol) (len : Nat) : (s.decodeOutput out len).rdata = s.rdata := rfl
@[simp] theorem decodeOutput_resets (out : List Symbol) (len : Nat) : (s.decodeOutput out len).resets = s.resets := rfl
@[simp] theorem decodeOutput_draws (out : List Symbol) (len : Nat) : (s.decodeOutput out len).draws = s.draws := rfl
@[simp] theorem decodeOutput_inputs (out : List Symbol) (len : Nat) : (s.decodeOutput out len).inputs = s.inputs := rfl
@[simp] theorem decodeOutput_freqAt (out : List Symbol) (len : Nat) (i : Nat) :
    (s.decodeOutput out len).freqAt i = s.freqAt i := rfl
@[simp] theorem decodeOutput_nodeAt (out : List Symbol) (len : Nat) (i : Nat) :
    (s.decodeOutput out len).nodeAt i = s.nodeAt i := rfl
@[simp] theorem decodeOutput_codeAt (out : List Symbol) (len : Nat) (i : Nat) :
    (s.decodeOutput out len).codeAt i = s.codeAt i := rfl
@[simp] theorem decodeOutput_bitAt (out : List Symbol) (len : Nat) (i : Nat) :
    (s.decodeOutput out len).bitAt i = s.bitAt i := rfl
@[simp] theorem decodeOutput_busy (out : List Symbol) (len : Nat) : (s.decodeOutput out len).busy = s.busy := rfl

/-! ### accept -/

@[simp] theorem accept_pending (v : Word) : (s.accept v).pending = some v := rfl
@[simp] theorem accept_done (v : Word) : (s.accept v).done = false := rfl
@[simp] theorem accept_error (v : Word) : (s.accept v).error = false := rfl
@[simp] theorem accept_reject (v : Word) : (s.accept v).reject = s.reject := rfl
@[simp] theorem accept_treeValid (v : Word) : (s.accept v).treeValid = s.treeValid := rfl
@[simp] theorem accept_codesValid (v : Word) : (s.accept v).codesValid = s.codesValid := rfl
@[simp] theorem accept_errCode (v : Word) : (s.accept v).errCode = s.errCode := rfl
@[simp] theorem accept_errIndex (v : Word) : (s.accept v).errIndex = s.errIndex := rfl
@[simp] theorem accept_irqEn (v : Word) : (s.accept v).irqEn = s.irqEn := rfl
@[simp] theorem accept_nsym (v : Word) : (s.accept v).nsym = s.nsym := rfl
@[simp] theorem accept_root (v : Word) : (s.accept v).root = s.root := rfl
@[simp] theorem accept_nnodes (v : Word) : (s.accept v).nnodes = s.nnodes := rfl
@[simp] theorem accept_symLen (v : Word) : (s.accept v).symLen = s.symLen := rfl
@[simp] theorem accept_bitLen (v : Word) : (s.accept v).bitLen = s.bitLen := rfl
@[simp] theorem accept_freq (v : Word) : (s.accept v).freq = s.freq := rfl
@[simp] theorem accept_node (v : Word) : (s.accept v).node = s.node := rfl
@[simp] theorem accept_code (v : Word) : (s.accept v).code = s.code := rfl
@[simp] theorem accept_sym (v : Word) : (s.accept v).sym = s.sym := rfl
@[simp] theorem accept_bit (v : Word) : (s.accept v).bit = s.bit := rfl
@[simp] theorem accept_params (v : Word) : (s.accept v).params = s.params := rfl
@[simp] theorem accept_rdata (v : Word) : (s.accept v).rdata = s.rdata := rfl
@[simp] theorem accept_resets (v : Word) : (s.accept v).resets = s.resets := rfl
@[simp] theorem accept_draws (v : Word) : (s.accept v).draws = s.draws := rfl
@[simp] theorem accept_inputs (v : Word) : (s.accept v).inputs = s.inputs := rfl
@[simp] theorem accept_freqAt (v : Word) (i : Nat) : (s.accept v).freqAt i = s.freqAt i := rfl
@[simp] theorem accept_nodeAt (v : Word) (i : Nat) : (s.accept v).nodeAt i = s.nodeAt i := rfl
@[simp] theorem accept_codeAt (v : Word) (i : Nat) : (s.accept v).codeAt i = s.codeAt i := rfl
@[simp] theorem accept_symAt (v : Word) (i : Nat) : (s.accept v).symAt i = s.symAt i := rfl
@[simp] theorem accept_bitAt (v : Word) (i : Nat) : (s.accept v).bitAt i = s.bitAt i := rfl
@[simp] theorem accept_busy (v : Word) : (s.accept v).busy = true := rfl

/-! ### rejectAccess -/

@[simp] theorem rejectAccess_pending : s.rejectAccess.pending = s.pending := rfl
@[simp] theorem rejectAccess_done : s.rejectAccess.done = s.done := rfl
@[simp] theorem rejectAccess_error : s.rejectAccess.error = s.error := rfl
@[simp] theorem rejectAccess_reject : s.rejectAccess.reject = true := rfl
@[simp] theorem rejectAccess_treeValid : s.rejectAccess.treeValid = s.treeValid := rfl
@[simp] theorem rejectAccess_codesValid : s.rejectAccess.codesValid = s.codesValid := rfl
@[simp] theorem rejectAccess_errCode : s.rejectAccess.errCode = s.errCode := rfl
@[simp] theorem rejectAccess_errIndex : s.rejectAccess.errIndex = s.errIndex := rfl
@[simp] theorem rejectAccess_irqEn : s.rejectAccess.irqEn = s.irqEn := rfl
@[simp] theorem rejectAccess_nsym : s.rejectAccess.nsym = s.nsym := rfl
@[simp] theorem rejectAccess_root : s.rejectAccess.root = s.root := rfl
@[simp] theorem rejectAccess_nnodes : s.rejectAccess.nnodes = s.nnodes := rfl
@[simp] theorem rejectAccess_symLen : s.rejectAccess.symLen = s.symLen := rfl
@[simp] theorem rejectAccess_bitLen : s.rejectAccess.bitLen = s.bitLen := rfl
@[simp] theorem rejectAccess_freq : s.rejectAccess.freq = s.freq := rfl
@[simp] theorem rejectAccess_node : s.rejectAccess.node = s.node := rfl
@[simp] theorem rejectAccess_code : s.rejectAccess.code = s.code := rfl
@[simp] theorem rejectAccess_sym : s.rejectAccess.sym = s.sym := rfl
@[simp] theorem rejectAccess_bit : s.rejectAccess.bit = s.bit := rfl
@[simp] theorem rejectAccess_params : s.rejectAccess.params = s.params := rfl
@[simp] theorem rejectAccess_rdata : s.rejectAccess.rdata = s.rdata := rfl
@[simp] theorem rejectAccess_resets : s.rejectAccess.resets = s.resets := rfl
@[simp] theorem rejectAccess_draws : s.rejectAccess.draws = s.draws := rfl
@[simp] theorem rejectAccess_inputs : s.rejectAccess.inputs = s.inputs := rfl
@[simp] theorem rejectAccess_freqAt (i : Nat) : s.rejectAccess.freqAt i = s.freqAt i := rfl
@[simp] theorem rejectAccess_nodeAt (i : Nat) : s.rejectAccess.nodeAt i = s.nodeAt i := rfl
@[simp] theorem rejectAccess_codeAt (i : Nat) : s.rejectAccess.codeAt i = s.codeAt i := rfl
@[simp] theorem rejectAccess_symAt (i : Nat) : s.rejectAccess.symAt i = s.symAt i := rfl
@[simp] theorem rejectAccess_bitAt (i : Nat) : s.rejectAccess.bitAt i = s.bitAt i := rfl
@[simp] theorem rejectAccess_busy : s.rejectAccess.busy = s.busy := rfl

/-! ### statusWrite -/

@[simp] theorem statusWrite_pending (v : Word) : (s.statusWrite v).pending = s.pending := rfl
@[simp] theorem statusWrite_done (v : Word) : (s.statusWrite v).done = (s.done && !v.getLsbD 1) := rfl
@[simp] theorem statusWrite_error (v : Word) : (s.statusWrite v).error = (s.error && !v.getLsbD 2) := rfl
@[simp] theorem statusWrite_reject (v : Word) : (s.statusWrite v).reject = (s.reject && !v.getLsbD 3) := rfl
@[simp] theorem statusWrite_treeValid (v : Word) : (s.statusWrite v).treeValid = s.treeValid := rfl
@[simp] theorem statusWrite_codesValid (v : Word) : (s.statusWrite v).codesValid = s.codesValid := rfl
@[simp] theorem statusWrite_errCode (v : Word) : (s.statusWrite v).errCode = s.errCode := rfl
@[simp] theorem statusWrite_errIndex (v : Word) : (s.statusWrite v).errIndex = s.errIndex := rfl
@[simp] theorem statusWrite_irqEn (v : Word) : (s.statusWrite v).irqEn = s.irqEn := rfl
@[simp] theorem statusWrite_nsym (v : Word) : (s.statusWrite v).nsym = s.nsym := rfl
@[simp] theorem statusWrite_root (v : Word) : (s.statusWrite v).root = s.root := rfl
@[simp] theorem statusWrite_nnodes (v : Word) : (s.statusWrite v).nnodes = s.nnodes := rfl
@[simp] theorem statusWrite_symLen (v : Word) : (s.statusWrite v).symLen = s.symLen := rfl
@[simp] theorem statusWrite_bitLen (v : Word) : (s.statusWrite v).bitLen = s.bitLen := rfl
@[simp] theorem statusWrite_freq (v : Word) : (s.statusWrite v).freq = s.freq := rfl
@[simp] theorem statusWrite_node (v : Word) : (s.statusWrite v).node = s.node := rfl
@[simp] theorem statusWrite_code (v : Word) : (s.statusWrite v).code = s.code := rfl
@[simp] theorem statusWrite_sym (v : Word) : (s.statusWrite v).sym = s.sym := rfl
@[simp] theorem statusWrite_bit (v : Word) : (s.statusWrite v).bit = s.bit := rfl
@[simp] theorem statusWrite_params (v : Word) : (s.statusWrite v).params = s.params := rfl
@[simp] theorem statusWrite_rdata (v : Word) : (s.statusWrite v).rdata = s.rdata := rfl
@[simp] theorem statusWrite_resets (v : Word) : (s.statusWrite v).resets = s.resets := rfl
@[simp] theorem statusWrite_draws (v : Word) : (s.statusWrite v).draws = s.draws := rfl
@[simp] theorem statusWrite_inputs (v : Word) : (s.statusWrite v).inputs = s.inputs := rfl
@[simp] theorem statusWrite_freqAt (v : Word) (i : Nat) : (s.statusWrite v).freqAt i = s.freqAt i := rfl
@[simp] theorem statusWrite_nodeAt (v : Word) (i : Nat) : (s.statusWrite v).nodeAt i = s.nodeAt i := rfl
@[simp] theorem statusWrite_codeAt (v : Word) (i : Nat) : (s.statusWrite v).codeAt i = s.codeAt i := rfl
@[simp] theorem statusWrite_symAt (v : Word) (i : Nat) : (s.statusWrite v).symAt i = s.symAt i := rfl
@[simp] theorem statusWrite_bitAt (v : Word) (i : Nat) : (s.statusWrite v).bitAt i = s.bitAt i := rfl
@[simp] theorem statusWrite_busy (v : Word) : (s.statusWrite v).busy = s.busy := rfl

/-! ### hostRead -/

@[simp] theorem hostRead_pending (a : Offset) : (s.hostRead a).pending = s.pending := rfl
@[simp] theorem hostRead_done (a : Offset) : (s.hostRead a).done = s.done := rfl
@[simp] theorem hostRead_error (a : Offset) : (s.hostRead a).error = s.error := rfl
@[simp] theorem hostRead_reject (a : Offset) : (s.hostRead a).reject = s.reject := rfl
@[simp] theorem hostRead_treeValid (a : Offset) : (s.hostRead a).treeValid = s.treeValid := rfl
@[simp] theorem hostRead_codesValid (a : Offset) : (s.hostRead a).codesValid = s.codesValid := rfl
@[simp] theorem hostRead_errCode (a : Offset) : (s.hostRead a).errCode = s.errCode := rfl
@[simp] theorem hostRead_errIndex (a : Offset) : (s.hostRead a).errIndex = s.errIndex := rfl
@[simp] theorem hostRead_irqEn (a : Offset) : (s.hostRead a).irqEn = s.irqEn := rfl
@[simp] theorem hostRead_nsym (a : Offset) : (s.hostRead a).nsym = s.nsym := rfl
@[simp] theorem hostRead_root (a : Offset) : (s.hostRead a).root = s.root := rfl
@[simp] theorem hostRead_nnodes (a : Offset) : (s.hostRead a).nnodes = s.nnodes := rfl
@[simp] theorem hostRead_symLen (a : Offset) : (s.hostRead a).symLen = s.symLen := rfl
@[simp] theorem hostRead_bitLen (a : Offset) : (s.hostRead a).bitLen = s.bitLen := rfl
@[simp] theorem hostRead_freq (a : Offset) : (s.hostRead a).freq = s.freq := rfl
@[simp] theorem hostRead_node (a : Offset) : (s.hostRead a).node = s.node := rfl
@[simp] theorem hostRead_code (a : Offset) : (s.hostRead a).code = s.code := rfl
@[simp] theorem hostRead_sym (a : Offset) : (s.hostRead a).sym = s.sym := rfl
@[simp] theorem hostRead_bit (a : Offset) : (s.hostRead a).bit = s.bit := rfl
@[simp] theorem hostRead_params (a : Offset) : (s.hostRead a).params = s.params := rfl
@[simp] theorem hostRead_rdata (a : Offset) : (s.hostRead a).rdata = s.readValue a := rfl
@[simp] theorem hostRead_resets (a : Offset) : (s.hostRead a).resets = s.resets := rfl
@[simp] theorem hostRead_draws (a : Offset) :
    (s.hostRead a).draws = if s.readIsDrawn a then s.draws + 1 else s.draws := rfl
@[simp] theorem hostRead_inputs (a : Offset) : (s.hostRead a).inputs = s.inputs := rfl
@[simp] theorem hostRead_freqAt (a : Offset) (i : Nat) : (s.hostRead a).freqAt i = s.freqAt i := rfl
@[simp] theorem hostRead_nodeAt (a : Offset) (i : Nat) : (s.hostRead a).nodeAt i = s.nodeAt i := rfl
@[simp] theorem hostRead_codeAt (a : Offset) (i : Nat) : (s.hostRead a).codeAt i = s.codeAt i := rfl
@[simp] theorem hostRead_symAt (a : Offset) (i : Nat) : (s.hostRead a).symAt i = s.symAt i := rfl
@[simp] theorem hostRead_bitAt (a : Offset) (i : Nat) : (s.hostRead a).bitAt i = s.bitAt i := rfl
@[simp] theorem hostRead_busy (a : Offset) : (s.hostRead a).busy = s.busy := rfl

/-! ### freqWrite -/

@[simp] theorem freqWrite_pending (k : Nat) (v : Word) : (s.freqWrite k v).pending = s.pending := rfl
@[simp] theorem freqWrite_done (k : Nat) (v : Word) : (s.freqWrite k v).done = s.done := rfl
@[simp] theorem freqWrite_error (k : Nat) (v : Word) : (s.freqWrite k v).error = s.error := rfl
@[simp] theorem freqWrite_reject (k : Nat) (v : Word) : (s.freqWrite k v).reject = s.reject := rfl
@[simp] theorem freqWrite_treeValid (k : Nat) (v : Word) : (s.freqWrite k v).treeValid = false := rfl
@[simp] theorem freqWrite_codesValid (k : Nat) (v : Word) : (s.freqWrite k v).codesValid = false := rfl
@[simp] theorem freqWrite_errCode (k : Nat) (v : Word) : (s.freqWrite k v).errCode = s.errCode := rfl
@[simp] theorem freqWrite_errIndex (k : Nat) (v : Word) : (s.freqWrite k v).errIndex = s.errIndex := rfl
@[simp] theorem freqWrite_irqEn (k : Nat) (v : Word) : (s.freqWrite k v).irqEn = s.irqEn := rfl
@[simp] theorem freqWrite_nsym (k : Nat) (v : Word) : (s.freqWrite k v).nsym = s.nsym := rfl
@[simp] theorem freqWrite_root (k : Nat) (v : Word) : (s.freqWrite k v).root = s.root := rfl
@[simp] theorem freqWrite_nnodes (k : Nat) (v : Word) : (s.freqWrite k v).nnodes = s.nnodes := rfl
@[simp] theorem freqWrite_symLen (k : Nat) (v : Word) : (s.freqWrite k v).symLen = s.symLen := rfl
@[simp] theorem freqWrite_bitLen (k : Nat) (v : Word) : (s.freqWrite k v).bitLen = s.bitLen := rfl
@[simp] theorem freqWrite_freq (k : Nat) (v : Word) : (s.freqWrite k v).freq = Memory.writeRange s.freq k [v] := rfl
@[simp] theorem freqWrite_node (k : Nat) (v : Word) : (s.freqWrite k v).node = s.node := rfl
@[simp] theorem freqWrite_code (k : Nat) (v : Word) : (s.freqWrite k v).code = s.code := rfl
@[simp] theorem freqWrite_sym (k : Nat) (v : Word) : (s.freqWrite k v).sym = s.sym := rfl
@[simp] theorem freqWrite_bit (k : Nat) (v : Word) : (s.freqWrite k v).bit = s.bit := rfl
@[simp] theorem freqWrite_params (k : Nat) (v : Word) : (s.freqWrite k v).params = s.params := rfl
@[simp] theorem freqWrite_rdata (k : Nat) (v : Word) : (s.freqWrite k v).rdata = s.rdata := rfl
@[simp] theorem freqWrite_resets (k : Nat) (v : Word) : (s.freqWrite k v).resets = s.resets := rfl
@[simp] theorem freqWrite_draws (k : Nat) (v : Word) : (s.freqWrite k v).draws = s.draws := rfl
@[simp] theorem freqWrite_inputs (k : Nat) (v : Word) : (s.freqWrite k v).inputs = s.inputs := rfl
@[simp] theorem freqWrite_nodeAt (k : Nat) (v : Word) (i : Nat) : (s.freqWrite k v).nodeAt i = s.nodeAt i := rfl
@[simp] theorem freqWrite_codeAt (k : Nat) (v : Word) (i : Nat) : (s.freqWrite k v).codeAt i = s.codeAt i := rfl
@[simp] theorem freqWrite_symAt (k : Nat) (v : Word) (i : Nat) : (s.freqWrite k v).symAt i = s.symAt i := rfl
@[simp] theorem freqWrite_bitAt (k : Nat) (v : Word) (i : Nat) : (s.freqWrite k v).bitAt i = s.bitAt i := rfl
@[simp] theorem freqWrite_busy (k : Nat) (v : Word) : (s.freqWrite k v).busy = s.busy := rfl

/-! ### afterReset -/

@[simp] theorem afterReset_pending : s.afterReset.pending = none := rfl
@[simp] theorem afterReset_done : s.afterReset.done = false := rfl
@[simp] theorem afterReset_error : s.afterReset.error = false := rfl
@[simp] theorem afterReset_reject : s.afterReset.reject = false := rfl
@[simp] theorem afterReset_treeValid : s.afterReset.treeValid = false := rfl
@[simp] theorem afterReset_codesValid : s.afterReset.codesValid = false := rfl
@[simp] theorem afterReset_errCode : s.afterReset.errCode = 0#8 := rfl
@[simp] theorem afterReset_errIndex : s.afterReset.errIndex = 0#32 := rfl
@[simp] theorem afterReset_irqEn : s.afterReset.irqEn = 0#3 := rfl
@[simp] theorem afterReset_nsym : s.afterReset.nsym = 0#9 := rfl
@[simp] theorem afterReset_root : s.afterReset.root = 0#9 := rfl
@[simp] theorem afterReset_nnodes : s.afterReset.nnodes = 0#10 := rfl
@[simp] theorem afterReset_symLen : s.afterReset.symLen = 0#32 := rfl
@[simp] theorem afterReset_bitLen : s.afterReset.bitLen = 0#32 := rfl
@[simp] theorem afterReset_freq : s.afterReset.freq = [] := rfl
@[simp] theorem afterReset_node : s.afterReset.node = [] := rfl
@[simp] theorem afterReset_code : s.afterReset.code = [] := rfl
@[simp] theorem afterReset_sym : s.afterReset.sym = [] := rfl
@[simp] theorem afterReset_bit : s.afterReset.bit = [] := rfl
@[simp] theorem afterReset_params : s.afterReset.params = s.params := rfl
@[simp] theorem afterReset_rdata : s.afterReset.rdata = 0#32 := rfl
@[simp] theorem afterReset_resets : s.afterReset.resets = s.resets + 1 := rfl
@[simp] theorem afterReset_draws : s.afterReset.draws = s.draws := rfl
@[simp] theorem afterReset_inputs : s.afterReset.inputs = s.inputs := rfl
@[simp] theorem afterReset_busy : s.afterReset.busy = false := rfl

end Sys2Proof.Machine
end

