-- ==== Sys2Proof/Laws/Reads.lean ====
section
/-! SUPPORT. What the memory accessors read after each memory-writing operation, and the small lemmas of the bit-string
and code-entry helpers. -/

namespace Sys2Proof.Machine

variable (s : State)

/-- A read with a default, after a write. -/
theorem memory_getD_writeRange {α : Type} (m : Memory α) (start : Nat) (vals : List α) (k : Nat) (d : α) :
    (Memory.get? (Memory.writeRange m start vals) k).getD d =
      if start ≤ k ∧ k < start + vals.length then (vals[k - start]?).getD d else (Memory.get? m k).getD d := by
  rw [memory_get?_writeRange]; split <;> rfl

/-- A read with a default, after a write from index 0. -/
theorem memory_getD_writePrefix {α : Type} (m : Memory α) (vals : List α) (k : Nat) (d : α) :
    (Memory.get? (Memory.writeRange m 0 vals) k).getD d = (vals[k]?).getD ((Memory.get? m k).getD d) := by
  rw [memory_getD_writeRange]
  by_cases h : k < vals.length
  · simp [h]
  · simp [h]

theorem freqAt_clearFreq (k : Nat) : s.clearFreq.freqAt k = if k < 256 then 0#32 else s.freqAt k := by
  simp only [State.freqAt, clearFreq_freq, clearFreq_resets, memory_getD_writePrefix, List.getElem?_replicate, nSym]
  split <;> rfl

theorem freqAt_freqWrite (k : Nat) (v : Word) (j : Nat) :
    (s.freqWrite k v).freqAt j = if j = k then v else s.freqAt j := by
  simp only [State.freqAt, freqWrite_freq, freqWrite_resets, memory_getD_writeRange, List.length_singleton]
  by_cases h : j = k
  · subst h; simp
  · rw [if_neg h, if_neg (by omega)]

theorem nodeAt_buildFrom (leaves : List Node) (k : Nat) :
    (s.buildFrom leaves).nodeAt k = ((arenaOf leaves)[k]?).getD (s.nodeAt k) := by
  simp only [State.nodeAt, buildFrom_node, buildFrom_resets, memory_getD_writePrefix]

theorem bitAt_encodeOutput (out : List Bool) (len k : Nat) :
    (s.encodeOutput out len).bitAt k = (out[k]?).getD (s.bitAt k) := by
  simp only [State.bitAt, encodeOutput_bit, encodeOutput_resets, memory_getD_writePrefix]

theorem symAt_decodeOutput (out : List Symbol) (len k : Nat) :
    (s.decodeOutput out len).symAt k = (out[k]?).getD (s.symAt k) := by
  simp only [State.symAt, decodeOutput_sym, decodeOutput_resets, memory_getD_writePrefix]

theorem symAt_symWrite {w : Nat} (v : Word) (h : w < s.params.symDepth / 4) (j : Nat) :
    (s.symWrite w v).symAt j =
      if 4 * w ≤ j ∧ j < 4 * w + 4 then symLane v (j - 4 * w) else s.symAt j := by
  simp only [State.symWrite, if_pos h, State.symAt, memory_getD_writeRange, List.length_cons, List.length_nil]
  by_cases hj : 4 * w ≤ j ∧ j < 4 * w + 4
  · rw [if_pos hj, if_pos hj]
    obtain ⟨d, rfl⟩ := Nat.exists_eq_add_of_le hj.1
    obtain rfl | rfl | rfl | rfl : d = 0 ∨ d = 1 ∨ d = 2 ∨ d = 3 := by omega
    all_goals simp
  · rw [if_neg hj, if_neg hj]

theorem symWrite_outside {w : Nat} (v : Word) (h : ¬ w < s.params.symDepth / 4) : s.symWrite w v = s := by
  simp only [State.symWrite, if_neg h]

theorem bitAt_bitWrite {w : Nat} (v : Word) (h : w < s.params.bitDepth / 32) (j : Nat) :
    (s.bitWrite w v).bitAt j =
      if 32 * w ≤ j ∧ j < 32 * w + 32 then v.getLsbD (j - 32 * w) else s.bitAt j := by
  simp only [State.bitWrite, if_pos h, State.bitAt, memory_getD_writeRange, List.length_map, List.length_range]
  by_cases hj : 32 * w ≤ j ∧ j < 32 * w + 32
  · rw [if_pos hj, if_pos hj, List.getElem?_map, List.getElem?_range (by omega)]
    simp
  · rw [if_neg hj, if_neg hj]

theorem bitWrite_outside {w : Nat} (v : Word) (h : ¬ w < s.params.bitDepth / 32) : s.bitWrite w v = s := by
  simp only [State.bitWrite, if_neg h]

/-! ### Bit strings -/

theorem bitsToNat_testBit (p : List Bool) (j : Nat) : (bitsToNat p).testBit j = p.getD j false := by
  induction p generalizing j with
  | nil => simp [bitsToNat]
  | cons b p ih =>
    cases j with
    | zero => cases b <;> simp [bitsToNat, Nat.testBit_zero]
    | succ j =>
      have h : (b.toNat + 2 * bitsToNat p) / 2 = bitsToNat p := by cases b <;> (simp; try omega)
      rw [bitsToNat, Nat.testBit_succ, h, ih]
      simp

theorem codeString_length (c : CodeEntry) : (codeString c).length = c.len.toNat := by simp [codeString]

/-- A bit string of a legal length is read back from the entry that holds it. -/
theorem codeString_codeEntryOf {p : List Bool} (h : p.length ≤ 255) : codeString (codeEntryOf p) = p := by
  have hl : (codeEntryOf p).len.toNat = p.length := by simp [codeEntryOf]; omega
  apply List.ext_getElem
  · rw [codeString_length, hl]
  · intro j h₁ h₂
    simp only [codeString, codeEntryOf, List.getElem_map, List.getElem_range, BitVec.getLsbD_ofNat, bitsToNat_testBit]
    simp [h₂, show j < 255 by omega]

/-- Every code bit beyond a bit string is 0 in the entry that holds it (10_state.md rule R47). -/
theorem codeEntryOf_tail {p : List Bool} {j : Nat} (h : p.length ≤ j) :
    (codeEntryOf p).bits.getLsbD j = false := by
  simp only [codeEntryOf, BitVec.getLsbD_ofNat, bitsToNat_testBit]
  simp [List.getElem?_eq_none h]

end Sys2Proof.Machine
end

