-- ==== Sys2Proof/Laws/Loops.lean ====
section
/-! SUPPORT. What the loops of the commands do, once each: the least active node and its removal, the merge loop's
shape, the encoder's loop and the decoder's loop. -/

namespace Sys2Proof.Machine

/-! ### Selection (42_tree_builder.md rule R152) -/

theorem keyLess_iff (x y : Active) :
    keyLess x y = true ↔ x.freq < y.freq ∨ (x.freq = y.freq ∧ x.index < y.index) := by
  simp [keyLess]

theorem leastOf_mem (x : Active) (xs : List Active) : leastOf x xs ∈ x :: xs := by
  induction xs generalizing x with
  | nil => simp [leastOf]
  | cons y ys ih =>
    rw [leastOf, List.mem_cons, List.mem_cons]
    obtain h | h := List.mem_cons.mp (ih (if keyLess y x then y else x))
    · rw [h]; split <;> simp
    · exact .inr (.inr h)

/-- No member's key is less than the key of the least. -/
theorem leastOf_least (x : Active) (xs : List Active) : ∀ y ∈ x :: xs, keyLess y (leastOf x xs) = false := by
  have irrefl (z : Active) : keyLess z z = false := by simp [keyLess]
  have trans {a b c : Active} : keyLess a b = false → keyLess b c = false → keyLess a c = false := by
    simp only [keyLess, Bool.or_eq_false_iff, Bool.and_eq_false_iff, decide_eq_false_iff_not]
    omega
  have asymm {a b : Active} : keyLess a b = true → keyLess b a = false := by
    rw [keyLess_iff]
    simp only [keyLess, Bool.or_eq_false_iff, Bool.and_eq_false_iff, decide_eq_false_iff_not]
    omega
  induction xs generalizing x with
  | nil => intro y hy; simp only [List.mem_singleton] at hy; subst hy; exact irrefl _
  | cons z zs ih =>
    have hall := ih (if keyLess z x then z else x)
    have hhead := hall _ List.mem_cons_self
    intro y hy
    rw [leastOf]
    rw [List.mem_cons, List.mem_cons] at hy
    by_cases hz : keyLess z x = true
    · rw [if_pos hz] at hall hhead ⊢
      obtain rfl | rfl | hy := hy
      · exact trans (asymm hz) hhead
      · exact hhead
      · exact hall y (List.mem_cons_of_mem _ hy)
    · rw [if_neg hz] at hall hhead ⊢
      obtain rfl | rfl | hy := hy
      · exact hhead
      · exact trans (by simpa using hz) hhead
      · exact hall y (List.mem_cons_of_mem _ hy)

/-- A removal takes a member with the least key and keeps the others. -/
theorem removeLeast_some {xs rest : List Active} {a : Active} (h : removeLeast xs = some (a, rest)) :
    xs.Perm (a :: rest) ∧ ∀ y ∈ xs, keyLess y a = false := by
  cases xs with
  | nil => cases h
  | cons x xs =>
    simp only [removeLeast, Option.some.injEq, Prod.mk.injEq] at h
    obtain ⟨rfl, rfl⟩ := h
    exact ⟨List.perm_cons_erase (leastOf_mem x xs), leastOf_least x xs⟩

theorem removeLeast_none {xs : List Active} : removeLeast xs = none ↔ xs = [] := by
  cases xs <;> simp [removeLeast]

/-- The merge loop appends to the arena, and it runs |A| - 1 merges (42_tree_builder.md rule R153). -/
theorem mergeLoop_appends (fuel : Nat) (arena : List Node) (active : List Active) (h : active.length ≤ fuel) :
    ∃ more, mergeLoop fuel arena active = arena ++ more ∧ more.length = active.length - 1 := by
  induction fuel generalizing arena active with
  | zero => exact ⟨[], by simp [mergeLoop], by simp; omega⟩
  | succ fuel ih =>
    rw [mergeLoop]
    split
    · next hn => exact ⟨[], by simp, by simp [removeLeast_none.mp hn]⟩
    · next a rest ha =>
      have hp := (removeLeast_some ha).1.length_eq
      split
      · next hn =>
        refine ⟨[], by simp, ?_⟩
        rw [removeLeast_none.mp hn] at hp
        simp [hp]
      · next b rest' hb =>
        have hq := (removeLeast_some hb).1.length_eq
        simp only [List.length_cons] at hp hq
        obtain ⟨more, hm, hl⟩ := ih (arena ++ [internalNode a b])
          (⟨a.freq + b.freq, arena.length⟩ :: rest') (by simp only [List.length_cons]; omega)
        exact ⟨internalNode a b :: more, by simp [hm], by simp only [List.length_cons] at hl ⊢; omega⟩

theorem activeLeaves_length (leaves : List Node) : (activeLeaves leaves).length = leaves.length := by
  simp [activeLeaves]

/-- NNODES = 2n - 1 (42_tree_builder.md rule R154). -/
theorem arenaOf_length (leaves : List Node) : (arenaOf leaves).length = 2 * leaves.length - 1 := by
  obtain ⟨more, hm, hl⟩ := mergeLoop_appends leaves.length leaves (activeLeaves leaves)
    (by rw [activeLeaves_length])
  rw [arenaOf, hm, List.length_append, hl, activeLeaves_length]
  omega

/-- The leaves stand first in the arena (42_tree_builder.md rule R151). -/
theorem arenaOf_leaf (leaves : List Node) {i : Nat} (h : i < leaves.length) : (arenaOf leaves)[i]? = leaves[i]? := by
  obtain ⟨more, hm, -⟩ := mergeLoop_appends leaves.length leaves (activeLeaves leaves)
    (by rw [activeLeaves_length])
  rw [arenaOf, hm, List.getElem?_append_left h]

/-- At most 256 symbols are present. -/
theorem leavesOf_length_le (f : Nat → Word) : (leavesOf f).length ≤ 256 := by
  have := List.length_filterMap_le (fun s => if f s ≠ 0#32 then some (leafNode s (f s)) else none) (List.range nSym)
  simpa [leavesOf, nSym] using this

/-- The leaves depend on FREQ[0..255] alone (42_tree_builder.md rule R158). -/
theorem leavesOf_congr {f g : Nat → Word} (h : ∀ k < 256, f k = g k) : leavesOf f = leavesOf g := by
  refine List.filterMap_congr fun k hk => ?_
  rw [h k (by simpa [nSym] using hk)]

/-! ### The walk (43_code_table_generator.md rule R170) -/

/-- A recording keeps the table's canonical form: a symbol is below 256. -/
theorem recordCode_wf {t : Memory CodeEntry} (h : Memory.wf 256 t) (sym : Symbol) (p : List Bool) :
    Memory.wf 256 (recordCode t sym p) :=
  memory_wf_writeRange h (by have := sym.isLt; simp only [List.length_singleton]; omega)

/-- The clearing of the table keeps its canonical form. -/
theorem clearedTable_wf {t : Memory CodeEntry} (h : Memory.wf 256 t) : Memory.wf 256 (clearedTable t) :=
  memory_wf_writeRange h (by rw [List.length_replicate]; exact le_rfl)

/-- The walk writes only the entries of the Leaves below its node: the rest of the table stays, and so does its
canonical form. -/
theorem walk_keeps {arenaAt? : Nat → Option Node} {fuel k : Nat} {p : List Bool} {t t' : Memory CodeEntry}
    (h : walk arenaAt? fuel k p t = .table t') :
    (Memory.wf 256 t → Memory.wf 256 t') ∧
    ∀ x, (∀ j nd, arenaAt? j = some nd → nd.leaf = true → nd.sym.toNat ≠ x) →
      Memory.get? t' x = Memory.get? t x := by
  induction fuel generalizing k p t t' with
  | zero => cases h
  | succ fuel ih =>
    rw [walk] at h
    split at h
    · cases h
    · next nd hk =>
      split at h
      · next hleaf =>
        obtain rfl := WalkEnd.table.inj h
        refine ⟨fun hw => recordCode_wf hw _ _, fun x hx => memory_get?_writeRange_outside _ ?_⟩
        have := hx k nd hk hleaf
        simp only [List.length_singleton]; omega
      · split at h
        · cases h
        · next t₀ h₀ =>
          exact ⟨fun hw => (ih h).1 ((ih h₀).1 hw), fun x hx => ((ih h).2 x hx).trans ((ih h₀).2 x hx)⟩

/-! ### The encoder's loop (44_encoder.md rule R190) -/

/-- Either every symbol has a code and the output is their concatenation, or the loop stops at the first symbol with
no code or whose code does not fit, with the codes before it as output. -/
theorem encodeLoop_cases (codeAt : Nat → CodeEntry) (cap i : Nat) (out : List Bool) (xs : List Symbol) :
    (∃ r, encodeLoop codeAt cap i out xs = .done r ∧ r = out ++ xs.flatMap (fun x => codeString (codeAt x.toNat)) ∧
      (∀ x ∈ xs, (codeAt x.toNat).len ≠ 0#8) ∧ (xs ≠ [] → r.length ≤ cap)) ∨
    ∃ code pre x post, xs = pre ++ x :: post ∧
      encodeLoop codeAt cap i out xs =
        .failed code (i + pre.length) (out ++ pre.flatMap (fun x => codeString (codeAt x.toNat))) ∧
      (∀ y ∈ pre, (codeAt y.toNat).len ≠ 0#8) ∧
      ((code = .symbolNotInAlphabet ∧ (codeAt x.toNat).len = 0#8) ∨
        (code = .outputOverflow ∧ (codeAt x.toNat).len ≠ 0#8 ∧
          (out ++ pre.flatMap (fun x => codeString (codeAt x.toNat))).length + (codeAt x.toNat).len.toNat > cap)) := by
  induction xs generalizing i out with
  | nil => exact .inl ⟨out, rfl, by simp, by simp, by simp⟩
  | cons x xs ih =>
    rw [encodeLoop]
    by_cases h₁ : (codeAt x.toNat).len = 0#8
    · exact .inr ⟨_, [], x, xs, rfl, by simp [h₁], by simp, .inl ⟨rfl, h₁⟩⟩
    · rw [if_neg h₁]
      by_cases h₂ : out.length + (codeAt x.toNat).len.toNat > cap
      · exact .inr ⟨_, [], x, xs, rfl, by simp [h₂], by simp, .inr ⟨rfl, h₁, by simpa using h₂⟩⟩
      · rw [if_neg h₂]
        obtain ⟨r, hr, he, hc, hl⟩ | ⟨code, pre, y, post, he, hr, hc, hl⟩ :=
          ih (i + 1) (out ++ codeString (codeAt x.toNat))
        · refine .inl ⟨r, hr, by simp [he], by simp [h₁]; exact hc, fun _ => ?_⟩
          by_cases hx : xs = []
          · subst hx; simp [he, codeString_length]; omega
          · exact hl hx
        · refine .inr ⟨code, x :: pre, y, post, by simp [he], ?_, by simp [h₁]; exact hc, ?_⟩
          · rw [hr]; simp [List.append_assoc]; omega
          · simpa [List.append_assoc] using hl

/-! ### The decoder's loop (45_decoder.md rule R210) -/

/-- The loop extends the output by at most one symbol a bit, and it fails only with OUTPUT_OVERFLOW at a bit it read,
or with TRUNCATED_STREAM (60_exceptions.md rule R231). -/
theorem decodeLoop_cases (arenaAt? : Nat → Option Node) (r cap i k start : Nat) (out : List Symbol)
    (bits : List Bool) :
    (∃ more, decodeLoop arenaAt? r cap i k start out bits = .done (out ++ more) ∧ more.length ≤ bits.length) ∨
    (∃ more at', decodeLoop arenaAt? r cap i k start out bits = .failed .truncatedStream at' (out ++ more) ∧
      more.length ≤ bits.length ∧ (at' = start ∨ (i ≤ at' ∧ at' < i + bits.length))) ∨
    (∃ more at', decodeLoop arenaAt? r cap i k start out bits = .failed .outputOverflow at' (out ++ more) ∧
      more.length ≤ bits.length ∧ i ≤ at' ∧ at' < i + bits.length) ∨
    decodeLoop arenaAt? r cap i k start out bits = .stuck .nodeIndexOutOfArena := by
  induction bits generalizing i k start out with
  | nil =>
    by_cases h : k = r
    · exact .inl ⟨[], by simp [decodeLoop, h], by simp⟩
    · exact .inr (.inl ⟨[], start, by simp [decodeLoop, h], by simp, .inl rfl⟩)
  | cons b bits ih =>
    rw [decodeLoop]
    split
    · exact .inr (.inr (.inr rfl))
    · split
      · exact .inr (.inr (.inr rfl))
      · next nd' _ =>
        by_cases hleaf : nd'.leaf = true
        · rw [if_pos hleaf]
          by_cases hcap : out.length = cap
          · rw [if_pos hcap]
            exact .inr (.inr (.inl ⟨[], i, by simp, by simp, le_rfl, by simp⟩))
          · rw [if_neg hcap]
            obtain ⟨more, hm, hl⟩ | ⟨more, a, hm, hl, ha⟩ | ⟨more, a, hm, hl, ha⟩ | h :=
              ih (i + 1) r (if k = r then i else start) (out ++ [nd'.sym])
            · exact .inl ⟨nd'.sym :: more, by simp [hm], by simp; omega⟩
            · refine .inr (.inl ⟨nd'.sym :: more, a, by simp [hm], by simp; omega, ?_⟩)
              simp only [List.length_cons]; split at ha <;> omega
            · exact .inr (.inr (.inl ⟨nd'.sym :: more, a, by simp [hm], by simp; omega, by omega, by simp; omega⟩))
            · exact .inr (.inr (.inr h))
        · rw [if_neg hleaf]
          obtain ⟨more, hm, hl⟩ | ⟨more, a, hm, hl, ha⟩ | ⟨more, a, hm, hl, ha⟩ | h :=
            ih (i + 1) _ (if k = r then i else start) out
          · exact .inl ⟨more, hm, by simp; omega⟩
          · refine .inr (.inl ⟨more, a, hm, by simp; omega, ?_⟩)
            simp only [List.length_cons]; split at ha <;> omega
          · exact .inr (.inr (.inl ⟨more, a, hm, by simp; omega, by omega, by simp; omega⟩))
          · exact .inr (.inr (.inr h))

end Sys2Proof.Machine
end

