-- ==== Sys2Proof/Laws/Commands.lean ====
section
/-! SUPPORT. One inversion lemma per command's meaning, per host access and for the step: everything each can do. A
later proof cites these and unfolds no meaning. -/

namespace Sys2Proof.Machine

variable {s t : State}

theorem exec_nop_eq (s : State) : exec .nop s = .next (s.completeWith .none 0) := rfl

theorem exec_clearFreq_eq (s : State) :
    exec .clearFreq s = .next (s.clearFreq.invalidate.completeWith .none 0) := rfl

theorem illegal_eq (s : State) : illegal s = .next (s.completeWith .illegalCommand 0) := rfl

/-- BUILD_TREE fails on an empty alphabet and else stores the arena (42_tree_builder.md rule R150). -/
theorem exec_buildTree_cases (s : State) :
    (leavesOf s.freqAt = [] ∧ exec .buildTree s = .next (s.buildEmpty.completeWith .emptyAlphabet 0)) ∨
    (leavesOf s.freqAt ≠ [] ∧ exec .buildTree s = .next ((s.buildFrom (leavesOf s.freqAt)).completeWith .none 0)) := by
  by_cases h : leavesOf s.freqAt = []
  · exact .inl ⟨h, by simp [exec, execBuildTree, State.buildTree, h]⟩
  · exact .inr ⟨h, by simp [exec, execBuildTree, State.buildTree, h]⟩

/-- GEN_CODES fails without a tree, stores the table of the walk, or stops where the walk does
(43_code_table_generator.md rule R170). -/
theorem exec_genCodes_cases (s : State) :
    (s.treeValid = false ∧ exec .genCodes s = .next (s.completeWith .noTree 0)) ∨
    (s.treeValid = true ∧ ∃ tbl, s.codeTable = .table tbl ∧
      exec .genCodes s = .next (State.completeWith { s with code := tbl, codesValid := true } .none 0)) ∨
    (s.treeValid = true ∧ ∃ why, s.codeTable = .stuck why ∧ exec .genCodes s = .fault why) := by
  cases ht : s.treeValid
  · exact .inl ⟨rfl, by simp [exec, execGenCodes, ht]⟩
  · right
    cases hc : s.codeTable with
    | table tbl => exact .inl ⟨rfl, tbl, rfl, by simp [exec, execGenCodes, ht, hc]⟩
    | stuck why => exact .inr ⟨rfl, why, rfl, by simp [exec, execGenCodes, ht, hc]⟩

/-- ENCODE's four ends (44_encoder.md rule R190). -/
theorem exec_encode_cases (s : State) :
    (s.codesValid = false ∧ exec .encode s = .next ((s.encodeOutput [] 0).completeWith .noCodes 0)) ∨
    (s.codesValid = true ∧ s.params.symDepth < s.symLen.toNat ∧
      exec .encode s = .next ((s.encodeOutput [] 0).completeWith .badLength 0)) ∨
    (s.codesValid = true ∧ s.symLen.toNat ≤ s.params.symDepth ∧ ∃ out,
      encodeLoop s.codeAt s.params.bitDepth 0 [] (s.symbolsIn s.symLen.toNat) = .done out ∧
      exec .encode s = .next ((s.encodeOutput out out.length).completeWith .none 0)) ∨
    (s.codesValid = true ∧ s.symLen.toNat ≤ s.params.symDepth ∧ ∃ code index out,
      encodeLoop s.codeAt s.params.bitDepth 0 [] (s.symbolsIn s.symLen.toNat) = .failed code index out ∧
      exec .encode s = .next ((s.encodeOutput out 0).completeWith code index)) := by
  cases hc : s.codesValid
  · exact .inl ⟨rfl, by simp [exec, execEncode, State.encode, hc]⟩
  · right
    by_cases hl : s.symLen.toNat > s.params.symDepth
    · exact .inl ⟨rfl, hl, by simp [exec, execEncode, State.encode, hc, hl]⟩
    · right
      cases he : encodeLoop s.codeAt s.params.bitDepth 0 [] (s.symbolsIn s.symLen.toNat) with
      | done out => exact .inl ⟨rfl, by omega, out, rfl, by simp [exec, execEncode, State.encode, hc, hl, he]⟩
      | failed code index out =>
        exact .inr ⟨rfl, by omega, code, index, out, rfl, by simp [exec, execEncode, State.encode, hc, hl, he]⟩

/-- DECODE's five ends (45_decoder.md rule R210). -/
theorem exec_decode_cases (s : State) :
    (s.treeValid = false ∧ exec .decode s = .next ((s.decodeOutput [] 0).completeWith .noTree 0)) ∨
    (s.treeValid = true ∧ s.params.bitDepth < s.bitLen.toNat ∧
      exec .decode s = .next ((s.decodeOutput [] 0).completeWith .badLength 0)) ∨
    (s.treeValid = true ∧ s.bitLen.toNat ≤ s.params.bitDepth ∧ ∃ out,
      decodeLoop s.arenaAt? s.root.toNat s.params.symDepth 0 s.root.toNat 0 [] (s.bitsIn s.bitLen.toNat) = .done out ∧
      exec .decode s = .next ((s.decodeOutput out out.length).completeWith .none 0)) ∨
    (s.treeValid = true ∧ s.bitLen.toNat ≤ s.params.bitDepth ∧ ∃ code index out,
      decodeLoop s.arenaAt? s.root.toNat s.params.symDepth 0 s.root.toNat 0 [] (s.bitsIn s.bitLen.toNat) =
        .failed code index out ∧
      exec .decode s = .next ((s.decodeOutput out 0).completeWith code index)) ∨
    (s.treeValid = true ∧ s.bitLen.toNat ≤ s.params.bitDepth ∧ ∃ why,
      decodeLoop s.arenaAt? s.root.toNat s.params.symDepth 0 s.root.toNat 0 [] (s.bitsIn s.bitLen.toNat) = .stuck why ∧
      exec .decode s = .fault why) := by
  cases ht : s.treeValid
  · exact .inl ⟨rfl, by simp [exec, execDecode, ht]⟩
  · right
    by_cases hl : s.bitLen.toNat > s.params.bitDepth
    · exact .inl ⟨rfl, hl, by simp [exec, execDecode, ht, hl]⟩
    · right
      cases hd : decodeLoop s.arenaAt? s.root.toNat s.params.symDepth 0 s.root.toNat 0 []
          (s.bitsIn s.bitLen.toNat) with
      | done out => exact .inl ⟨rfl, by omega, out, rfl, by simp [exec, execDecode, ht, hl, hd]⟩
      | failed code index out =>
        exact .inr (.inl ⟨rfl, by omega, code, index, out, rfl, by simp [exec, execDecode, ht, hl, hd]⟩)
      | stuck why => exact .inr (.inr ⟨rfl, by omega, why, rfl, by simp [exec, execDecode, ht, hl, hd]⟩)

/-- A host write is rejected, or reaches its target (40_host_access.md rule R111). -/
theorem hostWrite_cases (s : State) (addr : Offset) (v : Word) :
    (guarded (targetOf addr) = true ∧ s.busy = true ∧ s.hostWrite addr v = s.rejectAccess) ∨
    (¬ (guarded (targetOf addr) = true ∧ s.busy = true) ∧ s.hostWrite addr v = s.targetWrite v (targetOf addr)) := by
  by_cases h : guarded (targetOf addr) = true ∧ s.busy = true
  · exact .inl ⟨h.1, h.2, by simp [State.hostWrite, h]⟩
  · refine .inr ⟨h, ?_⟩
    rw [State.hostWrite, if_neg (by simpa [Bool.and_eq_true] using h)]

/-- An engine step with nothing pending changes nothing; else it runs the decoded command or the completion of an
illegal word (41_command_control.md rule R133). -/
theorem engineStep_cases (s : State) :
    (s.pending = none ∧ engineStep s = .next s) ∨
    (∃ w i, s.pending = some w ∧ Sys2Proof.decode w = .command i ∧ engineStep s = exec i s) ∨
    (∃ w why, s.pending = some w ∧ Sys2Proof.decode w = .illegal why ∧
      engineStep s = .next (s.completeWith .illegalCommand 0)) := by
  cases hp : s.pending with
  | none => exact .inl ⟨rfl, by simp [engineStep, hp]⟩
  | some w =>
    cases hd : Sys2Proof.decode w with
    | command i => exact .inr (.inl ⟨w, i, rfl, hd, by simp [engineStep, hp, hd]⟩)
    | illegal why => exact .inr (.inr ⟨w, why, rfl, hd, by simp [engineStep, hp, hd, illegal_eq]⟩)

/-- Everything one step of the block can be: the engine's step with no event in view, or the next event. -/
theorem step_cases (s : State) :
    (s.inputs = [] ∧ step s = engineStep s) ∨
    (∃ rest addr, s.inputs = .read addr :: rest ∧ step s = .next (State.hostRead { s with inputs := rest } addr)) ∨
    (∃ rest addr v, s.inputs = .write addr v :: rest ∧
      step s = .next (State.hostWrite { s with inputs := rest } addr v)) ∨
    (∃ rest, s.inputs = .engine :: rest ∧ step s = engineStep { s with inputs := rest }) ∨
    (∃ rest, s.inputs = .reset :: rest ∧ step s = .next (State.afterReset { s with inputs := rest })) := by
  cases hi : s.inputs with
  | nil => exact .inl ⟨rfl, by simp [step, blockStep, hi]⟩
  | cons e rest =>
    cases e with
    | read addr => exact .inr (.inl ⟨rest, addr, rfl, by simp [step, blockStep, hi, handleInput]⟩)
    | write addr v => exact .inr (.inr (.inl ⟨rest, addr, v, rfl, by simp [step, blockStep, hi, handleInput]⟩))
    | engine => exact .inr (.inr (.inr (.inl ⟨rest, rfl, by simp [step, blockStep, hi, handleInput]⟩)))
    | reset => exact .inr (.inr (.inr (.inr ⟨rest, rfl, by simp [step, blockStep, hi, handleInput]⟩)))

end Sys2Proof.Machine
end

