-- ==== Sys2Proof/Laws/PerInstr.lean ====
section
/-! SUPPORT. Statements about every command as syntax. Family WordForm: the command's word is in the legal space of
30_encoding.md rule R93, and its two fields are RSVD = 0 and the opcode of rule R92. -/

namespace Sys2Proof.Laws.WordForm

/-- What the family says of a command. -/
def Statement (i : Sys2Proof.Instr) : Prop :=
  i.wellFormed = true ∧ wordWellFormed (encode i) = true ∧ rsvdField (encode i) = 0#24 ∧
    opcodeField (encode i) = opcodeOf i

theorem nop : Statement .nop := by unfold Statement; decide
theorem clearFreq : Statement .clearFreq := by unfold Statement; decide
theorem buildTree : Statement .buildTree := by unfold Statement; decide
theorem genCodes : Statement .genCodes := by unfold Statement; decide
theorem encode : Statement .encode := by unfold Statement; decide
theorem decode : Statement .decode := by unfold Statement; decide

end Sys2Proof.Laws.WordForm
end

