-- ==== Sys2Proof/Laws/Safety.lean ====
section
/-! SUPPORT. The tree and code predicates depend only on what they read: they carry over between states that read the
same. -/

namespace Sys2Proof.Safety

open Sys2Proof.Machine

variable {s t : State}

theorem freqAt_eq_of_same (h : SameFreq s t) : t.freqAt = s.freqAt := funext h

theorem presentSymbols_of_same (h : SameFreq s t) : presentSymbols t = presentSymbols s := by
  simp only [presentSymbols, freqAt_eq_of_same h]

theorem leafCount_of_same (h : SameFreq s t) : leafCount t = leafCount s := by
  simp only [leafCount, presentSymbols_of_same h]

theorem treeMatches_of_same (hf : SameFreq s t) (ht : SameTree s t) (h : TreeMatches s) : TreeMatches t := by
  obtain ⟨hn, h₁, h₂, h₃, -⟩ := ht
  have hn : t.nodeAt = s.nodeAt := funext hn
  simpa only [TreeMatches, IsLeafOf, leafCount_of_same hf, presentSymbols_of_same hf, freqAt_eq_of_same hf, hn, h₁, h₂,
    h₃] using h

theorem codesMatch_of_same (hf : SameFreq s t) (ht : SameTree s t) (hc : SameCodes s t) (h : CodesMatch s) :
    CodesMatch t := by
  obtain ⟨hn, h₁, h₂, h₃, -⟩ := ht
  have hn : t.nodeAt = s.nodeAt := funext hn
  have hc : t.codeAt = s.codeAt := funext hc.1
  simpa only [CodesMatch, IsCodeOf, codeOf, codeLen, leafCount_of_same hf, freqAt_eq_of_same hf, hn, hc, h₂] using h

theorem codeStart_of_same (hc : ∀ k, t.codeAt k = s.codeAt k) (hs : ∀ k, t.symAt k = s.symAt k) (j : Nat) :
    codeStart t j = codeStart s j := by
  simp only [codeStart, codeLen, hc, hs]

end Sys2Proof.Safety
end

