-- ==== Sys2Proof/Tests/Slice0.lean ====
section
/-! SUPPORT. Tests of single steps, with every expected value taken from spec/ (the source of each stands in its
docstring), and the witnesses that the hypotheses of the statements can be met. -/

set_option Elab.async false

namespace Sys2Proof.Tests

open Sys2Proof Sys2Proof.Machine Sys2Proof.Safety

/-! ### Helpers -/

/-- A memory with the first `n` entries written. -/
def dense {α : Type} (n : Nat) (f : Nat → α) : Memory α := (List.range n).map (fun k => (k, f k))

theorem dense_wf {α : Type} {n bound : Nat} (f : Nat → α) (h : n ≤ bound) : Memory.wf bound (dense n f) := by
  refine ⟨?_, fun c hc => ?_⟩
  · have : (dense n f).map Prod.fst = List.range n := by simp [dense, Function.comp_def]
    rw [this]; exact List.pairwise_lt_range
  · simp only [dense, List.mem_map, List.mem_range] at hc
    obtain ⟨k, hk, rfl⟩ := hc
    exact Nat.lt_of_lt_of_le hk h

/-- The state an outcome holds. -/
def stateOf : Host.Outcome State Fault Refusal → State
  | .next t => t
  | .fault _ => State.reset
  | .refused _ => State.reset

def isNext : Host.Outcome State Fault Refusal → Bool
  | .next _ => true
  | .fault _ => false
  | .refused _ => false

theorem eq_next_stateOf {o : Host.Outcome State Fault Refusal} (h : isNext o = true) : o = .next (stateOf o) := by
  cases o <;> simp_all [isNext, stateOf]

/-- The reset state of a block with P_SYM_DEPTH = 4096 and P_BIT_DEPTH = 32768. -/
def ref : State := State.resetWith Config.referenceParams 0 0 []

/-- The reset state of a block with P_SYM_DEPTH = 4 and P_BIT_DEPTH = 32. -/
def tiny : State := State.resetWith ⟨0, 0⟩ 0 0 []

/-- The frequencies of 95_test_vectors.md V1: a 5, b 2, c 1, d 1. -/
def v1Count : Nat → Word
  | 0x61 => 5#32
  | 0x62 => 2#32
  | 0x63 => 1#32
  | 0x64 => 1#32
  | _ => 0#32

/-- NODE[0..6] of 95_test_vectors.md V1. -/
def v1Nodes : Memory Node :=
  [(0, ⟨true, 5#40, 0x61#8, 0#9, 0#9⟩), (1, ⟨true, 2#40, 0x62#8, 0#9, 0#9⟩), (2, ⟨true, 1#40, 0x63#8, 0#9, 0#9⟩),
   (3, ⟨true, 1#40, 0x64#8, 0#9, 0#9⟩), (4, ⟨false, 2#40, 0#8, 2#9, 3#9⟩), (5, ⟨false, 4#40, 0#8, 1#9, 4#9⟩),
   (6, ⟨false, 9#40, 0#8, 5#9, 0#9⟩)]

/-- The code table of 95_test_vectors.md V1. -/
def v1Code : Nat → CodeEntry
  | 0x61 => ⟨1#8, 1#255⟩
  | 0x62 => ⟨2#8, 0#255⟩
  | 0x63 => ⟨3#8, 2#255⟩
  | 0x64 => ⟨3#8, 6#255⟩
  | _ => ⟨0#8, 0#255⟩

/-- V1's FREQ before any build, over the tiny block. -/
def v1Start : State := { tiny with freq := dense 256 v1Count }

/-- V1 after BUILD_TREE. -/
def v1Built : State :=
  { v1Start with
    node := v1Nodes, nsym := 4#9, nnodes := 7#10, root := 6#9, treeValid := true, done := true }

/-- V1 after GEN_CODES. -/
def v1Coded : State := { v1Built with code := dense 256 v1Code, codesValid := true }

/-- V1 after GEN_CODES, with SYM = 'a', 'a', 'b', 0 and BIT all ones. -/
def v1Sym (n : Nat) : State :=
  { v1Coded with
    sym := [(0, 0x61#8), (1, 0x61#8), (2, 0x62#8), (3, 0#8)]
    symLen := BitVec.ofNat 32 n
    bit := dense 32 (fun _ => true) }

/-- V1 after GEN_CODES, with BIT = the 32 low bits of `bits` and BIT_LEN = `n`. -/
def v1Bit (bits : Word) (n : Nat) : State :=
  { v1Coded with
    bit := dense 32 bits.getLsbD
    bitLen := BitVec.ofNat 32 n
    sym := [(0, 7#8), (1, 7#8), (2, 7#8), (3, 7#8)] }

/-- V5: one symbol 'x' with count 7, after BUILD_TREE and GEN_CODES, over a block with P_SYM_DEPTH = 4. -/
def xCoded (symLen bitLen : Nat) : State :=
  { tiny with
    freq := dense 256 (fun k => if k = 0x78 then 7#32 else 0#32)
    node := [(0, ⟨true, 7#40, 0x78#8, 0#9, 0#9⟩)]
    nsym := 1#9, nnodes := 1#10, root := 0#9, treeValid := true
    code := dense 256 (fun k => if k = 0x78 then ⟨1#8, 0#255⟩ else ⟨0#8, 0#255⟩)
    codesValid := true
    sym := dense 4 (fun _ => 0x78#8)
    symLen := BitVec.ofNat 32 symLen
    bit := dense 32 (fun k => k % 2 = 0)
    bitLen := BitVec.ofNat 32 bitLen }

/-- A busy block: V1's FREQ with BUILD_TREE pending (95_test_vectors.md V14). -/
def v1Busy : State := { v1Start with pending := some 0x00000002#32 }

/-! ### Well-formedness and decoding -/

/-- Each check refuses a word that fails it alone (30_encoding.md rule R93). -/
theorem test_wellFormed_refuses :
    wordRsvdZero 0x00000102#32 = false ∧ wordOpcodeAssigned 0x00000102#32 = true ∧
    wordOpcodeAssigned 0x00000006#32 = false ∧ wordRsvdZero 0x00000006#32 = true ∧
    wordWellFormed 0x00000102#32 = false ∧ wordWellFormed 0x00000006#32 = false ∧
    wordWellFormed 0x00000005#32 = true := by decide

/-- The six words of 30_encoding.md rule R92, written bit by bit: RSVD [31:8] then OPCODE [7:0]. -/
theorem test_decode_words :
    decode 0b00000000000000000000000000000000#32 = .command .nop ∧
    decode 0b00000000000000000000000000000001#32 = .command .clearFreq ∧
    decode 0b00000000000000000000000000000010#32 = .command .buildTree ∧
    decode 0b00000000000000000000000000000011#32 = .command .genCodes ∧
    decode 0b00000000000000000000000000000100#32 = .command .encode ∧
    decode 0b00000000000000000000000000000101#32 = .command .decode := by decide

/-- Illegal words of 95_test_vectors.md V6. -/
theorem test_decode_illegal :
    decode 0x00000006#32 = .illegal (.opcodeUnassigned 6#8) ∧ decode 0x000000FF#32 = .illegal (.opcodeUnassigned 255#8) ∧
    decode 0x00000102#32 = .illegal (.rsvdNonzero 1#24) ∧
    decode 0x80000004#32 = .illegal (.rsvdNonzero 0x800000#24) := by decide

/-- The words of opcode_table.json through the host's numbering. -/
theorem test_decodeTableWord :
    (List.range 6).map (decodeTableWord 32) =
      [some .nop, some .clearFreq, some .buildTree, some .genCodes, some .encode, some .decode] := by decide

/-! ### Commands -/

/-- 95_test_vectors.md V6: NOP from the reset state gives STATUS 0x02. -/
theorem test_nop_from_reset :
    (stateOf (step (State.reset.withFetchWord 32 0))).statusWord = 0x02#32 := by decide +kernel

/-- 95_test_vectors.md V6: an illegal word after GEN_CODES gives ERR_CODE 7 and STATUS 0x36. -/
theorem test_illegal_word :
    (stateOf (step (v1Coded.withFetchWord 32 0x102))).errCode = 7#8 ∧
    (stateOf (step (v1Coded.withFetchWord 32 0x102))).statusWord = 0x36#32 := by decide +kernel

/-- 95_test_vectors.md V6: CLEAR_FREQ after GEN_CODES gives STATUS 0x02 and FREQ['a'] = 0, and leaves ROOT at 6. -/
theorem test_clearFreq :
    (stateOf (exec .clearFreq v1Coded)).statusWord = 0x02#32 ∧ (stateOf (exec .clearFreq v1Coded)).freqAt 0x61 = 0#32 ∧
    (stateOf (exec .clearFreq v1Coded)).root = 6#9 := by decide +kernel

/-- 95_test_vectors.md V1: BUILD_TREE gives the seven nodes, NSYM 4, NNODES 7, ROOT 6, STATUS 0x12. -/
theorem test_buildTree_v1 :
    (stateOf (exec .buildTree v1Start)).node = v1Nodes ∧ (stateOf (exec .buildTree v1Start)).nsym = 4#9 ∧
    (stateOf (exec .buildTree v1Start)).nnodes = 7#10 ∧ (stateOf (exec .buildTree v1Start)).root = 6#9 ∧
    (stateOf (exec .buildTree v1Start)).statusWord = 0x12#32 := by decide +kernel

/-- 95_test_vectors.md V4b: at equal count the leaf C is taken before the internal node: node 4 is I(4; 2, 3). -/
theorem test_buildTree_tie :
    (stateOf (exec .buildTree { tiny with freq := dense 256 (fun k =>
      if k = 0x41 ∨ k = 0x42 then 1#32 else if k = 0x43 then 2#32 else 0#32) })).nodeAt 4 =
      ⟨false, 4#40, 0#8, 2#9, 3#9⟩ := by decide +kernel

/-- 95_test_vectors.md V1: GEN_CODES writes a = "1", b = "00", c = "010", d = "011", STATUS 0x32. -/
theorem test_genCodes_v1 :
    [0x61, 0x62, 0x63, 0x64, 0x65].map (stateOf (exec .genCodes v1Built)).codeAt =
      [⟨1#8, 1#255⟩, ⟨2#8, 0#255⟩, ⟨3#8, 2#255⟩, ⟨3#8, 6#255⟩, ⟨0#8, 0#255⟩] ∧
    (stateOf (exec .genCodes v1Built)).statusWord = 0x32#32 := by decide +kernel

/-- 95_test_vectors.md V2f: GEN_CODES from reset gives ERR_CODE 4 and STATUS 0x06. -/
theorem test_genCodes_noTree :
    (stateOf (exec .genCodes State.reset)).errCode = 4#8 ∧
    (stateOf (exec .genCodes State.reset)).statusWord = 0x06#32 := by decide +kernel

/-- 95_test_vectors.md V1: ENCODE of 'a', 'a', 'b' gives "1100", BIT_LEN 4; the other bits of the word stay 1. -/
theorem test_encode_v1 :
    (stateOf (exec .encode (v1Sym 3))).bitWord 0 = 0xFFFFFFF3#32 ∧
    (stateOf (exec .encode (v1Sym 3))).bitLen = 4#32 := by decide +kernel

/-- 95_test_vectors.md V7c (the absent symbol here is SYM[3] = 0): ERR_CODE 2 at its index, BIT_LEN 0. -/
theorem test_encode_absent :
    (stateOf (exec .encode (v1Sym 4))).errCode = 2#8 ∧ (stateOf (exec .encode (v1Sym 4))).errIndex = 3#32 ∧
    (stateOf (exec .encode (v1Sym 4))).bitLen = 0#32 := by decide +kernel

/-- 95_test_vectors.md V10: "0010" decodes 'b', 'a' and then fails at bit 3. -/
theorem test_decode_truncated :
    (stateOf (exec .decode (v1Bit 0x4#32 4))).errCode = 3#8 ∧
    (stateOf (exec .decode (v1Bit 0x4#32 4))).errIndex = 3#32 ∧
    (stateOf (exec .decode (v1Bit 0x4#32 4))).symWord 0 = 0x07076162#32 := by decide +kernel

/-- 95_test_vectors.md V12c and V12f: overflow at the bit that completes the symbol that does not fit. -/
theorem test_decode_overflow :
    (stateOf (exec .decode (v1Bit 0x1F#32 5))).errIndex = 4#32 ∧
    (stateOf (exec .decode (v1Bit 0x0F#32 6))).errIndex = 5#32 ∧
    (stateOf (exec .decode (v1Bit 0x0F#32 6))).errCode = 6#8 := by decide +kernel

/-- 95_test_vectors.md V5: "101" decodes to 'x', 'x', 'x' in a single-leaf tree (decision D26). -/
theorem test_decode_single :
    (stateOf (exec .decode (xCoded 0 3))).symLen = 3#32 ∧ (stateOf (exec .decode (xCoded 0 3))).errCode = 0#8 := by
  decide +kernel

/-! ### Host accesses -/

/-- 95_test_vectors.md V13: reads of the constants, of CMD, of reserved offsets and beyond the buffers. -/
theorem test_reads :
    [0x000#16, 0x003#16, 0x004#16, 0x008#16, 0x00C#16, 0x010#16, 0x038#16, 0x1FFC#16, 0x3FF0#16, 0x5864#16, 0x9000#16,
      0xD000#16].map ref.readValue =
    [0x48554646#32, 0x48554646#32, 0x00010000#32, 0x00001000#32, 0x00008000#32, 0#32, 0#32, 0#32, 0#32, 0#32, 0#32,
      0#32] := by decide +kernel

/-- 95_test_vectors.md V1 and P4: the words of the NODE and CODE windows. -/
theorem test_windows :
    [0x2060#16, 0x206C#16, 0x2008#16, 0x5840#16, 0x5844#16, 0x58C4#16, 0x5904#16].map v1Coded.readValue =
    [9#32, 5#32, 0x80000061#32, 1#32, 1#32, 2#32, 6#32] := by decide +kernel

/-- 95_test_vectors.md V13: the W1C write of STATUS 0x3E leaves 0x30 of it (40_host_access.md rule R114). -/
theorem test_statusWrite :
    (State.hostWrite { v1Coded with error := true, reject := true } 0x014#16 0xFFFFFFFF#32).statusWord = 0x30#32 ∧
    (State.hostWrite { v1Coded with error := true, reject := true } 0x014#16 0x00000006#32).statusWord = 0x38#32 := by
  decide +kernel

/-- 95_test_vectors.md V13: SYM lanes of WR 0x8000, 0x00626161, and a FREQ write of the same value invalidates. -/
theorem test_writes :
    [0, 1, 2, 3].map (v1Coded.hostWrite 0x8000#16 0x00626161#32).symAt = [0x61#8, 0x61#8, 0x62#8, 0#8] ∧
    (v1Coded.hostWrite 0x584#16 5#32).statusWord = 0x02#32 ∧ (ref.hostWrite 0x020#16 0xFFFFFFFF#32).irqEn = 7#3 := by
  decide +kernel

/-- 95_test_vectors.md V14: writes while busy are rejected, and the pending command stays BUILD_TREE. -/
theorem test_busy_rejects :
    (v1Busy.hostWrite 0x584#16 9#32).statusWord = 0x09#32 ∧ (v1Busy.hostWrite 0x584#16 9#32).freqAt 0x61 = 5#32 ∧
    (v1Busy.hostWrite 0x010#16 3#32).pending = some 2#32 ∧ (v1Busy.readValue 0x014#16) = 0x01#32 := by decide +kernel

/-- 95_test_vectors.md V14: IRQ_EN against STATUS 0x1A: 0 gives 0, 1 gives 1, 2 gives 0, 4 gives 1. -/
theorem test_irq :
    [0#3, 1#3, 2#3, 4#3].map (fun e => State.irq { v1Built with reject := true, irqEn := e }) =
      [false, true, false, true] := by decide +kernel

/-- 70_reset_and_hazards.md rule R261: a reset while busy gives STATUS 0 and forgets the command. -/
theorem test_reset_event :
    (stateOf (step { v1Busy with inputs := [.reset] })).statusWord = 0#32 ∧
    (stateOf (step { v1Busy with inputs := [.reset] })).freq = [] := by decide +kernel

/-! ### Witnesses: the hypotheses of the statements can be met

Each theorem is named after the statement (Certificates/Slice0/Obligations.lean) whose hypotheses it meets. -/

theorem v1_tree : TreeMatches v1Built := by decide +kernel
theorem x_tree : TreeMatches (xCoded 0 0) := by decide +kernel

/-- A state that reads V1's FREQ and tree holds V1's tree. -/
theorem v1_tree_of {t : State} (hf : SameFreq v1Built t) (ht : SameTree v1Built t) : TreeMatches t :=
  treeMatches_of_same hf ht v1_tree

theorem v1Bit_tree (bits : Word) (n : Nat) : TreeMatches (v1Bit bits n) :=
  v1_tree_of (fun _ => rfl) ⟨fun _ => rfl, rfl, rfl, rfl, rfl⟩

theorem v1Coded_tree : TreeMatches v1Coded := v1_tree_of (fun _ => rfl) ⟨fun _ => rfl, rfl, rfl, rfl, rfl⟩

theorem v1Sym_tree (n : Nat) : TreeMatches (v1Sym n) :=
  v1_tree_of (fun _ => rfl) ⟨fun _ => rfl, rfl, rfl, rfl, rfl⟩

theorem xCoded_tree (m n : Nat) : TreeMatches (xCoded m n) :=
  treeMatches_of_same (s := xCoded 0 0) (fun _ => rfl) ⟨fun _ => rfl, rfl, rfl, rfl, rfl⟩ x_tree

theorem v1_codes : CodesMatch v1Coded := by decide +kernel

theorem v1Sym_codes (n : Nat) : CodesMatch (v1Sym n) :=
  codesMatch_of_same (s := v1Coded) (fun _ => rfl) ⟨fun _ => rfl, rfl, rfl, rfl, rfl⟩ ⟨fun _ => rfl, rfl⟩ v1_codes

/-- V1's nodes in canonical form. -/
theorem v1Nodes_wf : Memory.wf 511 v1Nodes := by decide

theorem v1Start_inv : Inv v1Start :=
  ⟨⟨dense_wf _ le_rfl, by decide, by decide, by decide, by decide⟩, by decide, fun h => absurd h (by decide),
    fun h => absurd h (by decide)⟩

theorem v1Built_inv : Inv v1Built :=
  ⟨⟨dense_wf _ le_rfl, v1Nodes_wf, by decide, by decide, by decide⟩, by decide, fun _ => v1_tree,
    fun h => absurd h (by decide)⟩

theorem v1Sym_inv : Inv (v1Sym 3) :=
  ⟨⟨dense_wf _ le_rfl, v1Nodes_wf, dense_wf _ le_rfl, by decide, dense_wf _ (by decide)⟩, by decide, fun _ => v1Sym_tree 3,
    fun _ => v1Sym_codes 3⟩

theorem witness_DecodeInvertsEncode :
    [Instr.nop, .clearFreq, .buildTree, .genCodes, .encode, .decode].map Instr.wellFormed = List.replicate 6 true := by
  decide

theorem witness_StepRunsPendingCommand :
    v1Busy.pending = some 2#32 ∧ decode 2#32 = .command .buildTree ∧ v1Busy.inputs = [] ∧
    State.inputs { v1Busy with inputs := [.engine] } = .engine :: [] := by decide +kernel

theorem witness_StepPerformsHostAccess :
    State.inputs { v1Start with inputs := [.read 0#16] } = .read 0#16 :: [] ∧
    State.inputs { v1Start with inputs := [.write 0#16 0#32] } = .write 0#16 0#32 :: [] ∧
    State.inputs { v1Start with inputs := [.engine] } = .engine :: [] ∧ v1Start.busy = false ∧ v1Start.inputs = [] := by
  decide +kernel

/-- Both clauses of illegality, each at its boundary words. -/
theorem witness_IllegalWordOnlyCompletes :
    State.pending { v1Busy with pending := some 0x00000006#32 } = some 0x00000006#32 ∧
    6 ≤ (0x00000006#32 : Word).toNat % 256 ∧ (0x00000006#32 : Word).toNat / 256 = 0 ∧
    6 ≤ (0x000000FF#32 : Word).toNat % 256 ∧ (0x00000100#32 : Word).toNat / 256 ≠ 0 ∧
    (0xFFFFFFFF#32 : Word).toNat / 256 ≠ 0 := by decide +kernel

theorem witness_ResetLeavesTheResetState :
    State.inputs { v1Busy with inputs := [.reset, .engine] } = .reset :: [.engine] := by decide +kernel

theorem witness_OnlyResetAbandonsACommand :
    (State.busy { v1Busy with inputs := [.reset] } = true ∧
      step { v1Busy with inputs := [.reset] } = .next (stateOf (step { v1Busy with inputs := [.reset] })) ∧
      (State.inputs { v1Busy with inputs := [.reset] }).head? = some .reset) ∧
    (v1Busy.busy = true ∧ step v1Busy = .next (stateOf (step v1Busy)) ∧ v1Busy.inputs.head? ≠ some .reset ∧
      (stateOf (step v1Busy)).busy = false) :=
  ⟨⟨by decide +kernel, eq_next_stateOf (by decide +kernel), by decide +kernel⟩,
    by decide +kernel, eq_next_stateOf (by decide +kernel), by decide +kernel, by decide +kernel⟩

theorem witness_CmdWriteAcceptsOrRejects :
    wordOffset 0x010#16 = 0x010 ∧ wordOffset 0x013#16 = 0x010 ∧ v1Busy.busy = true ∧ v1Start.busy = false := by
  decide +kernel

/-- Every clause of GUARDED at its ends. -/
theorem witness_GuardedWritesAreRejectedWhileBusy :
    v1Busy.busy = true ∧ State.irqEn { v1Busy with irqEn := 4#3 } = 4#3 ∧ (4#3 : BitVec 3).getLsbD 2 = true ∧
    [0x030#16, 0x034#16, 0x0400#16, 0x07FF#16, 0x8000#16, 0xBFFF#16, 0xC000#16, 0xFFFF#16].all
      (fun a => decide (GuardedOffset (wordOffset a))) = true := by decide +kernel

theorem witness_StatusWriteClearsNamedBits : wordOffset 0x014#16 = 0x014 ∧ wordOffset 0x017#16 = 0x014 := by decide

theorem witness_IrqEnWriteStoresThreeBits : wordOffset 0x020#16 = 0x020 ∧ wordOffset 0x023#16 = 0x020 := by decide

theorem witness_FreqWriteStoresAndInvalidates :
    v1Coded.busy = false ∧ 0 < 256 ∧ wordOffset 0x0400#16 = 0x0400 + 4 * 0 ∧ 255 < 256 ∧
    wordOffset 0x07FF#16 = 0x0400 + 4 * 255 := by decide +kernel

/-- Both windows, inside and beyond the buffer, at the ends. -/
theorem witness_SymAndBitWindowWrites :
    tiny.busy = false ∧
    (wordOffset 0x8000#16 = 0x8000 + 4 * 0 ∧ 0 < tiny.params.symDepth / 4) ∧
    (wordOffset 0x8004#16 = 0x8000 + 4 * 1 ∧ tiny.params.symDepth / 4 ≤ 1) ∧
    (wordOffset 0xBFFC#16 = 0x8000 + 4 * 4095) ∧
    (wordOffset 0xC000#16 = 0xC000 + 4 * 0 ∧ 0 < tiny.params.bitDepth / 32) ∧
    (wordOffset 0xC004#16 = 0xC000 + 4 * 1 ∧ tiny.params.bitDepth / 32 ≤ 1) ∧
    (wordOffset 0xFFFC#16 = 0xC000 + 4 * 4095) := by decide +kernel

theorem witness_LengthWritesStoreTheWord :
    v1Coded.busy = false ∧ wordOffset 0x030#16 = 0x030 ∧ wordOffset 0x034#16 = 0x034 := by decide +kernel

/-- Every clause at its ends. -/
theorem witness_ReadOnlyAndReservedWritesDoNothing :
    [0x000#16, 0x004#16, 0x008#16, 0x00C#16, 0x018#16, 0x01C#16, 0x024#16, 0x028#16, 0x02C#16, 0x2000#16,
      0x3FFF#16, 0x4000#16, 0x7FFF#16, 0x038#16, 0x03FF#16, 0x0800#16, 0x1FFF#16].all
      (fun a => decide (NoEffectOffset (wordOffset a))) = true := by
  decide +kernel

theorem witness_LowOffsetBitsAreIgnored : wordOffset 0x0400#16 = wordOffset 0x0403#16 := by decide

/-- Every clause of the busy reads, at the ends of the ranges. -/
theorem witness_ReadsWhileBusy :
    v1Busy.busy = true ∧
    ([0x018#16, 0x01C#16, 0x024#16, 0x028#16, 0x02C#16, 0x030#16, 0x034#16, 0x0400#16, 0x07FF#16, 0x2000#16,
      0x3FFF#16, 0x4000#16, 0x7FFF#16, 0x8000#16, 0xBFFF#16, 0xC000#16, 0xFFFF#16].all
      (fun a => decide (ResultOrWindowOffset (wordOffset a))) = true) ∧
    ([0x000#16, 0x004#16, 0x008#16, 0x00C#16, 0x010#16, 0x014#16, 0x020#16, 0x038#16, 0x03FF#16, 0x0800#16,
      0x1FFF#16].all
      (fun a => decide (¬ ResultOrWindowOffset (wordOffset a))) = true) ∧
    ([0x038#16, 0x03FF#16, 0x0800#16, 0x1FFF#16].all
      (fun a => decide (ReservedOffset (wordOffset a))) = true) := by decide +kernel

/-- Every clause of the idle reads. -/
theorem witness_ReadsWhileIdle :
    v1Coded.busy = false ∧
    [0x000#16, 0x004#16, 0x008#16, 0x00C#16, 0x010#16, 0x014#16, 0x018#16, 0x01C#16, 0x020#16, 0x024#16, 0x028#16,
      0x02C#16, 0x030#16, 0x034#16].map wordOffset = (List.range 14).map (4 * ·) ∧
    wordOffset 0x0400#16 = 0x0400 + 4 * 0 ∧ wordOffset 0x07FC#16 = 0x0400 + 4 * 255 ∧
    ([0x038#16, 0x03FF#16, 0x0800#16, 0x1FFF#16].all
      (fun a => decide (ReservedOffset (wordOffset a))) = true) := by decide +kernel

theorem witness_NodeWindowShowsTheArena :
    v1Coded.busy = false ∧ wordOffset 0x2000#16 = 0x2000 + 16 * 0 + 4 * 0 ∧
    wordOffset 0x3FEC#16 = 0x2000 + 16 * 510 + 4 * 3 ∧ wordOffset 0x3FF0#16 = 0x2000 + 16 * 511 + 4 * 0 ∧
    wordOffset 0x3FFF#16 = 0x2000 + 16 * 511 + 4 * 3 := by decide +kernel

theorem witness_CodeWindowShowsTheCodes :
    v1Coded.busy = false ∧ wordOffset 0x4000#16 = 0x4000 + 64 * 0 + 4 * 0 ∧
    wordOffset 0x4004#16 = 0x4000 + 64 * 0 + 4 * 1 ∧ wordOffset 0x7FE0#16 = 0x4000 + 64 * 255 + 4 * 8 ∧
    wordOffset 0x7FE4#16 = 0x4000 + 64 * 255 + 4 * 9 ∧ wordOffset 0x7FFF#16 = 0x4000 + 64 * 255 + 4 * 15 := by
  decide +kernel

theorem witness_SymAndBitWindowReads :
    tiny.busy = false ∧ (wordOffset 0x8000#16 = 0x8000 + 4 * 0 ∧ 0 < tiny.params.symDepth / 4) ∧
    (wordOffset 0x8004#16 = 0x8000 + 4 * 1 ∧ tiny.params.symDepth / 4 ≤ 1) ∧
    (wordOffset 0xC000#16 = 0xC000 + 4 * 0 ∧ 0 < tiny.params.bitDepth / 32) ∧
    (wordOffset 0xFFFC#16 = 0xC000 + 4 * 4095 ∧ tiny.params.bitDepth / 32 ≤ 4095) := by decide +kernel

theorem witness_ReadAfterWriteReturnsTheWord :
    ref.busy = false ∧ (0x0400 ≤ wordOffset 0x0400#16 ∧ wordOffset 0x07FF#16 ≤ 0x07FC) ∧
    (0x8000 ≤ wordOffset 0x8FFF#16 ∧ wordOffset 0x8FFF#16 < 0x8000 + ref.params.symDepth) ∧
    (0xC000 ≤ wordOffset 0xCFFF#16 ∧ wordOffset 0xCFFF#16 < 0xC000 + ref.params.bitDepth / 8) ∧
    wordOffset 0x030#16 = 0x030 ∧ wordOffset 0x034#16 = 0x034 ∧ wordOffset 0x020#16 = 0x020 := by decide +kernel

theorem witness_BuildTreeFailsOnEmptyAlphabet :
    ∀ k < 256, State.freqAt { tiny with freq := dense 256 (fun _ => 0#32) } k = 0#32 := by decide +kernel

theorem witness_BuildTreeStoresTheGreedyTree : ∃ k < 256, v1Start.freqAt k ≠ 0#32 := ⟨0x61, by decide, by decide +kernel⟩

/-- Of BuiltTreeIsStrictBinary, BuiltFrequenciesAreExact and TiesGoToTheLowerIndex: a successful build. -/
theorem witness_successful_build :
    exec .buildTree v1Start = .next v1Start.buildTree ∧ v1Start.buildTree.errCode = 0#8 := ⟨rfl, by decide +kernel⟩

/-- The tie of 'c' and 'd' in V1: both are children of node 4. -/
theorem witness_TiesGoToTheLowerIndex :
    2 < 3 ∧ 4 < v1Built.nnodes.toNat ∧ (v1Built.nodeAt 4).leaf = false ∧ IsChild v1Built.nodeAt 4 2 ∧
    IsChild v1Built.nodeAt 4 3 ∧ (v1Built.nodeAt 2).freq.toNat ≤ (v1Built.nodeAt 3).freq.toNat ∧
    v1Start.buildTree.node = v1Built.node := by decide +kernel

theorem witness_BuildDependsOnFreqAlone : ∀ k < 256, v1Start.freqAt k = v1Coded.freqAt k := by decide +kernel

/-- The prefix-free codes of the source's own example (95_test_vectors.md E1): a 0, b 10, c 110, d 111. -/
def e1Code : Nat → List Bool
  | 0x61 => [false]
  | 0x62 => [true, false]
  | 0x63 => [true, true, false]
  | _ => [true, true, true]

theorem witness_CodeLengthsAreOptimal :
    TreeMatches v1Coded ∧ CodesMatch v1Coded ∧ (∀ x ∈ presentSymbols v1Coded, e1Code x ≠ []) ∧
    (∀ x ∈ presentSymbols v1Coded, ∀ y ∈ presentSymbols v1Coded, x ≠ y → ¬ e1Code x <+: e1Code y) :=
  ⟨v1Coded_tree, v1_codes, by decide +kernel, by decide +kernel⟩

theorem witness_GenCodesNeedsATree : v1Start.treeValid = false ∧ Inv v1Start := ⟨rfl, v1Start_inv⟩

theorem witness_GenCodesWritesThePaths : v1Built.treeValid = true ∧ TreeMatches v1Built := ⟨rfl, v1_tree⟩

/-- Of CodesArePrefixFree, CodeLengthsAreBounded and GenCodesFrame. -/
theorem witness_successful_genCodes :
    Inv v1Built ∧ exec .genCodes v1Built = .next (stateOf (exec .genCodes v1Built)) ∧
    (stateOf (exec .genCodes v1Built)).errCode = 0#8 :=
  ⟨v1Built_inv, eq_next_stateOf (by decide +kernel), by decide +kernel⟩

/-- The failing case of GenCodesFrame. -/
theorem witness_failed_genCodes :
    exec .genCodes v1Start = .next (stateOf (exec .genCodes v1Start)) ∧
    (stateOf (exec .genCodes v1Start)).errCode ≠ 0#8 :=
  ⟨eq_next_stateOf (by decide +kernel), by decide +kernel⟩

/-- Both preconditions, BAD_LENGTH at the first length that is too long. -/
theorem witness_EncodeChecksItsPreconditions :
    v1Built.codesValid = false ∧ (v1Sym 5).codesValid = true ∧ (v1Sym 5).params.symDepth < (v1Sym 5).symLen.toNat := by
  decide +kernel

theorem witness_EncodeConcatenatesCodes :
    (v1Sym 3).codesValid = true ∧ (v1Sym 3).symLen.toNat ≤ (v1Sym 3).params.symDepth ∧
    (∀ j < (v1Sym 3).symLen.toNat, codeLen (v1Sym 3) ((v1Sym 3).symAt j).toNat ≠ 0) ∧
    codeStart (v1Sym 3) (v1Sym 3).symLen.toNat ≤ (v1Sym 3).params.bitDepth := by decide +kernel

theorem witness_EncodeStopsAtAbsentSymbol :
    (v1Sym 4).codesValid = true ∧ (v1Sym 4).symLen.toNat ≤ (v1Sym 4).params.symDepth ∧ 3 < (v1Sym 4).symLen.toNat ∧
    (∀ j < 3, codeLen (v1Sym 4) ((v1Sym 4).symAt j).toNat ≠ 0) ∧
    codeStart (v1Sym 4) 3 ≤ (v1Sym 4).params.bitDepth ∧ codeLen (v1Sym 4) ((v1Sym 4).symAt 3).toNat = 0 := by
  decide +kernel

/-- 95_test_vectors.md V8: P_BIT_DEPTH = 32 and 11 symbols 'c': SYM[10] needs bits 30 to 32. -/
def v8 : State := { v1Coded with params := ⟨2, 0⟩, sym := dense 12 (fun _ => 0x63#8), symLen := 11#32 }

theorem witness_EncodeStopsAtFullBuffer :
    v8.codesValid = true ∧ v8.symLen.toNat ≤ v8.params.symDepth ∧ 10 < v8.symLen.toNat ∧
    (∀ j ≤ 10, codeLen v8 (v8.symAt j).toNat ≠ 0) ∧ codeStart v8 10 ≤ v8.params.bitDepth ∧
    v8.params.bitDepth < codeStart v8 (10 + 1) := by decide +kernel

theorem test_encode_overflow :
    (stateOf (exec .encode v8)).errCode = 6#8 ∧ (stateOf (exec .encode v8)).errIndex = 10#32 := by decide +kernel

theorem witness_SingleSymbolEncodesToZeros :
    (xCoded 3 0).codesValid = true ∧ CodesMatch (xCoded 3 0) ∧ presentSymbols (xCoded 3 0) = [0x78] ∧
    (xCoded 3 0).symLen.toNat ≤ (xCoded 3 0).params.symDepth ∧
    (xCoded 3 0).symLen.toNat ≤ (xCoded 3 0).params.bitDepth ∧
    (∀ j < (xCoded 3 0).symLen.toNat, ((xCoded 3 0).symAt j).toNat = 0x78) := by decide +kernel

/-- Two different states that agree on ENCODE's inputs. -/
theorem witness_EncodeIsPure :
    (v1Sym 3).codesValid = true ∧ (v1Sym 3).symLen = State.symLen { v1Sym 3 with freq := [] } ∧
    (∀ j < (v1Sym 3).params.symDepth, (v1Sym 3).symAt j = State.symAt { v1Sym 3 with freq := [] } j) ∧
    (∀ x < 256, (v1Sym 3).codeAt x = State.codeAt { v1Sym 3 with freq := [] } x) ∧
    v1Sym 3 ≠ { v1Sym 3 with freq := [] } := by decide +kernel

/-- Of EncodeFrame, both outcomes, and of FailedCommandsKeepTreeAndInputs. -/
theorem witness_EncodeFrame :
    (exec .encode (v1Sym 3) = .next (v1Sym 3).encode ∧ (v1Sym 3).encode.errCode = 0#8) ∧
    (exec .encode (v1Sym 4) = .next (v1Sym 4).encode ∧ (v1Sym 4).encode.errCode ≠ 0#8) :=
  ⟨⟨rfl, by decide +kernel⟩, rfl, by decide +kernel⟩

theorem witness_DecodeChecksItsPreconditions :
    v1Start.treeValid = false ∧ (v1Bit 0#32 33).treeValid = true ∧
    (v1Bit 0#32 33).params.bitDepth < (v1Bit 0#32 33).bitLen.toNat := by decide +kernel

/-- The codewords of "1100" on V1's tree: 'a' = "1", 'a' = "1", 'b' = "00". -/
def aab : List (List Bool × Nat) := [([true], 0), ([true], 0), ([false, false], 1)]

theorem witness_DecodeReadsWholeCodewords :
    (v1Bit 3#32 4).treeValid = true ∧ TreeMatches (v1Bit 3#32 4) ∧
    (v1Bit 3#32 4).bitLen.toNat ≤ (v1Bit 3#32 4).params.bitDepth ∧ (∀ c ∈ aab, IsCodeword (v1Bit 3#32 4) c.1 c.2) ∧
    aab.length ≤ (v1Bit 3#32 4).params.symDepth ∧
    (List.range (v1Bit 3#32 4).bitLen.toNat).map (v1Bit 3#32 4).bitAt = (aab.map Prod.fst).flatten :=
  ⟨rfl, v1Bit_tree _ _, by decide +kernel, by decide +kernel, by decide +kernel, by decide +kernel⟩

/-- "110" ends after the 0 of 'b': node 5 is reached. -/
theorem witness_DecodeReportsTruncation :
    ((v1Bit 3#32 3).treeValid = true ∧ TreeMatches (v1Bit 3#32 3) ∧
      (v1Bit 3#32 3).bitLen.toNat ≤ (v1Bit 3#32 3).params.bitDepth ∧
      (∀ c ∈ aab.take 2, IsCodeword (v1Bit 3#32 3) c.1 c.2) ∧
      (aab.take 2).length ≤ (v1Bit 3#32 3).params.symDepth ∧ [false] ≠ [] ∧
      descend (v1Bit 3#32 3).nodeAt (v1Bit 3#32 3).root.toNat [false] = some 5 ∧
      ((v1Bit 3#32 3).nodeAt 5).leaf = false ∧
      (List.range (v1Bit 3#32 3).bitLen.toNat).map (v1Bit 3#32 3).bitAt =
        ((aab.take 2).map Prod.fst).flatten ++ [false]) ∧
    (TreeMatches (xCoded 0 3) ∧ leafCount (xCoded 0 3) = 1 ∧ isNext (exec .decode (xCoded 0 3)) = true) :=
  ⟨⟨rfl, v1Bit_tree _ _, by decide +kernel, by decide +kernel, by decide +kernel, by decide +kernel, by decide +kernel,
      by decide +kernel, by decide +kernel⟩, xCoded_tree _ _, by decide +kernel, by decide +kernel⟩

/-- 95_test_vectors.md V12f: P_SYM_DEPTH = 4, "111100": the fifth symbol 'b' does not fit. -/
theorem witness_DecodeReportsOverflow :
    (v1Bit 0xF#32 6).treeValid = true ∧ TreeMatches (v1Bit 0xF#32 6) ∧
    (v1Bit 0xF#32 6).bitLen.toNat ≤ (v1Bit 0xF#32 6).params.bitDepth ∧
    (∀ c ∈ List.replicate 4 ([true], 0), IsCodeword (v1Bit 0xF#32 6) c.1 c.2) ∧
    (List.replicate 4 (([true], 0) : List Bool × Nat)).length = (v1Bit 0xF#32 6).params.symDepth ∧
    IsCodeword (v1Bit 0xF#32 6) [false, false] 1 ∧
    (List.range (v1Bit 0xF#32 6).bitLen.toNat).map (v1Bit 0xF#32 6).bitAt =
      ((List.replicate 4 (([true], 0) : List Bool × Nat)).map Prod.fst).flatten ++ [false, false] ++ [] :=
  ⟨rfl, v1Bit_tree _ _, by decide +kernel, by decide +kernel, by decide +kernel, by decide +kernel, by decide +kernel⟩

/-- Both clauses where they meet: 4 bits fit in P_SYM_DEPTH = 4, 5 do not. -/
theorem witness_SingleLeafDecodesEveryBit :
    (xCoded 0 4).treeValid = true ∧ TreeMatches (xCoded 0 4) ∧ presentSymbols (xCoded 0 4) = [0x78] ∧
    (xCoded 0 4).bitLen.toNat ≤ (xCoded 0 4).params.bitDepth ∧
    (xCoded 0 4).bitLen.toNat ≤ (xCoded 0 4).params.symDepth ∧
    TreeMatches (xCoded 0 5) ∧ (xCoded 0 5).params.symDepth < (xCoded 0 5).bitLen.toNat ∧
    (xCoded 0 5).bitLen.toNat ≤ (xCoded 0 5).params.bitDepth :=
  ⟨rfl, xCoded_tree _ _, by decide +kernel, by decide +kernel, by decide +kernel, xCoded_tree _ _, by decide +kernel, by decide +kernel⟩

theorem witness_DecodeIsNeverUndefined :
    (v1Bit 3#32 32).treeValid = true ∧ TreeMatches (v1Bit 3#32 32) ∧
    (v1Bit 3#32 32).bitLen.toNat ≤ (v1Bit 3#32 32).params.bitDepth := ⟨rfl, v1Bit_tree _ _, by decide +kernel⟩

/-- Of DecodeFrame, both outcomes. -/
theorem witness_DecodeFrame :
    (exec .decode (v1Bit 3#32 4) = .next (stateOf (exec .decode (v1Bit 3#32 4))) ∧
      (stateOf (exec .decode (v1Bit 3#32 4))).errCode = 0#8) ∧
    (exec .decode (v1Bit 3#32 3) = .next (stateOf (exec .decode (v1Bit 3#32 3))) ∧
      (stateOf (exec .decode (v1Bit 3#32 3))).errCode ≠ 0#8) :=
  ⟨⟨eq_next_stateOf (by decide +kernel), by decide +kernel⟩, eq_next_stateOf (by decide +kernel), by decide +kernel⟩

/-- The later state is the encoder's own result with the input erased (95_test_vectors.md P1, line 28). -/
theorem witness_DecodeInvertsEncodeOfSymbols :
    Inv (v1Sym 3) ∧ exec .encode (v1Sym 3) = .next (v1Sym 3).encode ∧ (v1Sym 3).encode.errCode = 0#8 ∧
    SameTree (v1Sym 3).encode { (v1Sym 3).encode with sym := [] } ∧
    SameBits (v1Sym 3).encode { (v1Sym 3).encode with sym := [] } ∧
    State.params { (v1Sym 3).encode with sym := [] } = (v1Sym 3).encode.params :=
  ⟨v1Sym_inv, rfl, by decide +kernel, ⟨fun _ => rfl, rfl, rfl, rfl, rfl⟩, ⟨fun _ => rfl, rfl⟩, rfl⟩

/-- The encoding "1100" of 'a', 'a', 'b' cut at 2, on the boundary before 'b', and at 3, inside 'b'. -/
theorem witness_PrefixOfAnEncodingDecodes :
    Inv (v1Sym 3) ∧ exec .encode (v1Sym 3) = .next (v1Sym 3).encode ∧ (v1Sym 3).encode.errCode = 0#8 ∧
    (∀ n, SameTree (v1Sym 3).encode { (v1Sym 3).encode with bitLen := n } ∧
      (∀ k, State.bitAt { (v1Sym 3).encode with bitLen := n } k = (v1Sym 3).encode.bitAt k) ∧
      State.params { (v1Sym 3).encode with bitLen := n } = (v1Sym 3).encode.params) ∧
    2 < (v1Sym 3).symLen.toNat ∧ codeStart (v1Sym 3) 2 = (2#32 : Word).toNat ∧
    codeStart (v1Sym 3) 2 < (3#32 : Word).toNat ∧ (3#32 : Word).toNat < codeStart (v1Sym 3) (2 + 1) :=
  ⟨v1Sym_inv, rfl, by decide +kernel, fun _ => ⟨⟨fun _ => rfl, rfl, rfl, rfl, rfl⟩, fun _ => rfl, rfl⟩,
    by decide +kernel, by decide +kernel, by decide +kernel, by decide +kernel⟩

/-- A busy state that meets the invariant and steps: of StepKeepsInvariant and InvariantStatesNeverStop. -/
theorem witness_StepKeepsInvariant :
    Inv v1Busy ∧ step v1Busy = .next (stateOf (step v1Busy)) ∧ v1Busy.busy = true ∧ engineTurn v1Busy = true :=
  ⟨⟨⟨dense_wf _ le_rfl, by decide, by decide, by decide, by decide⟩, by decide, fun h => absurd h (by decide),
      fun h => absurd h (by decide)⟩,
    eq_next_stateOf (by decide +kernel), by decide +kernel, by decide +kernel⟩

/-- A step that runs ENCODE, and one that runs GEN_CODES. -/
theorem witness_OnlyTreeCommandsChangeTheTree :
    commandRun { v1Sym 3 with pending := some 4#32 } = some .encode ∧
    commandRun { v1Built with pending := some 3#32 } = some .genCodes ∧
    isNext (step { v1Sym 3 with pending := some 4#32 }) = true ∧ (v1Sym 3).inputs = [] := by decide +kernel

theorem witness_FailedCommandsKeepTreeAndInputs :
    exec .encode (v1Sym 4) = .next (v1Sym 4).encode ∧ (v1Sym 4).encode.errCode ≠ 0#8 ∧
    Instr.encode ≠ .buildTree ∧ Instr.encode ≠ .decode := ⟨rfl, by decide +kernel, by decide, by decide⟩

end Sys2Proof.Tests
end

/-! Host reads by offset: the address map over `wordOffset`, and what a read returns (40_host_access.md rule R110). -/

namespace Sys2Proof.Safety

open Sys2Proof.Machine

/-! ### The address map (20_memory.md rules R61 and R69) -/

/-- The map's aligned offset is the offset with bits [1:0] cleared. -/
theorem alignOffset_eq (addr : Offset) : alignOffset addr = wordOffset addr := by
  have := addr.isLt
  rw [alignOffset, wordOffset, BitVec.extractLsb'_toNat, Nat.shiftRight_eq_div_pow]
  omega

theorem targetOf_eq (addr : Offset) : targetOf addr = targetAt (wordOffset addr) := by
  rw [targetOf, alignOffset_eq]

/-- RESULT_OR_WINDOW by target and by offset agree. -/
theorem resultOrWindow_targetAt_iff (o : Nat) : resultOrWindow (targetAt o) = true ↔ ResultOrWindowOffset o := by
  simp only [targetAt, apply_ite resultOrWindow]
  simp only [resultOrWindow, ite_eq_iff, reduceCtorEq, and_false, false_or, or_false, and_true]
  omega

theorem targetAt_reserved {o : Nat} (h : ReservedOffset o) : targetAt o = .reserved := by
  simp only [targetAt, ite_eq_iff, reduceCtorEq, and_false, false_or, and_true]
  omega

theorem targetAt_freq {x : Nat} (hx : x < 256) : targetAt (0x0400 + 4 * x) = .freq x := by
  simp only [targetAt, ite_eq_iff, reduceCtorEq, Target.freq.injEq, and_false, false_or, or_false]
  omega

/-- The FREQ window has 256 entries (20_memory.md rule R62). -/
theorem targetAt_freq_lt {o k : Nat} (h : targetAt o = .freq k) : k < 256 := by
  simp only [targetAt, ite_eq_iff, reduceCtorEq, Target.freq.injEq, and_false, false_or, or_false] at h
  omega

/-! ### Reads -/

section
variable {s : State} {addr : Offset} {o : Nat} {T : Target}

theorem readIsDrawn_iff :
    s.readIsDrawn addr = true ↔ s.busy = true ∧ ResultOrWindowOffset (wordOffset addr) := by
  rw [State.readIsDrawn, Bool.and_eq_true, targetOf_eq, resultOrWindow_targetAt_iff]

/-- A read of a result or a window while BUSY draws the next free value (10_state.md rule R55). -/
theorem hostRead_drawn (hb : s.busy = true) (ho : ResultOrWindowOffset (wordOffset addr)) :
    (s.hostRead addr).rdata = Config.busyRead s.draws ∧ (s.hostRead addr).draws = s.draws + 1 := by
  have hd := readIsDrawn_iff.mpr ⟨hb, ho⟩
  rw [hostRead_rdata, hostRead_draws, State.readValue, if_pos hd, if_pos hd]
  exact ⟨rfl, rfl⟩

/-- A read outside the results and windows draws nothing. -/
theorem hostRead_draws_of_not (ho : ¬ ResultOrWindowOffset (wordOffset addr)) : (s.hostRead addr).draws = s.draws := by
  rw [hostRead_draws, if_neg fun hd => ho (readIsDrawn_iff.mp hd).2]

/-- A read while idle, or outside the results and windows, returns the word of its target. -/
theorem hostRead_rdata_eq (hw : wordOffset addr = o) (ho : s.busy = false ∨ ¬ ResultOrWindowOffset o)
    (hT : targetAt o = T) : (s.hostRead addr).rdata = s.targetWord T := by
  subst hw hT
  have hd : ¬ s.readIsDrawn addr = true := by
    rw [readIsDrawn_iff]
    rintro ⟨hb, hr⟩
    exact ho.elim (by simp [hb]) (absurd hr)
  rw [hostRead_rdata, State.readValue, if_neg hd, targetOf_eq]

/-- The reserved offsets are no results and no windows. -/
theorem not_resultOrWindow_of_reserved (h : ReservedOffset o) : ¬ ResultOrWindowOffset o := by omega

end

/-! ### The words of the registers -/

section
variable (s : State)

theorem symDepth_le (p : Params) : p.symDepth ≤ 16384 := by
  have := p.symWords.isLt
  rw [Params.symDepth]
  omega

theorem bitDepth_le (p : Params) : p.bitDepth ≤ 131072 := by
  have := p.bitWords.isLt
  rw [Params.bitDepth]
  omega

theorem targetWord_paramSym_toNat : (s.targetWord .paramSym).toNat = s.params.symDepth :=
  Nat.mod_eq_of_lt (by have := symDepth_le s.params; omega)

theorem targetWord_paramBit_toNat : (s.targetWord .paramBit).toNat = s.params.bitDepth :=
  Nat.mod_eq_of_lt (by have := bitDepth_le s.params; omega)

theorem targetWord_irqEn_toNat : (s.targetWord .irqEn).toNat = s.irqEn.toNat :=
  BitVec.toNat_setWidth_of_le (by decide)

/-- The layout of STATUS (10_state.md rule R28). -/
theorem statusWord_toNat : s.statusWord.toNat = s.busy.toNat + 2 * s.done.toNat + 4 * s.error.toNat +
    8 * s.reject.toNat + 16 * s.treeValid.toNat + 32 * s.codesValid.toNat := by
  rw [State.statusWord]
  generalize s.codesValid = c, s.treeValid = t, s.reject = r, s.error = e, s.done = d, s.busy = b
  revert c t r e d b
  decide

theorem statusWord_getLsbD_zero : s.statusWord.getLsbD 0 = s.busy := by
  rw [State.statusWord, BitVec.getLsbD_append]
  simp

end
end Sys2Proof.Safety

namespace Sys2Proof.Proofs

open Sys2Proof.Machine Sys2Proof.Safety

/-- Settles O20: a read draws a free value exactly at the results and windows, and else returns its target's word. -/
theorem readsWhileBusy : Obligations.ReadsWhileBusy := by
  intro s addr hb
  refine ⟨hostRead_drawn hb, hostRead_draws_of_not, fun h => ?id, fun h => ?version, fun h => ?paramSym,
    fun h => ?paramBit, fun h => ?cmd, fun h => ?status, fun h => ?irqEn, fun h => ?reserved⟩
  case id => exact hostRead_rdata_eq (T := .id) h (.inr (by decide)) rfl
  case version => exact hostRead_rdata_eq (T := .version) h (.inr (by decide)) rfl
  case paramSym =>
    rw [hostRead_rdata_eq (T := .paramSym) h (.inr (by decide)) rfl]
    exact targetWord_paramSym_toNat s
  case paramBit =>
    rw [hostRead_rdata_eq (T := .paramBit) h (.inr (by decide)) rfl]
    exact targetWord_paramBit_toNat s
  case cmd => exact hostRead_rdata_eq (T := .cmd) h (.inr (by decide)) rfl
  case status =>
    exact ⟨hostRead_rdata_eq (T := .status) h (.inr (by decide)) rfl, (statusWord_getLsbD_zero s).trans hb⟩
  case irqEn =>
    rw [hostRead_rdata_eq (T := .irqEn) h (.inr (by decide)) rfl]
    exact targetWord_irqEn_toNat s
  case reserved =>
    exact hostRead_rdata_eq rfl (.inr (not_resultOrWindow_of_reserved h)) (targetAt_reserved h)

/-- Settles O21: while BUSY = 0 every read returns its target's word. -/
theorem readsWhileIdle : Obligations.ReadsWhileIdle := by
  intro s addr hb
  have read {o : Nat} (T : Target) (hw : wordOffset addr = o) (hT : targetAt o = T) :
      (s.hostRead addr).rdata = s.targetWord T := hostRead_rdata_eq hw (.inl hb) hT
  refine ⟨fun h => read .id h rfl, fun h => read .version h rfl, fun h => ?paramSym, fun h => ?paramBit,
    fun h => read .cmd h rfl, fun h => ?status, fun h => ?errCode, fun h => read .errIndex h rfl, fun h => ?irqEn,
    fun h => ?nsym, fun h => ?root, fun h => ?nnodes, fun h => read .symLen h rfl, fun h => read .bitLen h rfl,
    fun x hx h => read (.freq x) h (targetAt_freq hx), fun h => read .reserved rfl (targetAt_reserved h)⟩
  case paramSym => rw [read .paramSym h rfl]; exact targetWord_paramSym_toNat s
  case paramBit => rw [read .paramBit h rfl]; exact targetWord_paramBit_toNat s
  case status =>
    rw [read .status h rfl]
    exact (statusWord_toNat s).trans (by simp [hb])
  case errCode => rw [read .errCode h rfl]; exact BitVec.toNat_setWidth_of_le (by decide)
  case irqEn => rw [read .irqEn h rfl]; exact targetWord_irqEn_toNat s
  case nsym => rw [read .nsym h rfl]; exact BitVec.toNat_setWidth_of_le (by decide)
  case root => rw [read .root h rfl]; exact BitVec.toNat_setWidth_of_le (by decide)
  case nnodes => rw [read .nnodes h rfl]; exact BitVec.toNat_setWidth_of_le (by decide)

end Sys2Proof.Proofs

/-! What BUILD_TREE's merge loop keeps, and from it that a build stores the tree of the present FREQ
(42_tree_builder.md rules R150 to R154). -/

namespace Sys2Proof.Safety

open Sys2Proof.Machine

/-! ### Active nodes and merges -/

section
variable {f g : Nat → Node} {n k j : Nat}

/-- The active set at `k` is a matter of the nodes below `k`. -/
theorem activeAt_congr (h : ∀ p < k, f p = g p) : ActiveAt f n k j ↔ ActiveAt g n k j := by
  refine and_congr_right fun _ => forall₂_congr fun p hp => ?_
  rw [IsChild, IsChild, h p (List.mem_range.mp hp)]

/-- The children of a merge are nodes that existed before it. -/
theorem MergedAt.child_lt (h : MergedAt f n k) (hj : IsChild f k j) : j < k := by
  obtain ⟨-, -, ⟨h₀, -⟩, ⟨h₁, -⟩, -⟩ := h
  obtain rfl | rfl := hj
  · exact h₀
  · exact h₁

/-- The children of a merge were active. -/
theorem MergedAt.child_active (h : MergedAt f n k) (hj : IsChild f k j) : ActiveAt f n k j := by
  obtain ⟨-, -, h₀, h₁, -⟩ := h
  obtain rfl | rfl := hj
  · exact h₀
  · exact h₁

/-- A merge at `k` is a matter of the nodes up to `k`. -/
theorem mergedAt_congr (h : ∀ p ≤ k, f p = g p) (hm : MergedAt f n k) : MergedAt g n k := by
  have hact (i : Nat) : ActiveAt f n k i ↔ ActiveAt g n k i := activeAt_congr fun p hp => h p hp.le
  have hk := h k le_rfl
  obtain ⟨hl, hs, h₀, h₁, hord, hmin, hsum⟩ := hm
  have e₀ := h _ h₀.1.le
  have e₁ := h _ h₁.1.le
  rw [hk] at hl hs h₀ h₁ hord hsum e₀ e₁
  refine ⟨hl, hs, (hact _).mp h₀, (hact _).mp h₁, ?_, fun i hi ha hc => ?_, ?_⟩
  · rwa [KeyBefore, e₀, e₁] at hord
  · have := hmin i hi ((hact i).mpr ha) (by rwa [IsChild, hk])
    rwa [KeyBefore, hk, e₁, h i (List.mem_range.mp hi).le] at this
  · rwa [e₀, e₁] at hsum

/-- What is active once `k` is created: what was active before it, less its children, and `k` itself. -/
theorem activeAt_succ_iff (hm : ∀ p, n ≤ p → p ≤ k → MergedAt f n p) (hn : n ≤ k) :
    ActiveAt f n (k + 1) j ↔ j = k ∨ (ActiveAt f n k j ∧ ¬ IsChild f k j) := by
  constructor
  · rintro ⟨hj, hno⟩
    obtain rfl | hjk := Nat.eq_or_lt_of_le (Nat.le_of_lt_succ hj)
    · exact .inl rfl
    · refine .inr ⟨⟨hjk, fun p hp hnp => hno p ?_ hnp⟩, hno k (List.mem_range.mpr k.lt_succ_self) hn⟩
      exact List.mem_range.mpr (Nat.lt_succ_of_lt (List.mem_range.mp hp))
  · rintro (rfl | ⟨⟨hj, hno⟩, hc⟩)
    · refine ⟨j.lt_succ_self, fun p hp hnp hc => ?_⟩
      have hpj := Nat.le_of_lt_succ (List.mem_range.mp hp)
      have := (hm p hnp hpj).child_lt hc
      omega
    · refine ⟨Nat.lt_succ_of_lt hj, fun p hp hnp => ?_⟩
      obtain rfl | hpk := Nat.eq_or_lt_of_le (Nat.le_of_lt_succ (List.mem_range.mp hp))
      · exact hc
      · exact hno p (List.mem_range.mpr hpk) hnp

/-- Of two members of the active set with different indices, the one that is not greater comes first in key order. -/
theorem keyBefore_of_not_keyLess {x y : Active} (hx : x.freq = (f x.index).freq.toNat)
    (hy : y.freq = (f y.index).freq.toNat) (hne : x.index ≠ y.index) (h : keyLess y x = false) :
    KeyBefore f x.index y.index := by
  simp only [keyLess, Bool.or_eq_false_iff, Bool.and_eq_false_iff, decide_eq_false_iff_not] at h
  rw [KeyBefore, ← hx, ← hy]
  omega

end

/-! ### The arena while it grows -/

/-- NODE by index while the arena grows; `base` is what stands beyond it. -/
def arenaView (base : Nat → Node) (arena : List Node) (k : Nat) : Node := (arena[k]?).getD (base k)

section
variable {base : Nat → Node} {arena : List Node} {k : Nat}

theorem arenaView_append_left (more : List Node) (h : k < arena.length) :
    arenaView base (arena ++ more) k = arenaView base arena k := by
  rw [arenaView, arenaView, List.getElem?_append_left h]

@[simp] theorem arenaView_append_length (nd : Node) : arenaView base (arena ++ [nd]) arena.length = nd := by
  simp [arenaView]

end

theorem internalNode_child0 (a b : Active) (h : a.index < 512) : (internalNode a b).child0.toNat = a.index :=
  Nat.mod_eq_of_lt h

theorem internalNode_child1 (a b : Active) (h : b.index < 512) : (internalNode a b).child1.toNat = b.index :=
  Nat.mod_eq_of_lt h

theorem internalNode_freq (a b : Active) (h : a.freq + b.freq < 2 ^ 40) :
    (internalNode a b).freq.toNat = a.freq + b.freq := Nat.mod_eq_of_lt h

/-! ### The merge loop -/

/-- What the merge loop keeps: the active list is the active set of the arena built so far, with exact frequencies
whose total fits in 40 bits (42_tree_builder.md rule R157), and every Internal node is a merge of the two least. -/
structure MergeInv (base : Nat → Node) (n : Nat) (arena : List Node) (active : List Active) : Prop where
  size : arena.length + active.length = 2 * n
  leaves : n ≤ arena.length
  nodup : (active.map Active.index).Nodup
  freqs : ∀ a ∈ active, a.freq = (arenaView base arena a.index).freq.toNat
  indices : ∀ j, j ∈ active.map Active.index ↔ ActiveAt (arenaView base arena) n arena.length j
  total : (active.map Active.freq).sum < 2 ^ 40
  merged : ∀ k, n ≤ k → k < arena.length → MergedAt (arenaView base arena) n k

section
variable {base : Nat → Node} {n : Nat} {arena : List Node} {active rest : List Active} {a b : Active}

/-- The order of the active list does not matter. -/
theorem MergeInv.perm (h : MergeInv base n arena active) (hp : active.Perm rest) : MergeInv base n arena rest where
  size := hp.length_eq ▸ h.size
  leaves := h.leaves
  nodup := (hp.map _).nodup_iff.mp h.nodup
  freqs x hx := h.freqs x (hp.mem_iff.mpr hx)
  indices j := (hp.map _).mem_iff.symm.trans (h.indices j)
  total := (hp.map Active.freq).sum_eq ▸ h.total
  merged := h.merged

/-- The parent of the two least members of the active set is a merge (42_tree_builder.md rules R152 and R153). -/
theorem mergedAt_of_least {f : Nat → Node} {k : Nat} (hk : f k = internalNode a b) (hlt : k ≤ 512)
    (hsum : a.freq + b.freq < 2 ^ 40) (hnd : ((a :: b :: rest).map Active.index).Nodup)
    (hfr : ∀ x ∈ a :: b :: rest, x.freq = (f x.index).freq.toNat)
    (hidx : ∀ j, j ∈ (a :: b :: rest).map Active.index ↔ ActiveAt f n k j)
    (ha : ∀ y ∈ b :: rest, keyLess y a = false) (hb : ∀ y ∈ rest, keyLess y b = false) : MergedAt f n k := by
  have hA := (hidx a.index).mp (by simp)
  have hB := (hidx b.index).mp (by simp)
  have e₀ := internalNode_child0 a b (hA.1.trans_le hlt)
  have e₁ := internalNode_child1 a b (hB.1.trans_le hlt)
  simp only [List.map_cons, List.nodup_cons, List.mem_cons, not_or] at hnd
  obtain ⟨⟨hab, -⟩, hbr, -⟩ := hnd
  simp only [MergedAt, IsChild, hk, e₀, e₁]
  refine ⟨rfl, rfl, hA, hB, ?_, fun j hj hact hc => ?_, ?_⟩
  · exact keyBefore_of_not_keyLess (hfr a (by simp)) (hfr b (by simp)) hab (ha b (by simp))
  · obtain ⟨y, hy, rfl⟩ := List.mem_map.mp ((hidx j).mpr hact)
    obtain rfl | rfl | hyr := by simpa using hy
    · exact absurd (.inl rfl) hc
    · exact absurd (.inr rfl) hc
    · exact keyBefore_of_not_keyLess (hfr b (by simp)) (hfr y hy) (fun e => hc (.inr e)) (hb y hyr)
  · rw [internalNode_freq a b hsum, hfr a (by simp), hfr b (by simp)]

/-- One merge keeps what the loop keeps. -/
theorem MergeInv.step (h : MergeInv base n arena (a :: b :: rest)) (hn : n ≤ 256)
    (ha : ∀ y ∈ b :: rest, keyLess y a = false) (hb : ∀ y ∈ rest, keyLess y b = false) :
    MergeInv base n (arena ++ [internalNode a b]) (⟨a.freq + b.freq, arena.length⟩ :: rest) := by
  obtain ⟨hsize, hle, hnd, hfr, hidx, htot, hmer⟩ := h
  have hold {p : Nat} (hp : p < arena.length) := arenaView_append_left (base := base) [internalNode a b] hp
  have hbelow {x : Active} (hx : x ∈ a :: b :: rest) : x.index < arena.length :=
    ((hidx x.index).mp (List.mem_map_of_mem hx)).1
  replace hfr : ∀ x ∈ a :: b :: rest, x.freq = (arenaView base (arena ++ [internalNode a b]) x.index).freq.toNat :=
    fun x hx => by rw [hold (hbelow hx)]; exact hfr x hx
  replace hidx (j : Nat) : j ∈ (a :: b :: rest).map Active.index ↔
      ActiveAt (arenaView base (arena ++ [internalNode a b])) n arena.length j :=
    (hidx j).trans (activeAt_congr fun p hp => (hold hp).symm)
  simp only [List.map_cons, List.sum_cons] at htot
  simp only [List.length_cons] at hsize
  have hmerged (k : Nat) (hk : n ≤ k) (hlt : k ≤ arena.length) :
      MergedAt (arenaView base (arena ++ [internalNode a b])) n k := by
    obtain rfl | hlt := Nat.eq_or_lt_of_le hlt
    · exact mergedAt_of_least (arenaView_append_length _) (by omega) (by omega) hnd hfr hidx ha hb
    · exact mergedAt_congr (fun p hp => (hold (by omega)).symm) (hmer k hk hlt)
  constructor
  case size => simp only [List.length_append, List.length_cons, List.length_nil]; omega
  case leaves => simp only [List.length_append]; omega
  case nodup =>
    simp only [List.map_cons, List.nodup_cons] at hnd ⊢
    refine ⟨fun hmem => ?_, hnd.2.2⟩
    obtain ⟨x, hx, he⟩ := List.mem_map.mp hmem
    exact (hbelow (by simp [hx])).ne he
  case freqs =>
    intro x hx
    obtain rfl | hx := List.mem_cons.mp hx
    · rw [arenaView_append_length]
      exact (internalNode_freq a b (by omega)).symm
    · exact hfr x (by simp [hx])
  case indices =>
    intro j
    have hA := hbelow (x := a) (by simp)
    have hB := hbelow (x := b) (by simp)
    rw [List.length_append, List.length_singleton, activeAt_succ_iff hmerged hle, ← hidx, IsChild,
      arenaView_append_length, internalNode_child0 a b (by omega), internalNode_child1 a b (by omega)]
    simp only [List.map_cons, List.nodup_cons, List.mem_cons] at hnd ⊢
    grind
  case total => simpa [add_assoc] using htot
  case merged => exact fun k hk hlt => hmerged k hk (by simpa [Nat.lt_succ_iff] using hlt)

/-- Every Internal node of the loop's result is a merge of the two least. -/
theorem mergeLoop_merged {fuel : Nat} (hn : n ≤ 256) (h : MergeInv base n arena active) {k : Nat} (hk : n ≤ k)
    (hlt : k < (mergeLoop fuel arena active).length) :
    MergedAt (arenaView base (mergeLoop fuel arena active)) n k := by
  induction fuel generalizing arena active with
  | zero => exact h.merged k hk hlt
  | succ fuel ih =>
    rw [mergeLoop] at hlt ⊢
    split at hlt
    · exact h.merged k hk hlt
    · next a rest ha =>
      obtain ⟨hpa, hla⟩ := removeLeast_some ha
      split at hlt
      · next hb => exact h.merged k hk hlt
      · next b rest' hb =>
        obtain ⟨hpb, hlb⟩ := removeLeast_some hb
        refine ih (((h.perm hpa).perm (hpb.cons a)).step hn (fun y hy => hla y ?_) fun y hy => hlb y ?_) hlt
        · exact hpa.mem_iff.mpr (List.mem_cons_of_mem _ (hpb.mem_iff.mpr hy))
        · exact hpb.mem_iff.mpr (List.mem_cons_of_mem _ hy)

end
end Sys2Proof.Safety

/-! BUILD_TREE on a table with a present symbol stores its tree (10_state.md rule R53). -/

namespace Sys2Proof.Safety

open Sys2Proof.Machine

/-! ### The leaves (42_tree_builder.md rule R151) -/

/-- The leaves are the Leaf nodes of the present symbols, in their order. -/
theorem leavesOf_eq_map (s : State) :
    leavesOf s.freqAt = (presentSymbols s).map (fun x => leafNode x (s.freqAt x)) := by
  rw [leavesOf, presentSymbols, nSym, ← List.filterMap_eq_map, ← List.filterMap_eq_filter, List.filterMap_filterMap]
  refine List.filterMap_congr fun x _ => ?_
  by_cases h : s.freqAt x = 0#32 <;> simp [h, Option.guard]

theorem leavesOf_length (s : State) : (leavesOf s.freqAt).length = leafCount s := by
  rw [leavesOf_eq_map, List.length_map, leafCount]

theorem leafCount_le (s : State) : leafCount s ≤ 256 := leavesOf_length s ▸ leavesOf_length_le s.freqAt

theorem mem_presentSymbols {s : State} {x : Nat} : x ∈ presentSymbols s ↔ x < 256 ∧ s.freqAt x ≠ 0#32 := by
  simp [presentSymbols]

theorem getD_presentSymbols_mem {s : State} {i : Nat} (h : i < leafCount s) :
    (presentSymbols s).getD i 0 ∈ presentSymbols s := by
  rw [List.getD_eq_getElem _ _ h]
  exact List.getElem_mem h

/-- The first active set is the arena's leaves, and no sum of their counts needs more than 40 bits. -/
theorem mergeInv_leaves (base : Nat → Node) (s : State) :
    MergeInv base (leafCount s) (leavesOf s.freqAt) (activeLeaves (leavesOf s.freqAt)) := by
  have hlen := leavesOf_length s
  have hindex : (activeLeaves (leavesOf s.freqAt)).map Active.index = List.range (leavesOf s.freqAt).length := by
    simp [activeLeaves, Function.comp_def, ← List.range_eq_range']
  constructor
  case size => rw [activeLeaves_length, hlen]; omega
  case leaves => exact hlen.ge
  case nodup => rw [hindex]; exact List.nodup_range
  case freqs =>
    intro a ha
    obtain ⟨⟨nd, i⟩, hm, rfl⟩ := List.mem_map.mp ha
    simp only [arenaView, List.mem_zipIdx_iff_getElem?.mp hm, Option.getD_some]
  case indices =>
    intro j
    rw [hindex, List.mem_range]
    exact ⟨fun hj => ⟨hj, fun p hp hn => absurd (List.mem_range.mp hp) (by omega)⟩, And.left⟩
  case total =>
    have hbound : ∀ c ∈ (activeLeaves (leavesOf s.freqAt)).map Active.freq, c ≤ 2 ^ 32 - 1 := by
      intro c hc
      obtain ⟨a, ha, rfl⟩ := List.mem_map.mp hc
      obtain ⟨⟨nd, i⟩, hm, rfl⟩ := List.mem_map.mp ha
      have hnd := List.mem_of_getElem? (List.mem_zipIdx_iff_getElem?.mp hm)
      rw [leavesOf_eq_map] at hnd
      obtain ⟨x, -, rfl⟩ := List.mem_map.mp hnd
      have := (s.freqAt x).isLt
      simp only [leafNode, BitVec.toNat_setWidth]
      omega
    have := List.sum_le_card_nsmul _ _ hbound
    have := leafCount_le s
    rw [List.length_map, activeLeaves_length, hlen, smul_eq_mul] at *
    omega
  case merged => exact fun k hk hlt => absurd hlt (by omega)

/-! ### The stored tree -/

theorem nodeAt_buildFrom_eq (s : State) (leaves : List Node) :
    (s.buildFrom leaves).nodeAt = arenaView s.nodeAt (arenaOf leaves) := funext (nodeAt_buildFrom s leaves)

theorem isLeafOf_leafNode {s : State} {i x : Nat} (hx : x < 256) (h : s.nodeAt i = leafNode x (s.freqAt x)) :
    IsLeafOf s i x := by
  have := (s.freqAt x).isLt
  simp only [IsLeafOf, h, leafNode, BitVec.toNat_setWidth, BitVec.toNat_ofNat]
  exact ⟨trivial, by omega, by omega, trivial, trivial⟩

/-- A build of a non-empty alphabet stores the tree of the present FREQ (42_tree_builder.md rules R150 to R154). -/
theorem treeMatches_buildFrom {s : State} (h : leavesOf s.freqAt ≠ []) :
    TreeMatches (s.buildFrom (leavesOf s.freqAt)) := by
  have hlen := leavesOf_length s
  have hpos : 1 ≤ leafCount s := by rw [← hlen]; exact List.length_pos_of_ne_nil h
  have hle := leafCount_le s
  have harena := arenaOf_length (leavesOf s.freqAt)
  have hcount : leafCount (s.buildFrom (leavesOf s.freqAt)) = leafCount s := rfl
  have hpres : presentSymbols (s.buildFrom (leavesOf s.freqAt)) = presentSymbols s := rfl
  rw [hlen] at harena
  rw [TreeMatches, hcount, hpres, nodeAt_buildFrom_eq]
  refine ⟨hpos, ?_, fun i hi => ?_, fun k hk hle => ?_⟩
  · simp only [buildFrom_nsym, buildFrom_nnodes, buildFrom_root, BitVec.toNat_ofNat, hlen, harena]
    omega
  · have hi := List.mem_range.mp hi
    refine isLeafOf_leafNode (mem_presentSymbols.mp (getD_presentSymbols_mem hi)).1 ?_
    rw [nodeAt_buildFrom, arenaOf_leaf _ (hlen ▸ hi), leavesOf_eq_map, List.getElem?_map, List.getD_eq_getElem _ _ hi,
      List.getElem?_eq_getElem hi]
    rfl
  · refine mergeLoop_merged (leafCount_le s) (mergeInv_leaves s.nodeAt s) hle ?_
    exact harena ▸ List.mem_range.mp hk

end Sys2Proof.Safety

/-! The tree's shape, from its merges: every node but the root has a parent, so the root reaches every node
(10_state.md rule R53, 42_tree_builder.md rule R160). Then GEN_CODES's walk records the path of every Leaf. -/

namespace Sys2Proof.Safety

open Sys2Proof.Machine

/-! ### Parents and paths -/

/-- The child that the bit `b` selects (45_decoder.md rule R211). -/
def childOn (nodeAt : Nat → Node) (p : Nat) (b : Bool) : Nat :=
  if b then (nodeAt p).child1.toNat else (nodeAt p).child0.toNat

section
variable {f : Nat → Node} {n j k p q : Nat} {b c : Bool} {ps qs : List Bool}

theorem isChild_childOn (f : Nat → Node) (p : Nat) (b : Bool) : IsChild f p (childOn f p b) := by
  cases b
  · exact .inl rfl
  · exact .inr rfl

@[simp] theorem descend_nil : descend f k [] = some k := rfl

theorem descend_cons : descend f k (b :: ps) = if (f k).leaf then none else descend f (childOn f k b) ps := rfl

theorem descend_append : descend f k (ps ++ qs) = (descend f k ps).bind fun i => descend f i qs := by
  induction ps generalizing k with
  | nil => rfl
  | cons b ps ih =>
    rw [List.cons_append, descend_cons, descend_cons]
    split
    · rfl
    · exact ih

/-- One bit more on a path that stands at an Internal node. -/
theorem descend_concat (h : descend f k ps = some j) (hj : (f j).leaf = false) :
    descend f k (ps ++ [b]) = some (childOn f j b) := by
  simp [descend_append, h, descend_cons, hj]

/-- No path leaves a Leaf. -/
theorem descend_of_leaf (hk : (f k).leaf = true) (h : descend f k ps = some j) : ps = [] ∧ j = k := by
  cases ps with
  | nil => exact ⟨rfl, (Option.some.inj h).symm⟩
  | cons b ps => simp [descend_cons, hk] at h

end

/-- Nodes `n` to `2n - 2` are merges (42_tree_builder.md rules R153 and R154). -/
abbrev AllMerged (f : Nat → Node) (n : Nat) : Prop := ∀ k, n ≤ k → k < 2 * n - 1 → MergedAt f n k

section
variable {f : Nat → Node} {n j p q : Nat} {b c : Bool}

/-- A node is the child of one merge only. -/
theorem AllMerged.parent_unique (h : AllMerged f n) (hp : n ≤ p) (hp' : p < 2 * n - 1) (hq : n ≤ q)
    (hq' : q < 2 * n - 1) (hpj : IsChild f p j) (hqj : IsChild f q j) : p = q := by
  obtain hlt | heq | hlt := Nat.lt_trichotomy p q
  · exact absurd hpj (((h q hq hq').child_active hqj).2 p (List.mem_range.mpr hlt) hp)
  · exact heq
  · exact absurd hqj (((h p hp hp').child_active hpj).2 q (List.mem_range.mpr hlt) hq)

/-- The two children of a merge differ. -/
theorem MergedAt.childOn_injective (h : MergedAt f n p) (hbc : childOn f p b = childOn f p c) : b = c := by
  obtain ⟨-, -, -, -, hkey, -⟩ := h
  have hne : (f p).child0.toNat ≠ (f p).child1.toNat := fun e => by
    rw [KeyBefore, e] at hkey; omega
  cases b <;> cases c
  · rfl
  · exact absurd hbc hne
  · exact absurd hbc.symm hne
  · rfl

/-- Every node but the last has a parent: the `n - 1` merges have `2n - 2` children, no two the same, among the first
`2n - 2` nodes. -/
theorem AllMerged.exists_parent (h : AllMerged f n) (hj : j < 2 * n - 2) :
    ∃ p b, n ≤ p ∧ p < 2 * n - 1 ∧ childOn f p b = j := by
  have hmaps : Set.MapsTo (fun x : Nat × Bool => childOn f x.1 x.2)
      (Finset.Ico n (2 * n - 1) ×ˢ (Finset.univ : Finset Bool) : Finset _) (Finset.range (2 * n - 2)) := by
    rintro ⟨p, b⟩ hp
    simp only [Finset.coe_product, Set.mem_prod, Finset.mem_coe, Finset.mem_Ico, Finset.mem_range] at hp ⊢
    have := (h p hp.1.1 hp.1.2).child_lt (isChild_childOn f p b)
    omega
  have hinj : Set.InjOn (fun x : Nat × Bool => childOn f x.1 x.2)
      (Finset.Ico n (2 * n - 1) ×ˢ (Finset.univ : Finset Bool) : Finset _) := by
    rintro ⟨p, b⟩ hp ⟨q, c⟩ hq he
    simp only [Finset.coe_product, Set.mem_prod, Finset.mem_coe, Finset.mem_Ico] at hp hq he
    obtain rfl := h.parent_unique hp.1.1 hp.1.2 hq.1.1 hq.1.2 (isChild_childOn f p b) (he ▸ isChild_childOn f q c)
    rw [(h p hp.1.1 hp.1.2).childOn_injective he]
  obtain ⟨⟨p, b⟩, hp, he⟩ := Finset.surjOn_of_injOn_of_card_le _ hmaps hinj
    (by simp; omega) (Finset.mem_coe.mpr (Finset.mem_range.mpr hj))
  simp only [Finset.coe_product, Set.mem_prod, Finset.mem_coe, Finset.mem_Ico] at hp
  exact ⟨p, b, hp.1.1, hp.1.2, he⟩

/-- The last node reaches every node. -/
theorem AllMerged.exists_path (h : AllMerged f n) (hj : j ≤ 2 * n - 2) : ∃ ps, descend f (2 * n - 2) ps = some j := by
  induction hd : 2 * n - 2 - j using Nat.strongRecOn generalizing j with
  | ind d ih =>
    obtain rfl | hlt := Nat.eq_or_lt_of_le hj
    · exact ⟨[], rfl⟩
    · obtain ⟨p, b, hp, hp', rfl⟩ := h.exists_parent hlt
      have hm := h p hp hp'
      have := hm.child_lt (isChild_childOn f p b)
      obtain ⟨ps, hps⟩ := ih (2 * n - 2 - p) (by omega) (by omega) rfl
      exact ⟨ps ++ [b], descend_concat hps hm.1⟩

/-- Paths stay inside the tree. -/
theorem AllMerged.descend_le (h : AllMerged f n) {k : Nat} {ps : List Bool}
    (hleaf : ∀ i < n, (f i).leaf = true) (hk : k < 2 * n - 1) (hd : descend f k ps = some j) : j ≤ k := by
  induction ps generalizing k with
  | nil => exact (Option.some.inj hd).ge
  | cons b ps ih =>
    rw [descend_cons] at hd
    split at hd
    · cases hd
    · next hint =>
      have hn : n ≤ k := Nat.le_of_not_lt fun hlt => hint (hleaf k hlt)
      have hc := (h k hn hk).child_lt (isChild_childOn f k b)
      exact (ih (by omega) hd).trans hc.le

end

/-! ### The walk (43_code_table_generator.md rules R170 and R171) -/

/-- The table's entry of `x` is the path from the node `r` to a Leaf of the symbol `x`. -/
def Recorded (f : Nat → Node) (r : Nat) (t : Memory CodeEntry) (x : Nat) : Prop :=
  ∃ ps i, ps.length ≤ 255 ∧ descend f r ps = some i ∧ (f i).leaf = true ∧ (f i).sym.toNat = x ∧
    Memory.get? t x = some (codeEntryOf ps)

theorem Recorded.of_get?_eq {f : Nat → Node} {r x : Nat} {t t' : Memory CodeEntry} (h : Recorded f r t x)
    (he : Memory.get? t' x = Memory.get? t x) : Recorded f r t' x := by
  obtain ⟨ps, i, hl, hd, hi, hs, hg⟩ := h
  exact ⟨ps, i, hl, hd, hi, hs, he.trans hg⟩

theorem get?_recordCode (t : Memory CodeEntry) (sym : Symbol) (ps : List Bool) (x : Nat) :
    Memory.get? (recordCode t sym ps) x = if sym.toNat = x then some (codeEntryOf ps) else Memory.get? t x := by
  rw [recordCode, memory_get?_writeRange, List.length_singleton]
  by_cases h : sym.toNat = x
  · subst h; simp
  · rw [if_neg (by omega), if_neg h]

theorem arenaAt?_some {s : State} {k : Nat} {nd : Node} (h : s.arenaAt? k = some nd) : s.nodeAt k = nd := by
  rw [State.arenaAt?] at h
  split at h
  · exact Option.some.inj h
  · cases h

/-- A walk that ends changes entries to the paths of Leaves only, and it records every Leaf below its node. -/
theorem walk_records {s : State} {r fuel k : Nat} {ps : List Bool} {t t' : Memory CodeEntry}
    (h : walk s.arenaAt? fuel k ps t = .table t') (hd : descend s.nodeAt r ps = some k)
    (hf : ps.length + fuel ≤ 256) :
    (∀ x, Memory.get? t' x = Memory.get? t x ∨ Recorded s.nodeAt r t' x) ∧
    ∀ qs i, descend s.nodeAt k qs = some i → (s.nodeAt i).leaf = true →
      Recorded s.nodeAt r t' (s.nodeAt i).sym.toNat := by
  induction fuel generalizing k ps t t' with
  | zero => cases h
  | succ fuel ih =>
    rw [walk] at h
    split at h
    · cases h
    · next nd hk =>
      obtain rfl := arenaAt?_some hk
      split at h
      · next hleaf =>
        obtain rfl := WalkEnd.table.inj h
        have hrec : Recorded s.nodeAt r (recordCode t (s.nodeAt k).sym ps) (s.nodeAt k).sym.toNat :=
          ⟨ps, k, by omega, hd, hleaf, rfl, by rw [get?_recordCode, if_pos rfl]⟩
        refine ⟨fun x => ?_, fun qs i hq _ => ?_⟩
        · rw [get?_recordCode]
          by_cases hx : (s.nodeAt k).sym.toNat = x
          · exact .inr (hx ▸ hrec)
          · exact .inl (if_neg hx)
        · obtain ⟨-, rfl⟩ := descend_of_leaf hleaf hq
          exact hrec
      · next hint =>
        rw [Bool.not_eq_true] at hint
        split at h
        · cases h
        · next t₀ h₀ =>
          obtain ⟨hkeep₀, hall₀⟩ := ih h₀ (descend_concat hd hint) (by simp; omega)
          obtain ⟨hkeep₁, hall₁⟩ := ih h (descend_concat hd hint) (by simp; omega)
          have hlift {x : Nat} (hx : Recorded s.nodeAt r t₀ x) : Recorded s.nodeAt r t' x :=
            (hkeep₁ x).elim hx.of_get?_eq id
          refine ⟨fun x => ?_, fun qs i hq hi => ?_⟩
          · obtain h₁ | h₁ := hkeep₁ x
            · exact (hkeep₀ x).imp h₁.trans hlift
            · exact .inr h₁
          · cases qs with
            | nil =>
              obtain rfl := Option.some.inj hq
              exact absurd hi (by simp [hint])
            | cons b qs =>
              simp only [descend_cons, hint, Bool.false_eq_true, if_false] at hq
              cases b with
              | false => exact hlift (hall₀ qs i hq hi)
              | true => exact hall₁ qs i hq hi

end Sys2Proof.Safety

/-! GEN_CODES on a tree writes the code table of that tree (10_state.md rule R54, 43_code_table_generator.md rules R171
to R173). -/

namespace Sys2Proof.Safety

open Sys2Proof.Machine

/-! ### What TreeMatches says of single nodes -/

section
variable {s : State} {i j x : Nat}

theorem TreeMatches.leafCount_pos (h : TreeMatches s) : 1 ≤ leafCount s := h.1

theorem TreeMatches.root_eq (h : TreeMatches s) : s.root.toNat = 2 * leafCount s - 2 := by
  obtain ⟨-, ⟨-, -, hroot⟩, -⟩ := h
  exact hroot

theorem TreeMatches.isLeafOf (h : TreeMatches s) (hi : i < leafCount s) :
    IsLeafOf s i ((presentSymbols s).getD i 0) := by
  obtain ⟨-, -, hleaves, -⟩ := h
  exact hleaves i (List.mem_range.mpr hi)

theorem TreeMatches.allMerged (h : TreeMatches s) : AllMerged s.nodeAt (leafCount s) := by
  obtain ⟨-, -, -, hmerged⟩ := h
  exact fun k hk hlt => hmerged k (List.mem_range.mpr hlt) hk

/-- The Leaf nodes of the tree are the first `n`. -/
theorem TreeMatches.leaf_iff (h : TreeMatches s) (hi : i < 2 * leafCount s - 1) :
    (s.nodeAt i).leaf = true ↔ i < leafCount s := by
  constructor
  · intro hleaf
    refine Nat.lt_of_not_le fun hle => ?_
    obtain ⟨hint, -⟩ := h.allMerged i hle hi
    simp [hint] at hleaf
  · exact fun hlt => (h.isLeafOf hlt).1

/-- A Leaf's symbol is present. -/
theorem TreeMatches.leaf_sym_mem (h : TreeMatches s) (hi : i < leafCount s) :
    (s.nodeAt i).sym.toNat ∈ presentSymbols s := by
  obtain ⟨-, -, hsym, -⟩ := h.isLeafOf hi
  exact hsym ▸ getD_presentSymbols_mem hi

/-- Every present symbol has a Leaf. -/
theorem TreeMatches.exists_leaf (h : TreeMatches s) (hx : x ∈ presentSymbols s) :
    ∃ i < leafCount s, (s.nodeAt i).sym.toNat = x := by
  obtain ⟨i, hi, rfl⟩ := List.mem_iff_getElem.mp hx
  obtain ⟨-, -, hsym, -⟩ := h.isLeafOf hi
  exact ⟨i, hi, hsym.trans (List.getD_eq_getElem _ _ hi)⟩

/-- A path from ROOT that ends at a Leaf node ends at one of the tree's own. -/
theorem TreeMatches.descend_leaf_lt (h : TreeMatches s) {ps : List Bool}
    (hd : descend s.nodeAt s.root.toNat ps = some i) (hi : (s.nodeAt i).leaf = true) : i < leafCount s := by
  have hpos := h.leafCount_pos
  rw [h.root_eq] at hd
  have := h.allMerged.descend_le (fun j hj => (h.isLeafOf hj).1) (by omega) hd
  exact (h.leaf_iff (by omega)).mp hi

/-- ROOT is a Leaf exactly in a single-leaf tree (42_tree_builder.md rule R154). -/
theorem TreeMatches.root_leaf_iff (h : TreeMatches s) : (s.nodeAt s.root.toNat).leaf = true ↔ leafCount s = 1 := by
  have hpos := h.leafCount_pos
  have hroot := h.root_eq
  rw [h.leaf_iff (by omega)]
  omega

end

/-! ### The code table -/

/-- The entries of a cleared table hold no code (43_code_table_generator.md rule R173). -/
theorem get?_clearedTable (old : Memory CodeEntry) {x : Nat} (hx : x < 256) :
    Memory.get? (clearedTable old) x = some noCode := by
  have hx : x < nSym := hx
  rw [clearedTable, memory_get?_writeRange, List.length_replicate, if_pos ⟨x.zero_le, by omega⟩,
    List.getElem?_replicate, if_pos (by omega)]

/-- The two shapes of the table that GEN_CODES stores: the fixed code of a single Leaf, or the result of the walk. -/
theorem codeTable_cases {s : State} {tbl : Memory CodeEntry} (h : s.codeTable = .table tbl) :
    ((s.nodeAt s.root.toNat).leaf = true ∧
      tbl = recordCode (clearedTable s.code) (s.nodeAt s.root.toNat).sym [false]) ∨
    ((s.nodeAt s.root.toNat).leaf = false ∧
      walk s.arenaAt? (maxCodeLen + 1) s.root.toNat [] (clearedTable s.code) = .table tbl) := by
  rw [State.codeTable] at h
  split at h
  · cases h
  · next nd hk =>
    obtain rfl := arenaAt?_some hk
    split at h
    · next hleaf => exact .inl ⟨hleaf, (WalkEnd.table.inj h).symm⟩
    · next hint => exact .inr ⟨Bool.not_eq_true _ ▸ hint, h⟩

theorem codeTable_wf {s : State} {tbl : Memory CodeEntry} (h : s.codeTable = .table tbl) (hw : Memory.wf 256 s.code) :
    Memory.wf 256 tbl := by
  obtain ⟨-, rfl⟩ | ⟨-, h⟩ := codeTable_cases h
  · exact recordCode_wf (clearedTable_wf hw) _ _
  · exact (walk_keeps h).1 (clearedTable_wf hw)

/-- An entry that holds a legal non-empty code of `x` is the code of `x`. -/
theorem isCodeOf_codeEntryOf {u : State} {x : Nat} {ps : List Bool} (hne : ps ≠ []) (hlen : ps.length ≤ 255)
    (hx : u.codeAt x = codeEntryOf ps)
    (hpath : if leafCount u = 1 then ps = [false]
      else ∃ i ∈ List.range (leafCount u), (u.nodeAt i).sym.toNat = x ∧
        descend u.nodeAt u.root.toNat ps = some i) : IsCodeOf u x := by
  have hcode : codeOf u x = ps := by rw [codeOf, hx, codeString_codeEntryOf hlen]
  have hcount : codeLen u x = ps.length := by rw [← hcode, codeOf, codeString_length]
  refine ⟨hcount ▸ List.length_pos_of_ne_nil hne, fun j _ hj => ?_, by rwa [hcode]⟩
  rw [hx]
  exact codeEntryOf_tail (hcount ▸ hj)

/-- The state with a new code table, as GEN_CODES stores it. -/
abbrev withCodes (s : State) (tbl : Memory CodeEntry) : State := { s with code := tbl, codesValid := true }

theorem codeAt_withCodes {s : State} {tbl : Memory CodeEntry} {x : Nat} {c : CodeEntry}
    (h : Memory.get? tbl x = some c) : (withCodes s tbl).codeAt x = c := by
  simp [State.codeAt, h]

/-- A single Leaf gets the code "0" (43_code_table_generator.md rule R172). -/
theorem codesMatch_single {s : State} (h : TreeMatches s) (hleaf : (s.nodeAt s.root.toNat).leaf = true) :
    CodesMatch (withCodes s (recordCode (clearedTable s.code) (s.nodeAt s.root.toNat).sym [false])) := by
  have hone := h.root_leaf_iff.mp hleaf
  have hroot : s.root.toNat = 0 := by rw [h.root_eq, hone]
  have hmem := h.leaf_sym_mem (i := s.root.toNat) (by omega)
  intro x hx
  have hx := List.mem_range.mp hx
  change if s.freqAt x = 0#32 then _ else _
  split
  · next habs =>
    refine codeAt_withCodes ?_
    rw [get?_recordCode, if_neg, get?_clearedTable _ hx]
    rintro rfl
    exact (mem_presentSymbols.mp hmem).2 habs
  · next hpres =>
    obtain ⟨i, hi, hs⟩ := h.exists_leaf (mem_presentSymbols.mpr ⟨hx, hpres⟩)
    obtain rfl : i = s.root.toNat := by omega
    refine isCodeOf_codeEntryOf (ps := [false]) (List.cons_ne_nil _ _) (by decide) ?_ ((if_pos hone).mpr rfl)
    exact codeAt_withCodes (by rw [get?_recordCode, if_pos hs])

/-- The walk gives every present symbol its path and no absent symbol a code (43_code_table_generator.md rules R171
and R173). -/
theorem codesMatch_walk {s : State} {tbl : Memory CodeEntry} (h : TreeMatches s)
    (hint : (s.nodeAt s.root.toNat).leaf = false)
    (hwalk : walk s.arenaAt? (maxCodeLen + 1) s.root.toNat [] (clearedTable s.code) = .table tbl) :
    CodesMatch (withCodes s tbl) := by
  obtain ⟨hkeep, hall⟩ := walk_records hwalk descend_nil le_rfl
  have hmany : leafCount s ≠ 1 := fun e => by simp [h.root_leaf_iff.mpr e] at hint
  intro x hx
  have hx := List.mem_range.mp hx
  change if s.freqAt x = 0#32 then _ else _
  split
  · next habs =>
    refine codeAt_withCodes (((hkeep x).resolve_right ?_).trans (get?_clearedTable _ hx))
    rintro ⟨ps, i, -, hd, hi, rfl, -⟩
    exact (mem_presentSymbols.mp (h.leaf_sym_mem (h.descend_leaf_lt hd hi))).2 habs
  · next hpres =>
    obtain ⟨i, hi, rfl⟩ := h.exists_leaf (mem_presentSymbols.mpr ⟨hx, hpres⟩)
    obtain ⟨qs, hq⟩ := h.allMerged.exists_path (j := i) (by omega)
    obtain ⟨ps, k, hlen, hd, hk, hsym, hget⟩ := hall qs i (h.root_eq ▸ hq) (h.isLeafOf hi).1
    refine isCodeOf_codeEntryOf ?_ hlen (codeAt_withCodes hget) ((if_neg hmany).mpr ?_)
    · rintro rfl
      obtain rfl := Option.some.inj hd
      simp [hint] at hk
    · exact ⟨k, List.mem_range.mpr (h.descend_leaf_lt hd hk), hsym, hd⟩

/-- The table that GEN_CODES stores is the code table of the tree (43_code_table_generator.md rules R171 to R173). -/
theorem codesMatch_codeTable {s : State} {tbl : Memory CodeEntry} (h : TreeMatches s)
    (htbl : s.codeTable = .table tbl) : CodesMatch (withCodes s tbl) := by
  obtain ⟨hleaf, rfl⟩ | ⟨hint, hwalk⟩ := codeTable_cases htbl
  · exact codesMatch_single h hleaf
  · exact codesMatch_walk h hint hwalk

end Sys2Proof.Safety

/-! Every operation of the block keeps the invariant: the host's accesses, the commands, and reset. -/

namespace Sys2Proof.Safety

open Sys2Proof.Machine

variable {s t : State}

/-! ### Two ways to keep the tree and code clauses -/

/-- What the invariant's tree and code clauses read. -/
def treeFields (s : State) :=
  (s.freq, s.node, s.code, s.resets, s.nsym, s.root, s.nnodes, s.treeValid, s.codesValid)

/-- With the same tree fields only the memories and the registers are left to check. -/
theorem Inv.of_treeFields_eq (h : Inv s) (he : treeFields t = treeFields s) (hm : MemoriesCanonical t)
    (hr : RegistersInRange t) : Inv t := by
  simp only [treeFields, Prod.mk.injEq] at he
  obtain ⟨hfreq, hnode, hcode, hresets, hnsym, hroot, hnnodes, htv, hcv⟩ := he
  have hf : SameFreq s t := fun k => by rw [State.freqAt, State.freqAt, hfreq, hresets]
  have ht : SameTree s t :=
    ⟨fun k => by rw [State.nodeAt, State.nodeAt, hnode, hresets], hnsym, hroot, hnnodes, htv⟩
  have hc : SameCodes s t := ⟨fun k => by rw [State.codeAt, State.codeAt, hcode, hresets], hcv⟩
  exact ⟨hm, hr, fun hv => treeMatches_of_same hf ht (h.tree (htv ▸ hv)),
    fun hv => codesMatch_of_same hf ht hc (h.codes (hcv ▸ hv))⟩

/-- Without a valid tree and valid codes only the memories and the registers are left to check. -/
theorem inv_of_invalid (ht : t.treeValid = false) (hc : t.codesValid = false) (hm : MemoriesCanonical t)
    (hr : RegistersInRange t) : Inv t where
  memories := hm
  registers := hr
  tree hv := absurd hv (by simp [ht])
  codes hv := absurd hv (by simp [hc])

/-! ### Reset -/

/-- A reset state meets the invariant, whatever the parameters and the model's own fields. -/
theorem inv_resetWith (p : Params) (resets draws : Nat) (inputs : List Input) :
    Inv (State.resetWith p resets draws inputs) :=
  inv_of_invalid rfl rfl ⟨memory_wf_nil _, memory_wf_nil _, memory_wf_nil _, memory_wf_nil _, memory_wf_nil _⟩
    ⟨Nat.zero_le _, fun _ => rfl, by simp [State.resetWith], by simp [State.resetWith], fun _ => ⟨rfl, rfl⟩, id⟩

/-! ### Host accesses -/

theorem Inv.withInputs (h : Inv s) (rest : List Input) : Inv { s with inputs := rest } :=
  h.of_treeFields_eq rfl h.memories h.registers

theorem Inv.hostRead (h : Inv s) (addr : Offset) : Inv (s.hostRead addr) :=
  h.of_treeFields_eq rfl h.memories h.registers

theorem Inv.rejectAccess (h : Inv s) : Inv s.rejectAccess := h.of_treeFields_eq rfl h.memories h.registers

/-- Acceptance clears DONE and ERROR, as the invariant asks while BUSY. -/
theorem Inv.accept (h : Inv s) (v : Word) : Inv (s.accept v) := by
  obtain ⟨hcode, hpos, hindex, htree, -, hvalid⟩ := h.registers
  exact h.of_treeFields_eq rfl h.memories ⟨hcode, hpos, hindex, htree, fun _ => ⟨rfl, rfl⟩, hvalid⟩

theorem Inv.cmdWrite (h : Inv s) (v : Word) : Inv (s.cmdWrite v) := by
  rw [State.cmdWrite]
  split
  · exact h.rejectAccess
  · exact h.accept v

/-- A STATUS write only clears flags. -/
theorem Inv.statusWrite (h : Inv s) (v : Word) : Inv (s.statusWrite v) := by
  obtain ⟨hcode, hpos, hindex, htree, hbusy, hvalid⟩ := h.registers
  refine h.of_treeFields_eq rfl h.memories ⟨hcode, hpos, hindex, htree, fun hb => ?_, hvalid⟩
  obtain ⟨hdone, herror⟩ := hbusy hb
  simp [hdone, herror]

/-- A FREQ write invalidates the tree and the codes. -/
theorem Inv.freqWrite (h : Inv s) {k : Nat} (hk : k < 256) (v : Word) : Inv (s.freqWrite k v) := by
  obtain ⟨hfreq, hnode, hcode, hsym, hbit⟩ := h.memories
  obtain ⟨herr, hpos, hindex, htree, hbusy, -⟩ := h.registers
  exact inv_of_invalid rfl rfl ⟨memory_wf_writeRange hfreq hk, hnode, hcode, hsym, hbit⟩
    ⟨herr, hpos, hindex, htree, hbusy, id⟩

/-- A word of the SYM window lies inside the buffer as a whole. -/
theorem Inv.symWrite (h : Inv s) (w : Nat) (v : Word) : Inv (s.symWrite w v) := by
  rw [State.symWrite]
  split
  · next hw =>
    obtain ⟨hfreq, hnode, hcode, hsym, hbit⟩ := h.memories
    refine h.of_treeFields_eq rfl ⟨hfreq, hnode, hcode, memory_wf_writeRange hsym ?_, hbit⟩ h.registers
    simp only [List.length_cons, List.length_nil]
    omega
  · exact h

/-- A word of the BIT window lies inside the buffer as a whole. -/
theorem Inv.bitWrite (h : Inv s) (w : Nat) (v : Word) : Inv (s.bitWrite w v) := by
  rw [State.bitWrite]
  split
  · next hw =>
    obtain ⟨hfreq, hnode, hcode, hsym, hbit⟩ := h.memories
    refine h.of_treeFields_eq rfl ⟨hfreq, hnode, hcode, hsym, memory_wf_writeRange hbit ?_⟩ h.registers
    simp only [List.length_map, List.length_range]
    omega
  · exact h

theorem Inv.hostWrite (h : Inv s) (addr : Offset) (v : Word) : Inv (s.hostWrite addr v) := by
  obtain ⟨-, -, he⟩ | ⟨-, he⟩ := hostWrite_cases s addr v <;> rw [he]
  · exact h.rejectAccess
  · cases ht : targetOf addr with
    | cmd => exact h.cmdWrite v
    | status => exact h.statusWrite v
    | irqEn | symLen | bitLen => exact h.of_treeFields_eq rfl h.memories h.registers
    | freq k => exact h.freqWrite (targetAt_freq_lt ht) v
    | sym w => exact h.symWrite w v
    | bit w => exact h.bitWrite w v
    | id | version | paramSym | paramBit | errCode | errIndex | nsym | root | nnodes | node | code | reserved => exact h

/-! ### Completion -/

theorem errCodeNumber_le (code : ErrCode) : (errCodeNumber code).toNat ≤ 8 := by
  cases code <;> decide

/-- A completion with a position only for the codes that have one (60_exceptions.md rule R231). -/
theorem Inv.completeWith (h : Inv s) {code : ErrCode} {index : Nat}
    (hpos : (errCodeNumber code).toNat ∈ [0, 1, 4, 5, 7, 8] → index = 0) (hindex : index < 2 ^ 18) :
    Inv (s.completeWith code index) := by
  obtain ⟨-, -, -, htree, -, hvalid⟩ := h.registers
  refine h.of_treeFields_eq rfl h.memories ⟨errCodeNumber_le code, fun hc => ?_, ?_, htree, fun hb => ?_, hvalid⟩
  · rw [completeWith_errIndex, hpos hc]
  · rw [completeWith_errIndex, BitVec.toNat_ofNat]
    omega
  · exact absurd hb (by simp)

theorem Inv.completeWith_zero (h : Inv s) (code : ErrCode) : Inv (s.completeWith code 0) :=
  h.completeWith (fun _ => rfl) (by decide)

/-! ### CLEAR_FREQ, BUILD_TREE and GEN_CODES -/

theorem Inv.clearFreq (h : Inv s) : Inv s.clearFreq.invalidate := by
  obtain ⟨hfreq, hnode, hcode, hsym, hbit⟩ := h.memories
  obtain ⟨herr, hpos, hindex, htree, hbusy, -⟩ := h.registers
  refine inv_of_invalid rfl rfl ⟨memory_wf_writeRange hfreq ?_, hnode, hcode, hsym, hbit⟩
    ⟨herr, hpos, hindex, htree, hbusy, id⟩
  rw [List.length_replicate]
  exact le_rfl

theorem Inv.buildEmpty (h : Inv s) : Inv s.buildEmpty := by
  obtain ⟨herr, hpos, hindex, -, hbusy, -⟩ := h.registers
  exact inv_of_invalid rfl rfl h.memories ⟨herr, hpos, hindex, by simp, hbusy, id⟩

/-- A build of a non-empty alphabet stores a tree that fits the arena. -/
theorem Inv.buildFrom (h : Inv s) (hne : leavesOf s.freqAt ≠ []) : Inv (s.buildFrom (leavesOf s.freqAt)) := by
  have htree := treeMatches_buildFrom hne
  have hle := leafCount_le s
  have hlen := leavesOf_length s
  have hsize := arenaOf_length (leavesOf s.freqAt)
  obtain ⟨hfreq, hnode, hcode, hsym, hbit⟩ := h.memories
  obtain ⟨herr, hpos, hindex, -, hbusy, -⟩ := h.registers
  refine ⟨⟨hfreq, memory_wf_writeRange hnode (by omega), hcode, hsym, hbit⟩,
    ⟨herr, hpos, hindex, ?_, hbusy, fun _ => rfl⟩, fun _ => htree, fun hv => absurd hv (by simp)⟩
  simp only [buildFrom_nsym, buildFrom_root, buildFrom_nnodes, BitVec.toNat_ofNat]
  omega

/-- The table that GEN_CODES stores is the code table of the present tree. -/
theorem Inv.withCodes (h : Inv s) (hv : s.treeValid = true) {tbl : Memory CodeEntry}
    (htbl : s.codeTable = .table tbl) : Inv (withCodes s tbl) := by
  obtain ⟨hfreq, hnode, hcode, hsym, hbit⟩ := h.memories
  obtain ⟨herr, hpos, hindex, htree, hbusy, -⟩ := h.registers
  exact ⟨⟨hfreq, hnode, codeTable_wf htbl hcode, hsym, hbit⟩, ⟨herr, hpos, hindex, htree, hbusy, fun _ => hv⟩,
    fun _ => h.tree hv, fun _ => codesMatch_codeTable (h.tree hv) htbl⟩

theorem Inv.exec_buildTree (h : Inv s) (he : exec .buildTree s = .next t) : Inv t := by
  obtain ⟨-, ht⟩ | ⟨hne, ht⟩ := exec_buildTree_cases s <;> cases ht.symm.trans he
  · exact h.buildEmpty.completeWith_zero _
  · exact (h.buildFrom hne).completeWith_zero _

theorem Inv.exec_genCodes (h : Inv s) (he : exec .genCodes s = .next t) : Inv t := by
  obtain ⟨-, ht⟩ | ⟨hv, tbl, htbl, ht⟩ | ⟨-, why, -, ht⟩ := exec_genCodes_cases s <;> cases ht.symm.trans he
  · exact h.completeWith_zero _
  · exact (h.withCodes hv htbl).completeWith_zero _

/-! ### ENCODE and DECODE -/

/-- The bits the encoder's loop has written when it ends. -/
def encodeEndOut : EncodeEnd → List Bool
  | .done out => out
  | .failed _ _ out => out

/-- The encoder writes no bit beyond the buffer (44_encoder.md rule R193). -/
theorem encodeLoop_out_length_le {codeAt : Nat → CodeEntry} {cap i : Nat} {out : List Bool} {xs : List Symbol}
    (h : out.length ≤ cap) : (encodeEndOut (encodeLoop codeAt cap i out xs)).length ≤ cap := by
  induction xs generalizing i out with
  | nil => exact h
  | cons x xs ih =>
    rw [encodeLoop]
    split_ifs with hlen hcap
    · exact h
    · exact h
    · refine ih ?_
      rw [List.length_append, codeString_length]
      omega

/-- The symbols the decoder's loop has written when it ends. -/
def decodeEndOut : DecodeEnd → List Symbol
  | .done out => out
  | .failed _ _ out => out
  | .stuck _ => []

/-- The decoder writes no symbol beyond the buffer (45_decoder.md rule R217). -/
theorem decodeLoop_out_length_le {arenaAt? : Nat → Option Node} {r cap i k start : Nat} {out : List Symbol}
    {bits : List Bool} (h : out.length ≤ cap) :
    (decodeEndOut (decodeLoop arenaAt? r cap i k start out bits)).length ≤ cap := by
  induction bits generalizing i k start out with
  | nil =>
    rw [decodeLoop]
    split_ifs
    · exact h
    · exact h
  | cons b bits ih =>
    rw [decodeLoop]
    split
    · exact Nat.zero_le _
    · split
      · exact Nat.zero_le _
      · next nd' _ =>
        by_cases hleaf : nd'.leaf = true
        · rw [if_pos hleaf]
          by_cases hcap : out.length = cap
          · rw [if_pos hcap]
            exact h
          · rw [if_neg hcap]
            refine ih ?_
            rw [List.length_append, List.length_singleton]
            omega
        · rw [if_neg hleaf]
          exact ih h

theorem Inv.encodeOutput (h : Inv s) {out : List Bool} (hout : out.length ≤ s.params.bitDepth) (len : Nat) :
    Inv (s.encodeOutput out len) := by
  obtain ⟨hfreq, hnode, hcode, hsym, hbit⟩ := h.memories
  have hb := memory_wf_writeRange hbit ((Nat.zero_add out.length).trans_le hout)
  exact h.of_treeFields_eq rfl ⟨hfreq, hnode, hcode, hsym, hb⟩ h.registers

theorem Inv.decodeOutput (h : Inv s) {out : List Symbol} (hout : out.length ≤ s.params.symDepth) (len : Nat) :
    Inv (s.decodeOutput out len) := by
  obtain ⟨hfreq, hnode, hcode, hsym, hbit⟩ := h.memories
  have hs := memory_wf_writeRange hsym ((Nat.zero_add out.length).trans_le hout)
  exact h.of_treeFields_eq rfl ⟨hfreq, hnode, hcode, hs, hbit⟩ h.registers

/-- ENCODE's failures in its loop have a position: the index of a symbol (60_exceptions.md rule R231). -/
theorem encodeLoop_failed {codeAt : Nat → CodeEntry} {cap index : Nat} {xs : List Symbol} {code : ErrCode}
    {out : List Bool} (h : encodeLoop codeAt cap 0 [] xs = .failed code index out) :
    (code = .symbolNotInAlphabet ∨ code = .outputOverflow) ∧ index < xs.length := by
  obtain ⟨r, hr, -⟩ | ⟨code', pre, x, post, hxs, hr, -, hcode⟩ := encodeLoop_cases codeAt cap 0 [] xs
  · cases hr.symm.trans h
  · cases hr.symm.trans h
    refine ⟨hcode.imp And.left And.left, ?_⟩
    rw [hxs, List.length_append, List.length_cons]
    omega

/-- DECODE's failures in its loop have a position: the index of a bit, or 0 (60_exceptions.md rule R231). -/
theorem decodeLoop_failed {arenaAt? : Nat → Option Node} {r cap index : Nat} {bits : List Bool} {code : ErrCode}
    {out : List Symbol} (h : decodeLoop arenaAt? r cap 0 r 0 [] bits = .failed code index out) :
    (code = .truncatedStream ∨ code = .outputOverflow) ∧ index ≤ bits.length := by
  obtain ⟨more, hr, -⟩ | ⟨more, i, hr, -, hi⟩ | ⟨more, i, hr, -, hi⟩ | hr :=
    decodeLoop_cases arenaAt? r cap 0 r 0 [] bits <;> cases hr.symm.trans h
  · exact ⟨.inl rfl, by omega⟩
  · exact ⟨.inr rfl, by omega⟩

theorem Inv.exec_encode (h : Inv s) (he : exec .encode s = .next t) : Inv t := by
  have hfits := encodeLoop_out_length_le (codeAt := s.codeAt) (i := 0) (out := [])
    (xs := s.symbolsIn s.symLen.toNat) (Nat.zero_le s.params.bitDepth)
  obtain ⟨-, ht⟩ | ⟨-, -, ht⟩ | ⟨-, -, out, hl, ht⟩ | ⟨-, hle, code, index, out, hl, ht⟩ := exec_encode_cases s <;>
    cases ht.symm.trans he
  · exact (h.encodeOutput (Nat.zero_le _) 0).completeWith_zero _
  · exact (h.encodeOutput (Nat.zero_le _) 0).completeWith_zero _
  · rw [hl] at hfits
    exact (h.encodeOutput hfits _).completeWith_zero _
  · rw [hl] at hfits
    obtain ⟨hcode, hindex⟩ := encodeLoop_failed hl
    have := symDepth_le s.params
    rw [State.symbolsIn, List.length_map, List.length_range] at hindex
    refine (h.encodeOutput hfits 0).completeWith (fun hc => absurd hc ?_) (by omega)
    obtain rfl | rfl := hcode <;> decide

theorem Inv.exec_decode (h : Inv s) (he : exec .decode s = .next t) : Inv t := by
  have hfits := decodeLoop_out_length_le (arenaAt? := s.arenaAt?) (r := s.root.toNat) (i := 0) (k := s.root.toNat)
    (start := 0) (out := []) (bits := s.bitsIn s.bitLen.toNat) (Nat.zero_le s.params.symDepth)
  obtain ⟨-, ht⟩ | ⟨-, -, ht⟩ | ⟨-, -, out, hl, ht⟩ | ⟨-, hle, code, index, out, hl, ht⟩ | ⟨-, -, why, -, ht⟩ :=
    exec_decode_cases s <;> cases ht.symm.trans he
  · exact (h.decodeOutput (Nat.zero_le _) 0).completeWith_zero _
  · exact (h.decodeOutput (Nat.zero_le _) 0).completeWith_zero _
  · rw [hl] at hfits
    exact (h.decodeOutput hfits _).completeWith_zero _
  · rw [hl] at hfits
    obtain ⟨hcode, hindex⟩ := decodeLoop_failed hl
    have := bitDepth_le s.params
    rw [State.bitsIn, List.length_map, List.length_range] at hindex
    refine (h.decodeOutput hfits 0).completeWith (fun hc => absurd hc ?_) (by omega)
    obtain rfl | rfl := hcode <;> decide

/-! ### The engine and the step -/

/-- Every command keeps the invariant. -/
theorem Inv.exec {i : Instr} (h : Inv s) (he : exec i s = .next t) : Inv t := by
  cases i with
  | nop => cases he; exact h.completeWith_zero _
  | clearFreq => cases he; exact h.clearFreq.completeWith_zero _
  | buildTree => exact h.exec_buildTree he
  | genCodes => exact h.exec_genCodes he
  | encode => exact h.exec_encode he
  | decode => exact h.exec_decode he

theorem Inv.engineStep (h : Inv s) (he : engineStep s = .next t) : Inv t := by
  obtain ⟨-, ht⟩ | ⟨w, i, -, -, ht⟩ | ⟨w, why, -, -, ht⟩ := engineStep_cases s
  · cases ht.symm.trans he; exact h
  · exact h.exec (ht ▸ he)
  · cases ht.symm.trans he; exact h.completeWith_zero _

/-- Every step of the block keeps the invariant. -/
theorem Inv.step (h : Inv s) (he : step s = .next t) : Inv t := by
  obtain ⟨-, ht⟩ | ⟨rest, addr, -, ht⟩ | ⟨rest, addr, v, -, ht⟩ | ⟨rest, -, ht⟩ | ⟨rest, -, ht⟩ := step_cases s
  · exact h.engineStep (ht ▸ he)
  · cases ht.symm.trans he; exact (h.withInputs rest).hostRead addr
  · cases ht.symm.trans he; exact (h.withInputs rest).hostWrite addr v
  · exact (h.withInputs rest).engineStep (ht ▸ he)
  · cases ht.symm.trans he; exact inv_resetWith _ _ _ _

end Sys2Proof.Safety

namespace Sys2Proof.Proofs

open Sys2Proof.Machine Sys2Proof.Safety

/-- Settles O9: the reset state is one of the states of `inv_resetWith`. -/
theorem invariantHoldsAtReset : Obligations.InvariantHoldsAtReset := inv_resetWith _ _ _ _

/-- Settles O57, by the cases of a step: each host access, each command's meaning and reset keep the invariant. -/
theorem stepKeepsInvariant : Obligations.StepKeepsInvariant := fun _ _ h he => h.step he

end Sys2Proof.Proofs

/-! The host's accesses to the windows: what each of the NODE, CODE, SYM and BIT windows reads, and which accesses are
the same access (20_memory.md rules R63 to R66, R69 and R70). -/

namespace Sys2Proof.Safety

open Sys2Proof.Machine

/-! ### The address map of the windows (20_memory.md rule R61) -/

theorem targetAt_node {i w : Nat} (hi : i ≤ 511) (hw : w < 4) : targetAt (0x2000 + 16 * i + 4 * w) = .node i w := by
  simp only [targetAt, ite_eq_iff, reduceCtorEq, Target.node.injEq, and_false, false_or, or_false]
  omega

theorem targetAt_code {x w : Nat} (hx : x < 256) (hw : w < 16) : targetAt (0x4000 + 64 * x + 4 * w) = .code x w := by
  simp only [targetAt, ite_eq_iff, reduceCtorEq, Target.code.injEq, and_false, false_or, or_false]
  omega

theorem targetAt_sym {w : Nat} (hw : w < 4096) : targetAt (0x8000 + 4 * w) = .sym w := by
  simp only [targetAt, ite_eq_iff, reduceCtorEq, Target.sym.injEq, and_false, false_or, or_false]
  omega

theorem targetAt_bit {w : Nat} (hw : w < 4096) : targetAt (0xC000 + 4 * w) = .bit w := by
  simp only [targetAt, ite_eq_iff, reduceCtorEq, Target.bit.injEq, and_false, false_or, or_false]
  omega

/-! ### Accesses by target -/

section
variable {s : State} {addr a b : Offset} {o : Nat} {T : Target}

/-- A read depends on its offset only through the target. -/
theorem hostRead_congr (h : targetOf a = targetOf b) : s.hostRead a = s.hostRead b := by
  have hd : s.readIsDrawn a = s.readIsDrawn b := by rw [State.readIsDrawn, State.readIsDrawn, h]
  have hv : s.readValue a = s.readValue b := by rw [State.readValue, State.readValue, hd, h]
  rw [State.hostRead, State.hostRead, hd, hv]

/-- A write depends on its offset only through the target. -/
theorem hostWrite_congr (h : targetOf a = targetOf b) (v : Word) : s.hostWrite a v = s.hostWrite b v := by
  simp only [State.hostWrite, h]

/-- A write to a target that is not guarded, or while idle, has the effect of its target. -/
theorem hostWrite_eq_targetWrite (hw : wordOffset addr = o) (hT : targetAt o = T)
    (hg : guarded T = false ∨ s.busy = false) (v : Word) : s.hostWrite addr v = s.targetWrite v T := by
  subst hw hT
  rw [State.hostWrite, targetOf_eq, if_neg]
  obtain hg | hg := hg <;> simp [hg]

end

/-! ### NODE (20_memory.md rule R63) -/

/-- Two fields in one word: the upper one counts in units of the lower one's range. -/
theorem toNat_append_eq_add {m n : Nat} (x : BitVec m) (y : BitVec n) :
    (x ++ y).toNat = x.toNat * 2 ^ n + y.toNat := by
  rw [BitVec.toNat_append, ← Nat.shiftLeft_add_eq_or_of_lt y.isLt, Nat.shiftLeft_eq]

/-- The four words of a node record as numbers. -/
theorem nodeRecordWord_toNat (nd : Node) {w : Nat} (hw : w < 4) :
    (nodeRecordWord nd w).toNat =
      (if w = 0 then nd.freq.toNat % 2 ^ 32
       else if w = 1 then nd.freq.toNat / 2 ^ 32
       else if w = 2 then nd.leaf.toNat * 2 ^ 31 + nd.sym.toNat
       else nd.child0.toNat + nd.child1.toNat * 2 ^ 16) := by
  obtain rfl | rfl | rfl | rfl : w = 0 ∨ w = 1 ∨ w = 2 ∨ w = 3 := by omega
  · simp [nodeRecordWord]
  · have := nd.freq.isLt
    simp only [nodeRecordWord, toNat_append_eq_add, BitVec.extractLsb'_toNat, BitVec.toNat_ofNat,
      Nat.shiftRight_eq_div_pow]
    simp
    omega
  · simp only [nodeRecordWord, toNat_append_eq_add, BitVec.toNat_ofBool, BitVec.toNat_ofNat]
    simp
    omega
  · simp only [nodeRecordWord, toNat_append_eq_add, BitVec.toNat_ofNat]
    simp
    omega

/-! ### CODE (20_memory.md rule R64) -/

section
variable (s : State) (x : Nat)

theorem codeWord_zero_toNat : (s.codeWord x 0).toNat = (s.codeAt x).len.toNat := by
  rw [State.codeWord, if_pos rfl]
  exact BitVec.toNat_setWidth_of_le (by decide)

/-- Bit `b` of word `w` is the code bit at `32 (w - 1) + b`; the code has no bit 255. -/
theorem codeWord_getLsbD {w b : Nat} (h₁ : 1 ≤ w) (h₈ : w ≤ 8) (hb : b < 32) : (s.codeWord x w).getLsbD b =
    (decide (32 * (w - 1) + b ≤ 254) && (s.codeAt x).bits.getLsbD (32 * (w - 1) + b)) := by
  rw [State.codeWord, if_neg (by omega), if_pos h₈, BitVec.getLsbD_extractLsb', decide_eq_true hb, Bool.true_and]
  by_cases h : 32 * (w - 1) + b ≤ 254
  · rw [decide_eq_true h, Bool.true_and]
  · rw [decide_eq_false h, Bool.false_and, BitVec.getLsbD_of_ge _ _ (by omega)]

theorem codeWord_reserved {w : Nat} (h : 9 ≤ w) : s.codeWord x w = 0#32 := by
  rw [State.codeWord, if_neg (by omega), if_neg (by omega)]

end

/-! ### SYM and BIT (20_memory.md rules R65 and R66) -/

/-- Lane 0 is the byte appended last. -/
theorem lane_zero_append {n : Nat} (x : BitVec n) (b : BitVec 8) : (x ++ b).extractLsb' (8 * 0) 8 = b := by
  rw [BitVec.extractLsb'_append_eq_of_add_le (by omega), BitVec.extractLsb'_eq_self]

/-- The lanes above it are those of the bytes before. -/
theorem lane_succ_append {n : Nat} (x : BitVec n) (b : BitVec 8) (k : Nat) :
    (x ++ b).extractLsb' (8 * (k + 1)) 8 = x.extractLsb' (8 * k) 8 := by
  rw [BitVec.extractLsb'_append_eq_of_le (by omega), Nat.mul_succ, Nat.add_sub_cancel]

section
variable {s : State} {w : Nat}

/-- Lane `k` of a word inside the buffer is the symbol at `4 w + k`. -/
theorem symWord_lane (hw : w < s.params.symDepth / 4) {k : Nat} (hk : k < 4) :
    (s.symWord w).extractLsb' (8 * k) 8 = s.symAt (4 * w + k) := by
  rw [State.symWord, if_pos hw]
  obtain rfl | rfl | rfl | rfl : k = 0 ∨ k = 1 ∨ k = 2 ∨ k = 3 := by omega
  · exact lane_zero_append _ _
  · exact (lane_succ_append _ _ 0).trans (lane_zero_append _ _)
  · exact (lane_succ_append _ _ 1).trans ((lane_succ_append _ _ 0).trans (lane_zero_append _ _))
  · exact (lane_succ_append _ _ 2).trans ((lane_succ_append _ _ 1).trans
      ((lane_succ_append _ _ 0).trans (BitVec.extractLsb'_eq_self)))

theorem symWord_outside (hw : s.params.symDepth / 4 ≤ w) : s.symWord w = 0#32 := by
  rw [State.symWord, if_neg (by omega)]

/-- Bit `b` of a word inside the buffer is the bit at `32 w + b`. -/
theorem bitWord_getLsbD (hw : w < s.params.bitDepth / 32) {b : Nat} (hb : b < 32) :
    (s.bitWord w).getLsbD b = s.bitAt (32 * w + b) := by
  rw [State.bitWord, if_pos hw, BitVec.getLsbD_ofNat, bitsToNat_testBit]
  simp [hb]

theorem bitWord_outside (hw : s.params.bitDepth / 32 ≤ w) : s.bitWord w = 0#32 := by
  rw [State.bitWord, if_neg (by omega)]

end
end Sys2Proof.Safety

namespace Sys2Proof.Proofs

open Sys2Proof.Machine Sys2Proof.Safety

/-- Settles O18: offsets with one aligned word have one target, and an access sees the target only. -/
theorem lowOffsetBitsAreIgnored : Obligations.LowOffsetBitsAreIgnored := by
  intro s a b v h
  have hT : targetOf a = targetOf b := by rw [targetOf_eq, targetOf_eq, h]
  exact ⟨hostRead_congr hT, hostWrite_congr hT v⟩

/-- Settles O19: `hostRead` updates no other field. -/
theorem readsChangeNoState : Obligations.ReadsChangeNoState := fun _ _ => rfl

/-- Settles O22: a read returns the word of the entry's record, and NODE is no target that a write changes. -/
theorem nodeWindowShowsTheArena : Obligations.NodeWindowShowsTheArena := by
  intro s addr i w hi hw ha
  have hT := targetAt_node hi hw
  refine ⟨fun hb => ?_, fun v => hostWrite_eq_targetWrite ha hT (.inl rfl) v⟩
  have hr : (s.hostRead addr).rdata = s.nodeWord i w := hostRead_rdata_eq ha (.inl hb) hT
  rw [hr, State.nodeWord, maxNodes]
  refine ⟨fun h => if_neg (by omega), fun h => ?_⟩
  rw [if_pos (by omega)]
  exact nodeRecordWord_toNat _ hw

/-- Settles O23: a read returns the length, the code bits or 0 by its word, and CODE is no target that a write
changes. -/
theorem codeWindowShowsTheCodes : Obligations.CodeWindowShowsTheCodes := by
  intro s addr x w hx hw ha
  have hT := targetAt_code hx hw
  refine ⟨fun hb => ?_, fun v => hostWrite_eq_targetWrite ha hT (.inl rfl) v⟩
  have hr : (s.hostRead addr).rdata = s.codeWord x w := hostRead_rdata_eq ha (.inl hb) hT
  rw [hr]
  refine ⟨?_, fun h₁ h₈ b => codeWord_getLsbD s x h₁ h₈, codeWord_reserved s x⟩
  rintro rfl
  exact codeWord_zero_toNat s x

/-- Settles O24: while idle a read returns the window's word, inside the buffer and beyond it. -/
theorem symAndBitWindowReads : Obligations.SymAndBitWindowReads := by
  intro s addr w hb hw
  refine ⟨fun ha => ?sym, fun ha => ?bit⟩
  case sym =>
    have hr : (s.hostRead addr).rdata = s.symWord w := hostRead_rdata_eq ha (.inl hb) (targetAt_sym hw)
    rw [hr]
    exact ⟨fun h k => symWord_lane h, symWord_outside⟩
  case bit =>
    have hr : (s.hostRead addr).rdata = s.bitWord w := hostRead_rdata_eq ha (.inl hb) (targetAt_bit hw)
    rw [hr]
    exact ⟨fun h b => bitWord_getLsbD h, bitWord_outside⟩

end Sys2Proof.Proofs

/-! What ENCODE and DECODE leave unchanged, and which steps of the block can change the tree and the code table
(20_memory.md rule R79). -/

namespace Sys2Proof.Safety

open Sys2Proof.Machine

variable {s t : State}

/-! ### The ends of ENCODE and DECODE (44_encoder.md rule R196, 45_decoder.md rule R219) -/

/-- ENCODE writes from the start of BIT what fits and completes: BIT_LEN counts it after a success and is 0 after a
failure. -/
theorem exec_encode_end (he : exec .encode s = .next t) :
    ∃ out len code index, t = (s.encodeOutput out len).completeWith code index ∧ out.length ≤ s.params.bitDepth ∧
      (errCodeNumber code ≠ 0#8 → len = 0) ∧ (errCodeNumber code = 0#8 → len = out.length) := by
  have hfits := encodeLoop_out_length_le (codeAt := s.codeAt) (i := 0) (out := [])
    (xs := s.symbolsIn s.symLen.toNat) (Nat.zero_le s.params.bitDepth)
  obtain ⟨-, ht⟩ | ⟨-, -, ht⟩ | ⟨-, -, out, hl, ht⟩ | ⟨-, -, code, index, out, hl, ht⟩ := exec_encode_cases s <;>
    cases ht.symm.trans he
  · exact ⟨[], 0, _, _, rfl, Nat.zero_le _, fun _ => rfl, fun _ => rfl⟩
  · exact ⟨[], 0, _, _, rfl, Nat.zero_le _, fun _ => rfl, fun _ => rfl⟩
  · rw [hl] at hfits
    exact ⟨out, _, _, _, rfl, hfits, fun hc => absurd rfl hc, fun _ => rfl⟩
  · rw [hl] at hfits
    refine ⟨out, 0, _, _, rfl, hfits, fun _ => rfl, fun hc => absurd hc ?_⟩
    obtain rfl | rfl := (encodeLoop_failed hl).1 <;> decide

/-- DECODE writes from the start of SYM what fits and completes: SYM_LEN counts it after a success and is 0 after a
failure. -/
theorem exec_decode_end (he : exec .decode s = .next t) :
    ∃ out len code index, t = (s.decodeOutput out len).completeWith code index ∧ out.length ≤ s.params.symDepth ∧
      (errCodeNumber code ≠ 0#8 → len = 0) ∧ (errCodeNumber code = 0#8 → len = out.length) := by
  have hfits := decodeLoop_out_length_le (arenaAt? := s.arenaAt?) (r := s.root.toNat) (i := 0) (k := s.root.toNat)
    (start := 0) (out := []) (bits := s.bitsIn s.bitLen.toNat) (Nat.zero_le s.params.symDepth)
  obtain ⟨-, ht⟩ | ⟨-, -, ht⟩ | ⟨-, -, out, hl, ht⟩ | ⟨-, -, code, index, out, hl, ht⟩ | ⟨-, -, why, -, ht⟩ :=
    exec_decode_cases s <;> cases ht.symm.trans he
  · exact ⟨[], 0, _, _, rfl, Nat.zero_le _, fun _ => rfl, fun _ => rfl⟩
  · exact ⟨[], 0, _, _, rfl, Nat.zero_le _, fun _ => rfl, fun _ => rfl⟩
  · rw [hl] at hfits
    exact ⟨out, _, _, _, rfl, hfits, fun hc => absurd rfl hc, fun _ => rfl⟩
  · rw [hl] at hfits
    refine ⟨out, 0, _, _, rfl, hfits, fun _ => rfl, fun hc => absurd hc ?_⟩
    obtain rfl | rfl := (decodeLoop_failed hl).1 <;> decide

/-- ENCODE's output leaves every later BIT entry. -/
theorem bitAt_encodeOutput_of_le {out : List Bool} {k : Nat} (h : out.length ≤ k) (len : Nat) :
    (s.encodeOutput out len).bitAt k = s.bitAt k := by
  rw [bitAt_encodeOutput, List.getElem?_eq_none h, Option.getD_none]

/-- DECODE's output leaves every later SYM entry. -/
theorem symAt_decodeOutput_of_le {out : List Symbol} {k : Nat} (h : out.length ≤ k) (len : Nat) :
    (s.decodeOutput out len).symAt k = s.symAt k := by
  rw [symAt_decodeOutput, List.getElem?_eq_none h, Option.getD_none]

/-! ### What changes the tree -/

/-- The same tree fields read as the same FREQ, tree and codes, these under any condition a statement puts on them. -/
theorem keepsTree_of_treeFields_eq {p : Prop} (he : treeFields t = treeFields s) :
    SameFreq s t ∧ SameTree s t ∧ (p → SameCodes s t) := by
  simp only [treeFields, Prod.mk.injEq] at he
  obtain ⟨hfreq, hnode, hcode, hresets, hnsym, hroot, hnnodes, htv, hcv⟩ := he
  exact ⟨fun k => by rw [State.freqAt, State.freqAt, hfreq, hresets],
    ⟨fun k => by rw [State.nodeAt, State.nodeAt, hnode, hresets], hnsym, hroot, hnnodes, htv⟩,
    fun _ => ⟨fun k => by rw [State.codeAt, State.codeAt, hcode, hresets], hcv⟩⟩

/-- The targets FREQ[k] lie in the FREQ window (20_memory.md rule R62). -/
theorem targetAt_freq_window {o k : Nat} (h : targetAt o = .freq k) : 0x0400 ≤ o ∧ o ≤ 0x07FC := by
  simp only [targetAt, ite_eq_iff, reduceCtorEq, Target.freq.injEq, and_false, false_or, or_false] at h
  omega

/-- A host write outside the FREQ window changes no tree field. -/
theorem treeFields_hostWrite {addr : Offset} (h : ¬ (0x0400 ≤ wordOffset addr ∧ wordOffset addr ≤ 0x07FC))
    (v : Word) : treeFields (s.hostWrite addr v) = treeFields s := by
  obtain ⟨-, -, he⟩ | ⟨-, he⟩ := hostWrite_cases s addr v <;> rw [he]
  · rfl
  · cases ht : targetOf addr with
    | freq k => exact absurd (targetAt_freq_window (targetOf_eq addr ▸ ht)) h
    | cmd =>
      rw [State.targetWrite, State.cmdWrite]
      split <;> rfl
    | sym w =>
      rw [State.targetWrite, State.symWrite]
      split <;> rfl
    | bit w =>
      rw [State.targetWrite, State.bitWrite]
      split <;> rfl
    | status | irqEn | symLen | bitLen => rfl
    | id | version | paramSym | paramBit | errCode | errIndex | nsym | root | nnodes | node | code | reserved => rfl

/-- Of the commands that keep FREQ and the tree, only GEN_CODES changes the codes. -/
theorem exec_keepsTree {i : Instr} (he : exec i s = .next t) (hclear : i ≠ .clearFreq) (hbuild : i ≠ .buildTree) :
    SameFreq s t ∧ SameTree s t ∧ (i ≠ .genCodes → SameCodes s t) := by
  cases i with
  | clearFreq => exact absurd rfl hclear
  | buildTree => exact absurd rfl hbuild
  | nop => cases he; exact keepsTree_of_treeFields_eq rfl
  | genCodes =>
    obtain ⟨-, ht⟩ | ⟨-, tbl, -, ht⟩ | ⟨-, why, -, ht⟩ := exec_genCodes_cases s <;> cases ht.symm.trans he
    · exact keepsTree_of_treeFields_eq rfl
    · exact ⟨fun _ => rfl, ⟨fun _ => rfl, rfl, rfl, rfl, rfl⟩, fun h => absurd rfl h⟩
  | encode =>
    obtain ⟨out, len, code, index, rfl, -⟩ := exec_encode_end he
    exact keepsTree_of_treeFields_eq rfl
  | decode =>
    obtain ⟨out, len, code, index, rfl, -⟩ := exec_decode_end he
    exact keepsTree_of_treeFields_eq rfl

/-- At the engine's turn the command run is the pending one. -/
theorem commandRun_eq_some {w : Word} {i : Instr} (hturn : engineTurn s = true) (hp : s.pending = some w)
    (hd : decode w = .command i) : commandRun s = some i := by
  simp [commandRun, hturn, hp, hd]

/-- An engine step keeps the tree and the codes, but for the three commands that write them; `run` is the command that
is counted as run. -/
theorem engineStep_keepsTree {run : Option Instr}
    (hrun : ∀ w i, s.pending = some w → decode w = .command i → run = some i) (he : engineStep s = .next t)
    (hclear : run ≠ some .clearFreq) (hbuild : run ≠ some .buildTree) :
    SameFreq s t ∧ SameTree s t ∧ (run ≠ some .genCodes → SameCodes s t) := by
  obtain ⟨-, ht⟩ | ⟨w, i, hp, hd, ht⟩ | ⟨w, why, -, -, ht⟩ := engineStep_cases s
  · cases ht.symm.trans he; exact keepsTree_of_treeFields_eq rfl
  · obtain rfl := hrun w i hp hd
    simp only [ne_eq, Option.some.injEq] at hclear hbuild ⊢
    exact exec_keepsTree (ht ▸ he) hclear hbuild
  · cases ht.symm.trans he; exact keepsTree_of_treeFields_eq rfl

/-! ### The step by its next event -/

theorem step_of_cons {e : Input} {rest : List Input} (h : s.inputs = e :: rest) :
    step s = handleInput { s with inputs := rest } e := by
  rw [step, blockStep, h]

theorem step_of_nil (h : s.inputs = []) : step s = engineStep s := by
  rw [step, blockStep, h]

/-- While BUSY = 0 the engine's turn changes nothing (60_exceptions.md rule R246). -/
theorem engineStep_idle (h : s.busy = false) : engineStep s = .next s := by
  have hp : s.pending = none := by simpa [State.busy] using h
  rw [engineStep, hp]

end Sys2Proof.Safety

namespace Sys2Proof.Proofs

open Sys2Proof.Machine Sys2Proof.Safety

/-- Settles O47: whichever way ENCODE ends, it wrote from the start of BIT, inside the buffer, and completed. -/
theorem encodeFrame : Obligations.EncodeFrame := by
  intro s t he
  obtain ⟨out, len, code, index, rfl, hfits, hfailed, hdone⟩ := exec_encode_end he
  have hdepth := bitDepth_le s.params
  refine ⟨fun _ => rfl, ⟨fun _ => rfl, rfl, rfl, rfl, rfl⟩, ⟨fun _ => rfl, rfl⟩, ⟨fun _ => rfl, rfl⟩,
    ⟨rfl, rfl, rfl, rfl, rfl, rfl, rfl⟩, fun hc => ?failed, fun hc k hk => ?done, fun k hk => ?beyond⟩
  all_goals simp only [completeWith_errCode, completeWith_bitLen, encodeOutput_bitLen, completeWith_bitAt] at *
  case failed => rw [hfailed hc]
  case done =>
    rw [hdone hc, BitVec.toNat_ofNat] at hk
    exact bitAt_encodeOutput_of_le (by omega) _
  case beyond => exact bitAt_encodeOutput_of_le (hfits.trans hk) _

/-- Settles O54: whichever way DECODE ends, it wrote from the start of SYM, inside the buffer, and completed. -/
theorem decodeFrame : Obligations.DecodeFrame := by
  intro s t he
  obtain ⟨out, len, code, index, rfl, hfits, hfailed, hdone⟩ := exec_decode_end he
  have hdepth := symDepth_le s.params
  refine ⟨fun _ => rfl, ⟨fun _ => rfl, rfl, rfl, rfl, rfl⟩, ⟨fun _ => rfl, rfl⟩, ⟨fun _ => rfl, rfl⟩,
    ⟨rfl, rfl, rfl, rfl, rfl, rfl, rfl⟩, fun hc => ?failed, fun hc k hk => ?done, fun k hk => ?beyond⟩
  all_goals simp only [completeWith_errCode, completeWith_symLen, decodeOutput_symLen, completeWith_symAt] at *
  case failed => rw [hfailed hc]
  case done =>
    rw [hdone hc, BitVec.toNat_ofNat] at hk
    exact symAt_decodeOutput_of_le (by omega) _
  case beyond => exact symAt_decodeOutput_of_le (hfits.trans hk) _

/-- Settles O59, by the cases of a step: a read and a write outside FREQ change no tree field, and an engine step
changes them only by the commands that the statement names. -/
theorem onlyTreeCommandsChangeTheTree : Obligations.OnlyTreeCommandsChangeTheTree := by
  intro s t he hreset hwrite hclear hbuild
  obtain ⟨hi, ht⟩ | ⟨rest, addr, hi, ht⟩ | ⟨rest, addr, v, hi, ht⟩ | ⟨rest, hi, ht⟩ | ⟨rest, hi, ht⟩ := step_cases s
  · have hturn : engineTurn s = true := by rw [engineTurn, hi]
    exact engineStep_keepsTree (fun _ _ => commandRun_eq_some hturn) (ht ▸ he) hclear hbuild
  · cases ht.symm.trans he
    exact keepsTree_of_treeFields_eq rfl
  · cases ht.symm.trans he
    exact keepsTree_of_treeFields_eq (treeFields_hostWrite (hwrite rest addr v hi) v)
  · have hturn : engineTurn s = true := by rw [engineTurn, hi]
    exact engineStep_keepsTree (s := { s with inputs := rest }) (fun _ _ => commandRun_eq_some hturn) (ht ▸ he)
      hclear hbuild
  · exact absurd (by rw [hi]; rfl) hreset

/-- Settles O5: the step hands the next event on, and an idle engine does nothing. -/
theorem stepPerformsHostAccess : Obligations.StepPerformsHostAccess := by
  intro s
  refine ⟨fun rest addr hi => step_of_cons hi, fun rest addr v hi => step_of_cons hi, fun rest hb hi => ?_,
    fun hb hi => ?_⟩
  · exact (step_of_cons hi).trans (engineStep_idle (s := { s with inputs := rest }) hb)
  · exact (step_of_nil hi).trans (engineStep_idle hb)

end Sys2Proof.Proofs

/-! What the decoder answers on every word, and that the encoder inverts it (30_encoding.md rules R90 to R95). -/

namespace Sys2Proof.Safety

variable {w : Word} {i : Instr}

/-! ### The two fields of a command word (30_encoding.md rule R90) -/

theorem rsvdField_toNat (w : Word) : (rsvdField w).toNat = w.toNat / 256 := by
  have hlt : w.toNat < 2 ^ 32 := w.isLt
  rw [rsvdField, BitVec.extractLsb'_toNat, Nat.shiftRight_eq_div_pow]
  omega

theorem rsvdField_ne_zero_iff : rsvdField w ≠ 0#24 ↔ w.toNat / 256 ≠ 0 := by
  rw [← rsvdField_toNat, ne_eq, ← BitVec.toNat_inj, BitVec.toNat_ofNat, Nat.zero_mod]

theorem opcodeField_toNat (w : Word) : (opcodeField w).toNat = w.toNat % 256 := by
  rw [opcodeField, BitVec.extractLsb'_toNat, Nat.shiftRight_zero]

/-- The two fields are the whole word: no bit lies outside them. -/
theorem rsvdField_append_opcodeField (w : Word) : rsvdField w ++ opcodeField w = w := by
  apply BitVec.eq_of_toNat_eq
  rw [BitVec.toNat_append, rsvdField_toNat, opcodeField_toNat,
    ← Nat.shiftLeft_add_eq_or_of_lt (Nat.mod_lt _ (by decide)), Nat.shiftLeft_eq]
  omega

/-! ### The opcode map (30_encoding.md rule R92) -/

theorem wordForm_of_command (i : Instr) : Laws.WordForm.Statement i := by
  cases i with
  | nop => exact Laws.WordForm.nop
  | clearFreq => exact Laws.WordForm.clearFreq
  | buildTree => exact Laws.WordForm.buildTree
  | genCodes => exact Laws.WordForm.genCodes
  | encode => exact Laws.WordForm.encode
  | decode => exact Laws.WordForm.decode

theorem exists_opcodeOf_of_lt {op : BitVec 8} (h : op.toNat < 6) : ∃ i, op = opcodeOf i := by
  obtain ⟨n, hn⟩ : ∃ n : Fin 6, op = BitVec.ofNat 8 n := ⟨⟨op.toNat, h⟩, by simp⟩
  subst hn
  fin_cases n
  exacts [⟨.nop, rfl⟩, ⟨.clearFreq, rfl⟩, ⟨.buildTree, rfl⟩, ⟨.genCodes, rfl⟩, ⟨.encode, rfl⟩, ⟨.decode, rfl⟩]

/-- A word is a command's word exactly when RSVD = 0 and OPCODE is the command's. -/
theorem eq_encode_iff : w = encode i ↔ rsvdField w = 0#24 ∧ opcodeField w = opcodeOf i := by
  constructor
  · rintro rfl
    obtain ⟨-, -, hrsvd, hopcode⟩ := wordForm_of_command i
    exact ⟨hrsvd, hopcode⟩
  · rintro ⟨hrsvd, hopcode⟩
    rw [← rsvdField_append_opcodeField w, hrsvd, hopcode, encode]

/-! ### The decoder, one equation per kind of word (30_encoding.md rules R93 and R94) -/

@[simp] theorem decode_encode (i : Instr) : decode (encode i) = .command i := by cases i <;> decide

theorem decode_of_rsvd_ne_zero (h : rsvdField w ≠ 0#24) : decode w = .illegal (.rsvdNonzero (rsvdField w)) := if_pos h

theorem decode_of_opcode_unassigned (hr : rsvdField w = 0#24) (ho : 6 ≤ (opcodeField w).toNat) :
    decode w = .illegal (.opcodeUnassigned (opcodeField w)) := by
  rw [decode, if_neg (not_not_intro hr)]
  split
  case h_7 => rfl
  all_goals omega

/-- The three kinds of word, one for each equation of the decoder. -/
theorem word_cases (w : Word) :
    (∃ i, w = encode i) ∨ rsvdField w ≠ 0#24 ∨ (rsvdField w = 0#24 ∧ 6 ≤ (opcodeField w).toNat) := by
  by_cases hr : rsvdField w = 0#24
  · obtain ho | ho := Nat.lt_or_ge (opcodeField w).toNat 6
    · obtain ⟨i, hi⟩ := exists_opcodeOf_of_lt ho
      exact .inl ⟨i, eq_encode_iff.mpr ⟨hr, hi⟩⟩
    · exact .inr (.inr ⟨hr, ho⟩)
  · exact .inr (.inl hr)

theorem decode_eq_command_iff : decode w = .command i ↔ w = encode i := by
  constructor
  · intro hd
    obtain ⟨j, rfl⟩ | hr | ⟨hr, ho⟩ := word_cases w
    · rw [decode_encode, Decoded.command.injEq] at hd
      rw [hd]
    · exact absurd ((decode_of_rsvd_ne_zero hr).symm.trans hd) (by simp)
    · exact absurd ((decode_of_opcode_unassigned hr ho).symm.trans hd) (by simp)
  · rintro rfl
    exact decode_encode i

theorem exists_decode_eq_illegal_iff :
    (∃ why, decode w = .illegal why) ↔ rsvdField w ≠ 0#24 ∨ 6 ≤ (opcodeField w).toNat := by
  constructor
  · rintro ⟨why, hd⟩
    obtain ⟨i, rfl⟩ | hr | ⟨-, ho⟩ := word_cases w
    · simp at hd
    · exact .inl hr
    · exact .inr ho
  · intro h
    by_cases hr : rsvdField w = 0#24
    · exact ⟨_, decode_of_opcode_unassigned hr (h.resolve_left (not_not_intro hr))⟩
    · exact ⟨_, decode_of_rsvd_ne_zero hr⟩

/-- The host's numbering of a word's 32 bits is the word. -/
theorem decodeTableWord_toNat_of_decode (h : decode w = .command i) : decodeTableWord 32 w.toNat = some i := by
  rw [decodeTableWord, Nat.mod_eq_of_lt w.isLt, BitVec.ofNat_toNat, BitVec.setWidth_eq, h]

end Sys2Proof.Safety

namespace Sys2Proof.Proofs

open Sys2Proof.Safety

/-- Settles O2: the decoder selects a command exactly on its word, and that word passes both checks. -/
theorem decodeInvertsEncode : Obligations.DecodeInvertsEncode := by
  intro i _
  obtain ⟨-, hwf, -, -⟩ := wordForm_of_command i
  exact ⟨fun _ => decode_eq_command_iff, hwf, decodeTableWord_toNat_of_decode (decode_encode i)⟩

/-- Settles O1: the two illegal conditions read off the fields, and the six words are those of `encode`. -/
theorem opcodeMapIsExact : Obligations.OpcodeMapIsExact := by
  intro w
  refine ⟨?illegal, decode_eq_command_iff (i := .nop), decode_eq_command_iff (i := .clearFreq),
    decode_eq_command_iff (i := .buildTree), decode_eq_command_iff (i := .genCodes),
    decode_eq_command_iff (i := .encode), decode_eq_command_iff (i := .decode)⟩
  rw [exists_decode_eq_illegal_iff, rsvdField_ne_zero_iff, opcodeField_toNat]

/-- Settles O3: three words of `encode`, a word with RSVD = 1, and a word with OPCODE = 0xFF. -/
theorem specWordsDecode : Obligations.SpecWordsDecode :=
  ⟨decode_encode .buildTree, decode_encode .encode, decode_encode .decode,
    decode_of_rsvd_ne_zero (w := 0x00000102#32) (by decide),
    decode_of_opcode_unassigned (w := 0x000000FF#32) (by decide) (by decide)⟩

end Sys2Proof.Proofs

/-! Host writes by offset: which are rejected, which have no effect, and what each of the others stores
(40_host_access.md rules R111 to R120). -/

namespace Sys2Proof.Safety

open Sys2Proof.Machine

/-! ### Rejected writes (40_host_access.md rules R112 and R113) -/

/-- GUARDED by target and by offset agree. -/
theorem guarded_targetAt_iff (o : Nat) : guarded (targetAt o) = true ↔ GuardedOffset o := by
  simp only [targetAt, apply_ite guarded]
  simp only [guarded, ite_eq_iff, reduceCtorEq, and_false, false_or, or_false, and_true]
  omega

section
variable {s : State} {addr : Offset}

theorem hostWrite_rejected (hb : s.busy = true) (hg : GuardedOffset (wordOffset addr)) (v : Word) :
    s.hostWrite addr v = s.rejectAccess := by
  have hT : guarded (targetOf addr) = true := by rw [targetOf_eq]; exact (guarded_targetAt_iff _).mpr hg
  obtain ⟨-, -, he⟩ | ⟨hne, -⟩ := hostWrite_cases s addr v
  · exact he
  · exact absurd ⟨hT, hb⟩ hne

/-- A rejected access raises the interrupt that REJECT_IE enables (60_exceptions.md rule R236). -/
theorem rejectAccess_irq (hie : s.irqEn.getLsbD 2 = true) : s.rejectAccess.irq = true := by
  rw [State.irq, rejectAccess_reject, rejectAccess_irqEn, hie, Bool.true_and, Bool.or_true]

end

/-! ### Writes with no effect (40_host_access.md rule R120) -/

/-- The read-only and reserved targets. -/
def writeIgnored : Target → Bool
  | .cmd | .status | .irqEn | .symLen | .bitLen | .freq _ | .sym _ | .bit _ => false
  | .id | .version | .paramSym | .paramBit | .errCode | .errIndex | .nsym | .root | .nnodes | .node _ _ | .code _ _
  | .reserved => true

theorem writeIgnored_targetAt {o : Nat} (h : NoEffectOffset o) : writeIgnored (targetAt o) = true := by
  simp only [targetAt, apply_ite writeIgnored]
  simp only [writeIgnored, ite_eq_iff, reduceCtorEq, and_false, false_or, and_true]
  omega

theorem not_guarded_of_writeIgnored {T : Target} (h : writeIgnored T = true) : guarded T = false := by
  cases T with
  | cmd | status | irqEn | symLen | bitLen | freq | sym | bit => cases h
  | id | version | paramSym | paramBit | errCode | errIndex | nsym | root | nnodes | node | code | reserved => rfl

theorem targetWrite_of_writeIgnored {T : Target} (h : writeIgnored T = true) (s : State) (v : Word) :
    s.targetWrite v T = s := by
  cases T with
  | cmd | status | irqEn | symLen | bitLen | freq | sym | bit => cases h
  | id | version | paramSym | paramBit | errCode | errIndex | nsym | root | nnodes | node | code | reserved => rfl

/-! ### Stored writes (40_host_access.md rules R114 to R117) -/

/-- A write-1-to-clear bit. -/
theorem and_not_eq_ite (b clear : Bool) : (b && !clear) = if clear then false else b := by
  cases clear <;> simp

/-- IRQ_EN holds the three low bits of the word written (40_host_access.md rule R115). -/
theorem getLsbD_setWidth_three (v : Word) {j : Nat} (hj : j < 3) : (v.setWidth 3).getLsbD j = v.getLsbD j := by
  rw [BitVec.getLsbD_setWidth, decide_eq_true hj, Bool.true_and]

/-- A FREQ write changes FREQ and the two valid flags only. -/
theorem freqWrite_frame (s : State) (k : Nat) (v : Word) :
    s.freqWrite k v = { s with freq := (s.freqWrite k v).freq, treeValid := false, codesValid := false } := rfl

section
variable {s : State} {w : Nat} (v : Word)

/-- A SYM window write changes SYM only. -/
theorem symWrite_frame : s.symWrite w v = { s with sym := (s.symWrite w v).sym } := by
  rw [State.symWrite]
  split <;> rfl

/-- A BIT window write changes BIT only. -/
theorem bitWrite_frame : s.bitWrite w v = { s with bit := (s.bitWrite w v).bit } := by
  rw [State.bitWrite]
  split <;> rfl

theorem symAt_symWrite_lane (hw : w < s.params.symDepth / 4) {k : Nat} (hk : k < 4) :
    (s.symWrite w v).symAt (4 * w + k) = v.extractLsb' (8 * k) 8 := by
  rw [symAt_symWrite s v hw, if_pos (by omega), Nat.add_sub_cancel_left, symLane]

theorem symAt_symWrite_other (hw : w < s.params.symDepth / 4) {j : Nat} (hj : j < 4 * w ∨ 4 * w + 4 ≤ j) :
    (s.symWrite w v).symAt j = s.symAt j := by
  rw [symAt_symWrite s v hw, if_neg (by omega)]

theorem bitAt_bitWrite_bit (hw : w < s.params.bitDepth / 32) {b : Nat} (hb : b < 32) :
    (s.bitWrite w v).bitAt (32 * w + b) = v.getLsbD b := by
  rw [bitAt_bitWrite s v hw, if_pos (by omega), Nat.add_sub_cancel_left]

theorem bitAt_bitWrite_other (hw : w < s.params.bitDepth / 32) {j : Nat} (hj : j < 32 * w ∨ 32 * w + 32 ≤ j) :
    (s.bitWrite w v).bitAt j = s.bitAt j := by
  rw [bitAt_bitWrite s v hw, if_neg (by omega)]

end
end Sys2Proof.Safety

namespace Sys2Proof.Proofs

open Sys2Proof.Machine Sys2Proof.Safety

/-- Settles O11: the guarded offsets reach the guarded targets, and a rejected access only sets REJECT. -/
theorem guardedWritesAreRejectedWhileBusy : Obligations.GuardedWritesAreRejectedWhileBusy := by
  intro s addr v hb hg
  rw [hostWrite_rejected hb hg v]
  exact ⟨rfl, rejectAccess_irq⟩

/-- Settles O14: the write reaches FREQ[x], where `freqAt_freqWrite` reads it back. -/
theorem freqWriteStoresAndInvalidates : Obligations.FreqWriteStoresAndInvalidates := by
  intro s addr x v hb hx ha
  refine ⟨s.freqWrite x v, hostWrite_eq_targetWrite ha (targetAt_freq hx) (.inr hb) v, ?_, fun k hk => ?_,
    freqWrite_treeValid s x v, freqWrite_codesValid s x v, freqWrite_frame s x v⟩
  · rw [freqAt_freqWrite, if_pos rfl]
  · rw [freqAt_freqWrite, if_neg hk]

/-- Settles O15: a word inside the buffer is written whole, and one beyond it not at all. -/
theorem symAndBitWindowWrites : Obligations.SymAndBitWindowWrites := by
  intro s addr w v hb hw
  refine ⟨fun ha => ⟨s.symWrite w v, ?symTarget, symWrite_frame v, fun h => ?symInside, fun h => ?symBeyond⟩,
    fun ha => ⟨s.bitWrite w v, ?bitTarget, bitWrite_frame v, fun h => ?bitInside, fun h => ?bitBeyond⟩⟩
  case symTarget => exact hostWrite_eq_targetWrite ha (targetAt_sym hw) (.inr hb) v
  case symInside => exact ⟨fun _ => symAt_symWrite_lane v h, fun _ => symAt_symWrite_other v h⟩
  case symBeyond => exact symWrite_outside s v (Nat.not_lt.mpr h)
  case bitTarget => exact hostWrite_eq_targetWrite ha (targetAt_bit hw) (.inr hb) v
  case bitInside => exact ⟨fun _ => bitAt_bitWrite_bit v h, fun _ => bitAt_bitWrite_other v h⟩
  case bitBeyond => exact bitWrite_outside s v (Nat.not_lt.mpr h)

/-- Settles O17: these offsets reach targets that are not guarded and that a write leaves as they are. -/
theorem readOnlyAndReservedWritesDoNothing : Obligations.ReadOnlyAndReservedWritesDoNothing := by
  intro s addr v ho
  have hT := writeIgnored_targetAt ho
  calc s.hostWrite addr v
    _ = s.targetWrite v (targetAt (wordOffset addr)) :=
      hostWrite_eq_targetWrite rfl rfl (.inl (not_guarded_of_writeIgnored hT)) v
    _ = s := targetWrite_of_writeIgnored hT s v

/-- Settles O12: STATUS is not guarded, and each of the three bits is cleared by a 1 in its place. -/
theorem statusWriteClearsNamedBits : Obligations.StatusWriteClearsNamedBits := fun s _ v ha =>
  ⟨s.statusWrite v, hostWrite_eq_targetWrite (T := .status) ha rfl (.inl rfl) v, and_not_eq_ite s.done _,
    and_not_eq_ite s.error _, and_not_eq_ite s.reject _, rfl⟩

/-- Settles O13: IRQ_EN is not guarded, and the interrupt output reads its three bits. -/
theorem irqEnWriteStoresThreeBits : Obligations.IrqEnWriteStoresThreeBits := by
  intro s addr v ha
  refine ⟨{ s with irqEn := v.setWidth 3 }, hostWrite_eq_targetWrite (T := .irqEn) ha rfl (.inl rfl) v,
    fun j => getLsbD_setWidth_three v, rfl, ?_⟩
  rw [State.irq, getLsbD_setWidth_three v (j := 0) (by decide), getLsbD_setWidth_three v (j := 1) (by decide),
    getLsbD_setWidth_three v (j := 2) (by decide)]

/-- Settles O16: while idle a write to SYM_LEN or BIT_LEN has the effect of its target. -/
theorem lengthWritesStoreTheWord : Obligations.LengthWritesStoreTheWord := fun _ _ v hb =>
  ⟨fun ha => hostWrite_eq_targetWrite (T := .symLen) ha rfl (.inr hb) v,
    fun ha => hostWrite_eq_targetWrite (T := .bitLen) ha rfl (.inr hb) v⟩

end Sys2Proof.Proofs

/-! The command control (41_command_control.md rules R131 to R142): every command that ends has completed, on the tree
of the present FREQ no command stops, and a failed command keeps the tree and the inputs. -/

namespace Sys2Proof.Safety

open Sys2Proof.Machine

variable {s t : State}

/-! ### Completion (41_command_control.md rule R132) -/

/-- A completion sets the completion registers to its code and its position. -/
theorem completedWith_completeWith (s : State) (code : ErrCode) {index : Nat} (h : index < 2 ^ 32) :
    CompletedWith (s.completeWith code index) (errCodeNumber code).toNat index := by
  have herror : decide (errCodeNumber code ≠ 0#8) = decide ((errCodeNumber code).toNat ≠ 0) := by
    cases code <;> decide
  exact ⟨rfl, Nat.mod_eq_of_lt h, rfl, rfl, herror⟩

/-- A completion changes the completion registers only. -/
theorem completeWith_frame (s : State) (code : ErrCode) (index : Nat) :
    SameFreq s (s.completeWith code index) ∧ SameTree s (s.completeWith code index) ∧
      SameCodes s (s.completeWith code index) ∧ SameSymbols s (s.completeWith code index) ∧
      SameBits s (s.completeWith code index) ∧ SameRest s (s.completeWith code index) :=
  ⟨fun _ => rfl, ⟨fun _ => rfl, rfl, rfl, rfl, rfl⟩, ⟨fun _ => rfl, rfl⟩, ⟨fun _ => rfl, rfl⟩, ⟨fun _ => rfl, rfl⟩,
    rfl, rfl, rfl, rfl, rfl, rfl, rfl⟩

/-- A command that ends, ends with a completion. -/
theorem exec_completes {i : Instr} (he : exec i s = .next t) :
    ∃ (u : State) (code : ErrCode) (index : Nat), t = u.completeWith code index := by
  cases i with
  | nop => cases he; exact ⟨_, _, _, rfl⟩
  | clearFreq => cases he; exact ⟨_, _, _, rfl⟩
  | buildTree =>
    obtain ⟨-, ht⟩ | ⟨-, ht⟩ := exec_buildTree_cases s <;> cases ht.symm.trans he
    · exact ⟨_, _, _, rfl⟩
    · exact ⟨_, _, _, rfl⟩
  | genCodes =>
    obtain ⟨-, ht⟩ | ⟨-, tbl, -, ht⟩ | ⟨-, why, -, ht⟩ := exec_genCodes_cases s <;> cases ht.symm.trans he
    · exact ⟨_, _, _, rfl⟩
    · exact ⟨_, _, _, rfl⟩
  | encode =>
    obtain ⟨out, len, code, index, rfl, -⟩ := exec_encode_end he
    exact ⟨_, _, _, rfl⟩
  | decode =>
    obtain ⟨out, len, code, index, rfl, -⟩ := exec_decode_end he
    exact ⟨_, _, _, rfl⟩

/-! ### The engine step by its pending word (41_command_control.md rule R133) -/

theorem engineStep_of_command {w : Word} {i : Instr} (hp : s.pending = some w) (hd : decode w = .command i) :
    engineStep s = exec i s := by
  rw [engineStep, hp]
  simp only [hd]

theorem engineStep_of_illegal {w : Word} {why : IllegalWord} (hp : s.pending = some w) (hd : decode w = .illegal why) :
    engineStep s = .next (s.completeWith .illegalCommand 0) := by
  rw [engineStep, hp]
  simp only [hd, illegal_eq]

/-! ### On a tree GEN_CODES and DECODE do not stop -/

/-- The arena holds every node of the tree. -/
theorem TreeMatches.arenaAt?_eq (h : TreeMatches s) {k : Nat} (hk : k < 2 * leafCount s - 1) :
    s.arenaAt? k = some (s.nodeAt k) := by
  have hle := leafCount_le s
  exact if_pos (show k < 511 by omega)

theorem TreeMatches.root_lt (h : TreeMatches s) : s.root.toNat < 2 * leafCount s - 1 := by
  have hpos := h.leafCount_pos
  have hroot := h.root_eq
  omega

/-- An Internal node of the tree is one of its merges. -/
theorem TreeMatches.mergedAt_of_internal (h : TreeMatches s) {k : Nat} (hk : k < 2 * leafCount s - 1)
    (hint : ¬ (s.nodeAt k).leaf = true) : leafCount s ≤ k ∧ MergedAt s.nodeAt (leafCount s) k := by
  have hle := Nat.le_of_not_lt fun hlt => hint ((h.leaf_iff hk).mpr hlt)
  exact ⟨hle, h.allMerged k hle hk⟩

/-- The walk ends: a child's index is less than its parent's, so at most `k - n + 1` Internal nodes stand on a path
down from the node `k` (43_code_table_generator.md rule R174). -/
theorem TreeMatches.walk_ends (h : TreeMatches s) {fuel k : Nat} (hk : k < 2 * leafCount s - 1) (hpos : 1 ≤ fuel)
    (hfuel : k + 2 ≤ fuel + leafCount s) (ps : List Bool) (tbl : Memory CodeEntry) :
    ∃ tbl', walk s.arenaAt? fuel k ps tbl = .table tbl' := by
  induction fuel generalizing k ps tbl with
  | zero => omega
  | succ fuel ih =>
    rw [walk, h.arenaAt?_eq hk]
    simp only
    split
    · exact ⟨_, rfl⟩
    · next hint =>
      obtain ⟨hle, hm⟩ := h.mergedAt_of_internal hk hint
      have h₀ := hm.child_lt (.inl rfl)
      have h₁ := hm.child_lt (.inr rfl)
      obtain ⟨tbl₀, he₀⟩ := ih (k := (s.nodeAt k).child0.toNat) (by omega) (by omega) (by omega) (ps ++ [false]) tbl
      rw [he₀]
      exact ih (by omega) (by omega) (by omega) (ps ++ [true]) tbl₀

/-- GEN_CODES gets a table from a tree: 256 levels are enough for 256 leaves. -/
theorem TreeMatches.codeTable_ends (h : TreeMatches s) : ∃ tbl, s.codeTable = .table tbl := by
  have hle := leafCount_le s
  have hroot := h.root_eq
  rw [State.codeTable, h.arenaAt?_eq h.root_lt]
  simp only
  split
  · exact ⟨_, rfl⟩
  · exact h.walk_ends h.root_lt (by decide) (by rw [maxCodeLen]; omega) _ _

/-- The decoder's move stays in the tree (45_decoder.md rule R220). -/
theorem TreeMatches.moveOn_lt (h : TreeMatches s) {k : Nat} (hk : k < 2 * leafCount s - 1) (b : Bool) :
    moveOn (s.nodeAt k) k b < 2 * leafCount s - 1 := by
  by_cases hleaf : (s.nodeAt k).leaf = true
  · rwa [moveOn, if_pos hleaf]
  · obtain ⟨-, hm⟩ := h.mergedAt_of_internal hk hleaf
    rw [moveOn, if_neg hleaf]
    exact (hm.child_lt (isChild_childOn s.nodeAt k b)).trans hk

/-- No bit pattern stops the decoder (45_decoder.md rule R220). -/
theorem TreeMatches.decodeLoop_ne_stuck (h : TreeMatches s) {cap i k start : Nat} {out : List Symbol}
    {bits : List Bool} {why : Fault} (hk : k < 2 * leafCount s - 1) :
    decodeLoop s.arenaAt? s.root.toNat cap i k start out bits ≠ .stuck why := by
  induction bits generalizing i k start out with
  | nil =>
    rw [decodeLoop]
    split_ifs <;> exact DecodeEnd.noConfusion
  | cons b bits ih =>
    have hmove := h.moveOn_lt hk b
    rw [decodeLoop, h.arenaAt?_eq hk]
    simp only [h.arenaAt?_eq hmove]
    split_ifs
    · exact DecodeEnd.noConfusion
    · exact ih h.root_lt
    · exact ih h.root_lt
    · exact ih hmove
    · exact ih hmove

/-- No command stops in a state that meets the invariant. -/
theorem Inv.exec_ends (h : Inv s) (i : Instr) : ∃ t, Machine.exec i s = .next t := by
  cases i with
  | nop | clearFreq | buildTree | encode => exact ⟨_, rfl⟩
  | genCodes =>
    obtain ⟨-, ht⟩ | ⟨-, tbl, -, ht⟩ | ⟨hv, why, hstuck, -⟩ := exec_genCodes_cases s
    · exact ⟨_, ht⟩
    · exact ⟨_, ht⟩
    · obtain ⟨tbl, htbl⟩ := (h.tree hv).codeTable_ends
      cases hstuck.symm.trans htbl
  | decode =>
    obtain ⟨-, ht⟩ | ⟨-, -, ht⟩ | ⟨-, -, out, -, ht⟩ | ⟨-, -, code, index, out, -, ht⟩ | ⟨hv, -, why, hstuck, -⟩ :=
      exec_decode_cases s
    · exact ⟨_, ht⟩
    · exact ⟨_, ht⟩
    · exact ⟨_, ht⟩
    · exact ⟨_, ht⟩
    · exact absurd hstuck ((h.tree hv).decodeLoop_ne_stuck (h.tree hv).root_lt)

/-- The engine step does not stop, and it completes what is pending. -/
theorem Inv.engineStep_ends (h : Inv s) :
    ∃ t, Machine.engineStep s = .next t ∧ (s.busy = true → t.busy = false ∧ t.done = true) := by
  obtain ⟨hp, ht⟩ | ⟨w, i, -, -, ht⟩ | ⟨w, why, -, -, ht⟩ := engineStep_cases s
  · exact ⟨s, ht, fun hb => absurd hb (by simp [State.busy, hp])⟩
  · obtain ⟨t, he⟩ := h.exec_ends i
    obtain ⟨u, code, index, rfl⟩ := exec_completes he
    exact ⟨_, ht.trans he, fun _ => ⟨rfl, rfl⟩⟩
  · exact ⟨_, ht, fun _ => ⟨rfl, rfl⟩⟩

/-! ### Failures (41_command_control.md rule R134) -/

/-- A command that changes no tree field keeps what a failed command keeps, if it changes no length and buffer but its
own. -/
theorem keepsTreeAndInputs {i : Instr} (he : treeFields t = treeFields s) (hbits : i ≠ .encode → SameBits s t)
    (hsymbols : i ≠ .decode → SameSymbols s t) :
    SameFreq s t ∧ (∀ k, t.nodeAt k = s.nodeAt k) ∧ (∀ k, t.codeAt k = s.codeAt k) ∧
      (i ≠ .buildTree → SameTree s t ∧ SameCodes s t) ∧ (i ≠ .encode → SameBits s t) ∧
      (i ≠ .decode → SameSymbols s t) := by
  obtain ⟨hfreq, htree, hcodes⟩ := keepsTree_of_treeFields_eq (p := True) he
  exact ⟨hfreq, htree.1, (hcodes trivial).1, fun _ => ⟨htree, hcodes trivial⟩, hbits, hsymbols⟩

/-! ### CLEAR_FREQ and BUILD_TREE (42_tree_builder.md rule R156) -/

/-- With every count 0 there is no leaf. -/
theorem leavesOf_eq_nil (h : ∀ k < 256, s.freqAt k = 0#32) : leavesOf s.freqAt = [] := by
  rw [leavesOf, List.filterMap_eq_nil_iff]
  exact fun k hk => if_neg (not_not_intro (h k (List.mem_range.mp hk)))

/-- BUILD_TREE of an empty alphabet fails. -/
theorem exec_buildTree_of_empty (h : ∀ k < 256, s.freqAt k = 0#32) :
    exec .buildTree s = .next (s.buildEmpty.completeWith .emptyAlphabet 0) := by
  obtain ⟨-, ht⟩ | ⟨hne, -⟩ := exec_buildTree_cases s
  · exact ht
  · exact absurd (leavesOf_eq_nil h) hne

end Sys2Proof.Safety

namespace Sys2Proof.Proofs

open Sys2Proof.Machine Sys2Proof.Safety

/-- Settles O58, by the cases of a step: only the engine can stop, and on the tree that the invariant gives it does not;
a read, a write and a reset are not the engine's turn. -/
theorem invariantStatesNeverStop : Obligations.InvariantStatesNeverStop := by
  intro s h
  obtain ⟨-, ht⟩ | ⟨rest, addr, hi, ht⟩ | ⟨rest, addr, v, hi, ht⟩ | ⟨rest, -, ht⟩ | ⟨rest, hi, ht⟩ := step_cases s
  · obtain ⟨t, he, hdone⟩ := h.engineStep_ends
    exact ⟨t, ht.trans he, fun hb _ => hdone hb⟩
  · exact ⟨_, ht, fun _ hturn => absurd hturn (by simp [engineTurn, hi])⟩
  · exact ⟨_, ht, fun _ hturn => absurd hturn (by simp [engineTurn, hi])⟩
  · obtain ⟨t, he, hdone⟩ := (h.withInputs rest).engineStep_ends
    exact ⟨t, ht.trans he, fun hb _ => hdone hb⟩
  · exact ⟨_, ht, fun _ hturn => absurd hturn (by simp [engineTurn, hi])⟩

/-- Settles O6: the decoder answers Illegal, and then the engine step is a completion. -/
theorem illegalWordOnlyCompletes : Obligations.IllegalWordOnlyCompletes := by
  intro s w hp hw
  rw [← rsvdField_ne_zero_iff, ← opcodeField_toNat] at hw
  obtain ⟨why, hd⟩ := exists_decode_eq_illegal_iff.mpr hw
  exact ⟨_, engineStep_of_illegal hp hd, completedWith_completeWith s .illegalCommand (by decide),
    completeWith_frame s .illegalCommand 0⟩

/-- Settles O28: FREQ reads 0 after the clearing, so a BUILD_TREE from there finds no leaf. -/
theorem clearFreqEmptiesTheTable : Obligations.ClearFreqEmptiesTheTable := by
  intro s
  have hzero : ∀ k < 256, (s.clearFreq.invalidate.completeWith .none 0).freqAt k = 0#32 := fun k hk => by
    rw [completeWith_freqAt, invalidate_freqAt, freqAt_clearFreq, if_pos hk]
  exact ⟨_, exec_clearFreq_eq s, completedWith_completeWith _ .none (by decide), hzero, rfl, rfl, fun _ => rfl,
    fun _ => rfl, rfl, rfl, rfl, ⟨fun _ => rfl, rfl⟩, ⟨fun _ => rfl, rfl⟩, ⟨rfl, rfl, rfl, rfl, rfl, rfl, rfl⟩,
    _, exec_buildTree_of_empty hzero, completedWith_completeWith _ .emptyAlphabet (by decide)⟩

/-- Settles O60: NOP and CLEAR_FREQ do not fail, a failed BUILD_TREE writes its registers and flags only, and the other
failures change no tree field. -/
theorem failedCommandsKeepTreeAndInputs : Obligations.FailedCommandsKeepTreeAndInputs := by
  intro i s t he hfailed
  cases i with
  | nop => cases he; exact absurd rfl hfailed
  | clearFreq => cases he; exact absurd rfl hfailed
  | buildTree =>
    obtain ⟨-, ht⟩ | ⟨-, ht⟩ := exec_buildTree_cases s <;> cases ht.symm.trans he
    · exact ⟨fun _ => rfl, fun _ => rfl, fun _ => rfl, fun h => absurd rfl h, fun _ => ⟨fun _ => rfl, rfl⟩,
        fun _ => ⟨fun _ => rfl, rfl⟩⟩
    · exact absurd rfl hfailed
  | genCodes =>
    obtain ⟨-, ht⟩ | ⟨-, tbl, -, ht⟩ | ⟨-, why, -, ht⟩ := exec_genCodes_cases s <;> cases ht.symm.trans he
    · exact keepsTreeAndInputs rfl (fun _ => ⟨fun _ => rfl, rfl⟩) fun _ => ⟨fun _ => rfl, rfl⟩
    · exact absurd rfl hfailed
  | encode =>
    obtain ⟨out, len, code, index, rfl, -⟩ := exec_encode_end he
    exact keepsTreeAndInputs rfl (fun h => absurd rfl h) fun _ => ⟨fun _ => rfl, rfl⟩
  | decode =>
    obtain ⟨out, len, code, index, rfl, -⟩ := exec_decode_end he
    exact keepsTreeAndInputs rfl (fun _ => ⟨fun _ => rfl, rfl⟩) fun h => absurd rfl h

/-- Settles O4: in both cases the step is an engine step, which runs the decoded command. -/
theorem stepRunsPendingCommand : Obligations.StepRunsPendingCommand := fun s _ _ hp hd =>
  ⟨fun hi => (step_of_nil hi).trans (engineStep_of_command hp hd),
    fun rest hi => (step_of_cons hi).trans (engineStep_of_command (s := { s with inputs := rest }) hp hd)⟩

/-- Settles O10: CMD is not guarded, and its write looks at BUSY itself. -/
theorem cmdWriteAcceptsOrRejects : Obligations.CmdWriteAcceptsOrRejects := by
  intro s addr v ha
  have hw : s.hostWrite addr v = s.cmdWrite v := hostWrite_eq_targetWrite (T := .cmd) ha rfl (.inl rfl) v
  rw [hw, State.cmdWrite]
  refine ⟨fun hb => ?_, fun hb => ?_⟩
  · rw [if_pos hb, State.rejectAccess]
  · rw [if_neg (by simp [hb])]
    exact ⟨rfl, accept_busy s v⟩

/-- Settles O27: NOP is a completion. -/
theorem nopOnlyCompletes : Obligations.NopOnlyCompletes := fun s =>
  ⟨_, exec_nop_eq s, completedWith_completeWith s .none (by decide), completeWith_frame s .none 0⟩

end Sys2Proof.Proofs

/-! What a successful BUILD_TREE gives, read off the tree of the present FREQ: the shape of the tree, the order of its
merges, and its frequency sums (42_tree_builder.md rules R150 to R160). -/

namespace Sys2Proof.Safety

open Sys2Proof.Machine

variable {s t : State}

/-! ### BUILD_TREE by its outcome (42_tree_builder.md rules R150 and R156) -/

theorem leavesOf_ne_nil (h : ∃ k < 256, s.freqAt k ≠ 0#32) : leavesOf s.freqAt ≠ [] := by
  obtain ⟨k, hk, hpres⟩ := h
  rw [leavesOf_eq_map, ne_eq, List.map_eq_nil_iff]
  exact List.ne_nil_of_mem (mem_presentSymbols.mpr ⟨hk, hpres⟩)

/-- BUILD_TREE of a table with a present symbol stores its tree. -/
theorem exec_buildTree_of_present (h : leavesOf s.freqAt ≠ []) :
    exec .buildTree s = .next ((s.buildFrom (leavesOf s.freqAt)).completeWith .none 0) := by
  obtain ⟨hnil, -⟩ | ⟨-, ht⟩ := exec_buildTree_cases s
  · exact absurd hnil h
  · exact ht

theorem treeMatches_completeWith (h : TreeMatches s) (code : ErrCode) (index : Nat) :
    TreeMatches (s.completeWith code index) := by
  obtain ⟨hfreq, htree, -⟩ := completeWith_frame s code index
  exact treeMatches_of_same hfreq htree h

/-- A BUILD_TREE that did not fail stored the tree of the present FREQ. -/
theorem treeMatches_of_exec_buildTree (he : exec .buildTree s = .next t) (hok : t.errCode = 0#8) :
    TreeMatches t ∧ SameFreq s t := by
  obtain ⟨-, ht⟩ | ⟨hne, ht⟩ := exec_buildTree_cases s <;> cases ht.symm.trans he
  · exact absurd (show 1#8 = 0#8 from hok) (by decide)
  · exact ⟨treeMatches_completeWith (treeMatches_buildFrom hne) _ _, fun _ => rfl⟩

/-- BUILD_TREE leaves the entries beyond its arena (42_tree_builder.md rule R150). -/
theorem nodeAt_buildFrom_of_le {k : Nat} (hk : 2 * leafCount s - 1 ≤ k) :
    (s.buildFrom (leavesOf s.freqAt)).nodeAt k = s.nodeAt k := by
  have hlen : (arenaOf (leavesOf s.freqAt)).length ≤ k := by rwa [arenaOf_length, leavesOf_length]
  rw [nodeAt_buildFrom, List.getElem?_eq_none hlen, Option.getD_none]

/-- Inside its arena BUILD_TREE writes every entry (42_tree_builder.md rule R158). -/
theorem nodeAt_buildFrom_of_lt (s : State) {leaves : List Node} {k : Nat} (hk : k < (arenaOf leaves).length) :
    (s.buildFrom leaves).nodeAt k = (arenaOf leaves)[k] := by
  rw [nodeAt_buildFrom, List.getElem?_eq_getElem hk, Option.getD_some]

/-! ### The nodes of the tree -/

theorem TreeMatches.nnodes_eq (h : TreeMatches s) : s.nnodes.toNat = 2 * leafCount s - 1 := by
  obtain ⟨-, ⟨-, hnnodes, -⟩, -⟩ := h
  exact hnnodes

/-- An Internal node of the tree has two distinct children. -/
theorem MergedAt.child0_ne_child1 {f : Nat → Node} {n k : Nat} (h : MergedAt f n k) :
    (f k).child0.toNat ≠ (f k).child1.toNat :=
  fun he => absurd (h.childOn_injective (b := false) (c := true) he) (by decide)

/-- The frequency of a node as a number. -/
abbrev nodeFreq (f : Nat → Node) (k : Nat) : Nat := (f k).freq.toNat

/-- A merge's sum is exact (42_tree_builder.md rule R157). -/
theorem MergedAt.freq_eq {f : Nat → Node} {n k : Nat} (h : MergedAt f n k) :
    nodeFreq f k = nodeFreq f (f k).child0.toNat + nodeFreq f (f k).child1.toNat := by
  obtain ⟨-, -, -, -, -, -, hsum⟩ := h
  exact hsum

/-- Two Internal nodes of the tree with a common child are the same. -/
theorem TreeMatches.parent_unique (h : TreeMatches s) {p q j : Nat} (hp : p < 2 * leafCount s - 1)
    (hq : q < 2 * leafCount s - 1) (hip : (s.nodeAt p).leaf = false) (hiq : (s.nodeAt q).leaf = false)
    (hpj : IsChild s.nodeAt p j) (hqj : IsChild s.nodeAt q j) : p = q :=
  h.allMerged.parent_unique (h.mergedAt_of_internal hp (by simp [hip])).1 hp
    (h.mergedAt_of_internal hq (by simp [hiq])).1 hq hpj hqj

theorem presentSymbols_nodup (s : State) : (presentSymbols s).Nodup := List.nodup_range.filter _

/-- Two Leaf nodes of the tree with a common symbol are the same. -/
theorem TreeMatches.leaf_sym_injective (h : TreeMatches s) {i j : Nat} (hi : i < leafCount s) (hj : j < leafCount s)
    (he : (s.nodeAt i).sym.toNat = (s.nodeAt j).sym.toNat) : i = j := by
  obtain ⟨-, -, hsi, -⟩ := h.isLeafOf hi
  obtain ⟨-, -, hsj, -⟩ := h.isLeafOf hj
  rw [hsi, hsj, List.getD_eq_getElem _ _ hi, List.getD_eq_getElem _ _ hj] at he
  exact ((presentSymbols_nodup s).getElem_inj_iff).mp he

/-- A Leaf holds the count of its symbol (42_tree_builder.md rule R157). -/
theorem TreeMatches.leaf_freq (h : TreeMatches s) {i : Nat} (hi : i < leafCount s) :
    (s.nodeAt i).freq.toNat = (s.freqAt (s.nodeAt i).sym.toNat).toNat := by
  obtain ⟨-, hfreq, hsym, -⟩ := h.isLeafOf hi
  rw [hfreq, hsym]

/-- The Leaf nodes run through the present symbols (42_tree_builder.md rule R151). -/
theorem TreeMatches.sum_leaves (h : TreeMatches s) (g : Nat → Nat) :
    ∑ i ∈ Finset.range (leafCount s), g (s.nodeAt i).sym.toNat = ((presentSymbols s).map g).sum := by
  have hmap : (List.range (leafCount s)).map (fun i => g (s.nodeAt i).sym.toNat) = (presentSymbols s).map g := by
    refine List.ext_getElem (by simp [leafCount]) fun i hi hi' => ?_
    rw [List.length_map] at hi'
    obtain ⟨-, -, hsym, -⟩ := h.isLeafOf hi'
    rw [List.getElem_map, List.getElem_map, List.getElem_range, hsym, List.getD_eq_getElem _ _ hi']
  rw [← hmap]
  rfl

/-! ### The order of removals (42_tree_builder.md rule R152) -/

/-- A node that is removed later was active when an earlier merge took its least two, so its key comes after theirs. -/
theorem AllMerged.keyBefore_of_parent_lt {f : Nat → Node} {n i j p q : Nat} (h : AllMerged f n) (hq : n ≤ q)
    (hqp : q < p) (hp : p < 2 * n - 1) (hiq : i < q) (hpi : IsChild f p i) (hqj : IsChild f q j) :
    KeyBefore f j i := by
  have hnot (r : Nat) (hr : n ≤ r) (hrp : r < p) : ¬ IsChild f r i := fun hri =>
    absurd (h.parent_unique hr (by omega) (by omega) hp hri hpi) hrp.ne
  obtain ⟨-, -, -, -, hkey, hmin, -⟩ := h q hq (by omega)
  have hafter := hmin i (List.mem_range.mpr hiq)
    ⟨hiq, fun r hr hnr => hnot r hnr ((List.mem_range.mp hr).trans hqp)⟩ (hnot q hq hqp)
  obtain rfl | rfl := hqj
  · rw [KeyBefore] at hkey hafter ⊢
    omega
  · exact hafter

end Sys2Proof.Safety

namespace Sys2Proof.Proofs

open Sys2Proof.Machine Sys2Proof.Safety

/-- Settles O29: with no leaf the build fails, and it writes its registers and flags only. -/
theorem buildTreeFailsOnEmptyAlphabet : Obligations.BuildTreeFailsOnEmptyAlphabet := fun _ h =>
  ⟨_, exec_buildTree_of_empty h, completedWith_completeWith _ .emptyAlphabet (by decide), fun _ => rfl, rfl, rfl, rfl,
    rfl, rfl, fun _ => rfl, fun _ => rfl, ⟨fun _ => rfl, rfl⟩, ⟨fun _ => rfl, rfl⟩, rfl, rfl, rfl, rfl, rfl, rfl, rfl⟩

/-- Settles O30: the merge loop's invariant gives the tree, and the arena ends at 2n - 1. -/
theorem buildTreeStoresTheGreedyTree : Obligations.BuildTreeStoresTheGreedyTree := by
  intro s h
  have hne := leavesOf_ne_nil h
  exact ⟨_, exec_buildTree_of_present hne, completedWith_completeWith _ .none (by decide), rfl, rfl,
    treeMatches_completeWith (treeMatches_buildFrom hne) _ _, fun _ => nodeAt_buildFrom_of_le, fun _ => rfl,
    fun _ => rfl, ⟨fun _ => rfl, rfl⟩, ⟨fun _ => rfl, rfl⟩, rfl, rfl, rfl, rfl, rfl, rfl, rfl⟩

/-- Settles O33: the leaves depend on FREQ[0..255] alone, and the arena on the leaves. -/
theorem buildDependsOnFreqAlone : Obligations.BuildDependsOnFreqAlone := by
  intro s s' h
  have hleaves : leavesOf s.freqAt = leavesOf s'.freqAt := leavesOf_congr h
  obtain ⟨hnil, ht⟩ | ⟨hne, ht⟩ := exec_buildTree_cases s
  · obtain ⟨-, ht'⟩ | ⟨hne', -⟩ := exec_buildTree_cases s'
    · exact ⟨_, _, ht, ht', rfl, rfl, rfl, rfl, fun k hk => absurd hk k.not_lt_zero⟩
    · exact absurd (hleaves ▸ hnil) hne'
  · have ht' := exec_buildTree_of_present (hleaves ▸ hne)
    rw [← hleaves] at ht'
    refine ⟨_, _, ht, ht', rfl, rfl, rfl, rfl, fun k hk => ?_⟩
    have hk : k < (arenaOf (leavesOf s.freqAt)).length := hk.trans_le (Nat.mod_le _ _)
    rw [completeWith_nodeAt, completeWith_nodeAt, nodeAt_buildFrom_of_lt s hk, nodeAt_buildFrom_of_lt s' hk]

/-- Settles O31: Internal nodes are merges, every node below ROOT has one parent among them, and the Leaf nodes run
through the present symbols. -/
theorem builtTreeIsStrictBinary : Obligations.BuiltTreeIsStrictBinary := by
  intro s t he hok
  obtain ⟨h, hfreq⟩ := treeMatches_of_exec_buildTree he hok
  rw [h.nnodes_eq, h.root_eq]
  have hmerge {k : Nat} (hk : k < 2 * leafCount t - 1) (hint : (t.nodeAt k).leaf = false) :=
    (h.mergedAt_of_internal hk (by simp [hint])).2
  refine ⟨h, fun k hk hint => ?children, fun j hj => ?parent, fun p hp hint hc => ?root, fun x hx => ?leaves⟩
  case children =>
    have hm := hmerge hk hint
    exact ⟨hm.child_lt (.inl rfl), hm.child_lt (.inr rfl), fun e => hm.child0_ne_child1 (congrArg _ e)⟩
  case parent =>
    obtain ⟨p, b, hp, hp', rfl⟩ := h.allMerged.exists_parent hj
    have hint := (h.allMerged p hp hp').1
    have hc := isChild_childOn t.nodeAt p b
    exact ⟨p, hp', hint, hc, fun q hq hintq hcq => h.parent_unique hq hp' hintq hint hcq hc⟩
  case root =>
    have := (hmerge hp hint).child_lt hc
    omega
  case leaves =>
    rw [← hfreq x]
    constructor
    · intro hpres
      obtain ⟨i, hi, rfl⟩ := h.exists_leaf (mem_presentSymbols.mpr ⟨hx, hpres⟩)
      refine ⟨i, by omega, (h.isLeafOf hi).1, rfl, fun j hj hleaf hsym => ?_⟩
      exact h.leaf_sym_injective ((h.leaf_iff hj).mp hleaf) hi hsym
    · rintro ⟨i, hi, hleaf, rfl, -⟩
      exact (mem_presentSymbols.mp (h.leaf_sym_mem ((h.leaf_iff hi).mp hleaf))).2

/-- Settles O34: had j been removed before i, its key would be less. -/
theorem tiesGoToTheLowerIndex : Obligations.TiesGoToTheLowerIndex := by
  intro s t he hok i j p q hij hp hq hintp hintq hpi hqj hle
  obtain ⟨h, -⟩ := treeMatches_of_exec_buildTree he hok
  rw [h.nnodes_eq] at hp hq
  obtain ⟨hnq, hm⟩ := h.mergedAt_of_internal hq (by simp [hintq])
  have hji : ¬ KeyBefore t.nodeAt j i := by rw [KeyBefore]; omega
  obtain hlt | rfl | hlt := Nat.lt_trichotomy p q
  · exact .inl hlt
  · refine .inr ⟨rfl, hpi.resolve_right fun hi => ?_⟩
    obtain ⟨-, -, -, -, hkey, -⟩ := hm
    obtain rfl | rfl := hqj
    · exact hji (hi ▸ hkey)
    · omega
  · exact absurd (h.allMerged.keyBefore_of_parent_lt hnq hlt hp (hij.trans (hm.child_lt hqj)) hpi hqj) hji

end Sys2Proof.Proofs

/-! The active set as it shrinks, one merge at a time: sums over it, and the root's frequency (42_tree_builder.md rules
R153 and R157). -/

namespace Sys2Proof.Safety

open Sys2Proof.Machine

/-! ### The active set at a merge (42_tree_builder.md rule R153) -/

/-- The active set when node `k` is created. -/
def activeSet (f : Nat → Node) (n k : Nat) : Finset Nat := (Finset.range k).filter (ActiveAt f n k)

/-- What the merge that creates node `k` leaves in the active set. -/
def unmerged (f : Nat → Node) (n k : Nat) : Finset Nat :=
  ((activeSet f n k).erase (f k).child0.toNat).erase (f k).child1.toNat

section
variable {f : Nat → Node} {n k j : Nat}

@[simp] theorem mem_activeSet : j ∈ activeSet f n k ↔ ActiveAt f n k j := by
  rw [activeSet, Finset.mem_filter, Finset.mem_range, and_iff_right_iff_imp]
  exact And.left

theorem mem_unmerged : j ∈ unmerged f n k ↔ ActiveAt f n k j ∧ ¬ IsChild f k j := by
  rw [unmerged, Finset.mem_erase, Finset.mem_erase, mem_activeSet, IsChild, not_or]
  tauto

/-- The first active set is the leaves. -/
theorem activeSet_first (f : Nat → Node) (n : Nat) : activeSet f n n = Finset.range n := by
  ext j
  rw [mem_activeSet, Finset.mem_range]
  exact ⟨And.left, fun hj => ⟨hj, fun p hp hn => absurd (List.mem_range.mp hp) (Nat.not_lt.mpr hn)⟩⟩

/-- The last active set is the root (42_tree_builder.md rule R154). -/
theorem AllMerged.activeSet_last (h : AllMerged f n) (hn : 1 ≤ n) : activeSet f n (2 * n - 1) = {2 * n - 2} := by
  ext j
  rw [mem_activeSet, Finset.mem_singleton]
  constructor
  · rintro ⟨hj, hno⟩
    by_contra hne
    obtain ⟨p, b, hp, hp', rfl⟩ := h.exists_parent (j := j) (by omega)
    exact hno p (List.mem_range.mpr hp') hp (isChild_childOn f p b)
  · rintro rfl
    refine ⟨by omega, fun p hp hnp hc => ?_⟩
    have hp := List.mem_range.mp hp
    have := (h p hnp hp).child_lt hc
    omega

/-- A merge takes its two children out of the active set. -/
theorem MergedAt.sum_activeSet {M : Type*} [AddCommMonoid M] (h : MergedAt f n k) (g : Nat → M) :
    ∑ j ∈ activeSet f n k, g j =
      g (f k).child0.toNat + (g (f k).child1.toNat + ∑ j ∈ unmerged f n k, g j) := by
  have h₁ : (f k).child1.toNat ∈ (activeSet f n k).erase (f k).child0.toNat :=
    Finset.mem_erase.mpr ⟨h.child0_ne_child1.symm, mem_activeSet.mpr (h.child_active (.inr rfl))⟩
  rw [unmerged, Finset.add_sum_erase _ g h₁, Finset.add_sum_erase _ g (mem_activeSet.mpr (h.child_active (.inl rfl)))]

theorem not_mem_unmerged_self : k ∉ unmerged f n k := fun hk => (mem_unmerged.mp hk).1.1.ne rfl

/-- A merge puts its node into the active set. -/
theorem AllMerged.sum_activeSet_succ {M : Type*} [AddCommMonoid M] (h : AllMerged f n) (hn : n ≤ k)
    (hk : k < 2 * n - 1) (g : Nat → M) :
    ∑ j ∈ activeSet f n (k + 1), g j = g k + ∑ j ∈ unmerged f n k, g j := by
  have hinsert : activeSet f n (k + 1) = insert k (unmerged f n k) := by
    ext j
    rw [mem_activeSet, Finset.mem_insert, mem_unmerged]
    exact activeAt_succ_iff (fun p hp hpk => h p hp (by omega)) hn
  rw [hinsert, Finset.sum_insert not_mem_unmerged_self]

end

/-! ### Frequencies (42_tree_builder.md rule R157) -/

section
variable {f : Nat → Node} {n k : Nat}

/-- A merge keeps the total frequency of the active set. -/
theorem AllMerged.sum_nodeFreq (h : AllMerged f n) (hn : n ≤ k) (hk : k ≤ 2 * n - 1) :
    ∑ j ∈ activeSet f n k, nodeFreq f j = ∑ j ∈ Finset.range n, nodeFreq f j := by
  induction k, hn using Nat.le_induction with
  | base => rw [activeSet_first]
  | succ k hn ih =>
    have hm := h k hn (by omega)
    rw [← ih (by omega), h.sum_activeSet_succ hn (by omega), hm.sum_activeSet, hm.freq_eq, add_assoc]

/-- The root's frequency is the total of the leaves'. -/
theorem AllMerged.root_freq (h : AllMerged f n) (hn : 1 ≤ n) :
    nodeFreq f (2 * n - 2) = ∑ j ∈ Finset.range n, nodeFreq f j := by
  rw [← h.sum_nodeFreq (k := 2 * n - 1) (by omega) le_rfl, h.activeSet_last hn, Finset.sum_singleton]

end

/-- Absent symbols add nothing to the total count. -/
theorem sum_presentSymbols (s : State) :
    ((presentSymbols s).map fun x => (s.freqAt x).toNat).sum =
      ((List.range 256).map fun x => (s.freqAt x).toNat).sum := by
  rw [presentSymbols]
  induction List.range 256 with
  | nil => rfl
  | cons x xs ih =>
    by_cases hx : s.freqAt x = 0#32
    · simpa [hx] using ih
    · simpa [hx] using ih

theorem TreeMatches.root_freq {s : State} (h : TreeMatches s) :
    nodeFreq s.nodeAt s.root.toNat = ((List.range 256).map fun x => (s.freqAt x).toNat).sum := by
  rw [h.root_eq, h.allMerged.root_freq h.leafCount_pos, ← sum_presentSymbols, ← h.sum_leaves]
  exact Finset.sum_congr rfl fun i hi => h.leaf_freq (Finset.mem_range.mp hi)

end Sys2Proof.Safety

namespace Sys2Proof.Proofs

open Sys2Proof.Machine Sys2Proof.Safety

/-- Settles O32: each merge is exact, so the total of the active set stays, and at the end it is the root's. -/
theorem builtFrequenciesAreExact : Obligations.BuiltFrequenciesAreExact := by
  intro s t he hok
  obtain ⟨h, hfreq⟩ := treeMatches_of_exec_buildTree he hok
  rw [h.nnodes_eq, ← freqAt_eq_of_same hfreq]
  exact ⟨fun k hk hint => (h.mergedAt_of_internal hk (by simp [hint])).2.freq_eq, h.root_freq⟩

end Sys2Proof.Proofs

/-! Optimal code lengths, by Huffman's exchange argument (42_tree_builder.md rule R159). Codes of which none starts
another enter it only through Kraft's inequality for their lengths. -/

namespace Sys2Proof.Safety

/-! ### Kraft's inequality -/

/-- Non-empty codewords of which none starts another are uniquely decodable: the first codewords of two equal streams
both start one list, so one of them starts the other. -/
theorem uniquelyDecodable_of_prefixFree {S : Set (List Bool)} (hne : [] ∉ S)
    (hfree : ∀ u ∈ S, ∀ v ∈ S, u <+: v → u = v) : InformationTheory.UniquelyDecodable S := by
  intro us
  induction us with
  | nil =>
    intro vs _ hvs he
    cases vs with
    | nil => rfl
    | cons v vs =>
      obtain rfl : v = [] := (List.append_eq_nil_iff.mp he.symm).1
      exact absurd (hvs [] List.mem_cons_self) hne
  | cons u us ih =>
    intro vs hus hvs he
    have hu := hus u List.mem_cons_self
    cases vs with
    | nil =>
      obtain rfl : u = [] := (List.append_eq_nil_iff.mp he).1
      exact absurd hu hne
    | cons v vs =>
      have hv := hvs v List.mem_cons_self
      rw [List.flatten_cons, List.flatten_cons] at he
      obtain rfl : u = v := by
        obtain h | h := List.prefix_or_prefix_of_prefix ⟨_, he⟩ ⟨_, rfl⟩
        · exact hfree u hu v hv h
        · exact (hfree v hv u hu h).symm
      rw [ih vs (fun w hw => hus w (List.mem_cons_of_mem _ hw)) (fun w hw => hvs w (List.mem_cons_of_mem _ hw))
        (List.append_cancel_left he)]

/-- Kraft's sum of the code lengths `l` over `A`. -/
noncomputable def kraftSum (A : Finset Nat) (l : Nat → Nat) : ℝ := ∑ j ∈ A, (1 / 2 : ℝ) ^ l j

/-- The weighted length of the code lengths `l` over `A`. -/
def weightedLength (A : Finset Nat) (w l : Nat → Nat) : Nat := ∑ j ∈ A, w j * l j

/-- Kraft's inequality for non-empty codes of which none starts another. -/
theorem kraftSum_le_one {A : Finset Nat} {c : Nat → List Bool} (hne : ∀ j ∈ A, c j ≠ [])
    (hfree : ∀ i ∈ A, ∀ j ∈ A, i ≠ j → ¬ c i <+: c j) : kraftSum A (fun j => (c j).length) ≤ 1 := by
  have hinj : Set.InjOn c A := fun i hi j hj he => by
    by_contra hij
    exact hfree i hi j hj hij (he ▸ List.prefix_rfl)
  have hud : InformationTheory.UniquelyDecodable ((A.image c : Finset (List Bool)) : Set (List Bool)) := by
    refine uniquelyDecodable_of_prefixFree ?_ ?_
    · simpa using hne
    · simp only [Finset.coe_image, Set.forall_mem_image]
      intro i hi j hj hp
      by_contra hij
      exact hfree i hi j hj (fun e => hij (e ▸ rfl)) hp
  have hkraft := InformationTheory.kraft_mcmillan_inequality hud
  rw [Finset.sum_image hinj, Fintype.card_bool] at hkraft
  exact_mod_cast hkraft

/-! ### The exchange: the two least weights get the longest codes -/

section
variable {A : Finset Nat} {w l : Nat → Nat} {a b x j : Nat}

theorem kraftSum_eq_add (l : Nat → Nat) (ha : a ∈ A) : kraftSum A l = (1 / 2) ^ l a + kraftSum (A.erase a) l :=
  (Finset.add_sum_erase A _ ha).symm

theorem weightedLength_eq_add (w l : Nat → Nat) (ha : a ∈ A) :
    weightedLength A w l = w a * l a + weightedLength (A.erase a) w l := (Finset.add_sum_erase A _ ha).symm

theorem kraftSum_nonneg (A : Finset Nat) (l : Nat → Nat) : 0 ≤ kraftSum A l :=
  Finset.sum_nonneg fun _ _ => by positivity

theorem kraftSum_congr {l' : Nat → Nat} (h : ∀ j ∈ A, l j = l' j) : kraftSum A l = kraftSum A l' :=
  Finset.sum_congr rfl fun j hj => by rw [h j hj]

theorem weightedLength_congr {l' : Nat → Nat} (h : ∀ j ∈ A, l j = l' j) :
    weightedLength A w l = weightedLength A w l' := Finset.sum_congr rfl fun j hj => by rw [h j hj]

theorem kraftSum_swap (ha : a ∈ A) (hx : x ∈ A) : kraftSum A (l ∘ Equiv.swap a x) = kraftSum A l := by
  refine (Equiv.swap a x).sum_comp A (fun j => (1 / 2 : ℝ) ^ l j) fun j hj => ?_
  by_contra hjA
  exact hj (Equiv.swap_apply_of_ne_of_ne (fun e => hjA (e ▸ ha)) fun e => hjA (e ▸ hx))

/-- Giving the longer of two codes to the lesser weight does not lengthen the total. -/
theorem weightedLength_swap_le (ha : a ∈ A) (hx : x ∈ A) (hw : w a ≤ w x) (hl : l a ≤ l x) :
    weightedLength A w (l ∘ Equiv.swap a x) ≤ weightedLength A w l := by
  by_cases hax : a = x
  · simp [hax]
  · have hx' : x ∈ A.erase a := Finset.mem_erase.mpr ⟨Ne.symm hax, hx⟩
    have hrest : weightedLength ((A.erase a).erase x) w (l ∘ Equiv.swap a x) =
        weightedLength ((A.erase a).erase x) w l := by
      refine weightedLength_congr fun j hj => ?_
      obtain ⟨hjx, hj⟩ := Finset.mem_erase.mp hj
      exact congrArg l (Equiv.swap_apply_of_ne_of_ne (Finset.ne_of_mem_erase hj) hjx)
    have := mul_add_mul_le_mul_add_mul hw hl
    simp only [weightedLength_eq_add w _ ha, weightedLength_eq_add w _ hx', hrest, Function.comp_apply,
      Equiv.swap_apply_left, Equiv.swap_apply_right]
    omega

/-- The least weight can have the longest code. -/
theorem exists_longest_at (ha : a ∈ A) (hw : ∀ j ∈ A, w a ≤ w j) (l : Nat → Nat) :
    ∃ l', (∀ j ∈ A, l' j ≤ l' a) ∧ (∃ x ∈ A, l' a = l x) ∧ kraftSum A l' = kraftSum A l ∧
      weightedLength A w l' ≤ weightedLength A w l := by
  obtain ⟨x, hx, hmax⟩ := A.exists_max_image l ⟨a, ha⟩
  refine ⟨l ∘ Equiv.swap a x, fun j hj => ?_, ⟨x, hx, by simp⟩, kraftSum_swap ha hx,
    weightedLength_swap_le ha hx (hw x hx) (hmax a ha)⟩
  rw [Function.comp_apply, Function.comp_apply, Equiv.swap_apply_left]
  refine hmax _ ?_
  rw [Equiv.swap_apply_def]
  split_ifs
  · exact hx
  · exact ha
  · exact hj

/-- Kraft's sum is a whole number of steps, each the term of the greatest length. -/
theorem two_pow_mul_kraftSum {m : Nat} (hm : ∀ j ∈ A, l j ≤ m) :
    2 ^ m * kraftSum A l = ((∑ j ∈ A, 2 ^ (m - l j) : Nat) : ℝ) := by
  rw [kraftSum, Finset.mul_sum, Nat.cast_sum]
  refine Finset.sum_congr rfl fun j hj => ?_
  obtain ⟨e, rfl⟩ := Nat.exists_eq_add_of_le (hm j hj)
  rw [Nat.add_sub_cancel_left, pow_add, mul_right_comm, ← mul_pow]
  norm_num

/-- If Kraft's sum is below 1, there is room for one more code of the greatest length. -/
theorem kraftSum_add_le_one {m : Nat} (hm : ∀ j ∈ A, l j ≤ m) (h : kraftSum A l < 1) :
    (1 / 2) ^ m + kraftSum A l ≤ 1 := by
  have hscale := two_pow_mul_kraftSum hm
  have hone : (2 : ℝ) ^ m * (1 / 2) ^ m = 1 := by
    rw [← mul_pow]
    norm_num
  have hlt : ((∑ j ∈ A, 2 ^ (m - l j) : Nat) : ℝ) < (2 ^ m : Nat) := by
    rw [← hscale, Nat.cast_pow, Nat.cast_ofNat]
    exact mul_lt_of_lt_one_right (by positivity) h
  have hle : ((∑ j ∈ A, 2 ^ (m - l j) : Nat) : ℝ) + 1 ≤ (2 ^ m : Nat) := by exact_mod_cast hlt
  refine le_of_mul_le_mul_left (a := (2 : ℝ) ^ m) ?_ (by positivity)
  rw [mul_add, hone, hscale, mul_one]
  rw [Nat.cast_pow, Nat.cast_ofNat] at hle
  linarith

/-- The two least weights can have codes of one length, as siblings have, with no longer total. -/
theorem exists_siblings (ha : a ∈ A) (hb : b ∈ A.erase a) (hwa : ∀ j ∈ A, w a ≤ w j)
    (hwb : ∀ j ∈ A.erase a, w b ≤ w j) (hkraft : kraftSum A l ≤ 1) :
    ∃ l' m, l' a = m + 1 ∧ l' b = m + 1 ∧ kraftSum A l' ≤ 1 ∧ weightedLength A w l' ≤ weightedLength A w l := by
  obtain ⟨l₁, hmax₁, -, hkraft₁, hlen₁⟩ := exists_longest_at ha hwa l
  obtain ⟨l₂, hmax₂, ⟨x, hx, hlx⟩, hkraft₂, hlen₂⟩ := exists_longest_at hb hwb l₁
  rw [← hkraft₁, kraftSum_eq_add l₁ ha, ← hkraft₂] at hkraft
  have hlt : kraftSum (A.erase a) l₂ < 1 := by
    have : (0 : ℝ) < (1 / 2) ^ l₁ a := by positivity
    linarith
  have hpos : l₂ b ≠ 0 := fun h0 => by
    rw [kraftSum_eq_add l₂ hb, h0, pow_zero] at hlt
    linarith [kraftSum_nonneg ((A.erase a).erase b) l₂]
  obtain ⟨m, hm⟩ := Nat.exists_eq_add_one_of_ne_zero hpos
  have hrest (j : Nat) (hj : j ∈ A.erase a) : Function.update l₂ a (m + 1) j = l₂ j :=
    Function.update_of_ne (Finset.ne_of_mem_erase hj) _ _
  refine ⟨Function.update l₂ a (m + 1), m, Function.update_self .., (hrest b hb).trans hm, ?_, ?_⟩
  · rw [kraftSum_eq_add _ ha, kraftSum_congr hrest, Function.update_self, ← hm]
    exact kraftSum_add_le_one hmax₂ hlt
  · have hle : w a * l₂ b ≤ w a * l₁ a := Nat.mul_le_mul_left _ (hlx ▸ hmax₁ x (Finset.mem_of_mem_erase hx))
    rw [weightedLength_eq_add _ _ ha, weightedLength_congr hrest, Function.update_self, ← hm]
    rw [weightedLength_eq_add _ l₁ ha] at hlen₁
    omega

end
end Sys2Proof.Safety

/-! The tree that BUILD_TREE stores is optimal: the depths of its leaves have the least weighted length
(42_tree_builder.md rule R159). -/

namespace Sys2Proof.Safety

open Sys2Proof.Machine

/-! ### The depth of a node -/

/-- `d` gives the root depth 0, and the children of every node from `k` on one level more than the node. -/
structure IsDepth (f : Nat → Node) (n k : Nat) (d : Nat → Nat) : Prop where
  root : d (2 * n - 2) = 0
  child : ∀ p b, k ≤ p → p < 2 * n - 1 → d (childOn f p b) = d p + 1

section
variable {f : Nat → Node} {n k j : Nat} {d : Nat → Nat}

/-- The depth can be told from the root downward, since a node has one parent only. -/
theorem AllMerged.exists_isDepth (h : AllMerged f n) (hpos : 1 ≤ n) : ∃ d, IsDepth f n n d := by
  refine Nat.decreasingInduction' (m := n) (n := 2 * n - 1) (P := fun k => ∃ d, IsDepth f n k d) ?_ (by omega)
    ⟨fun _ => 0, rfl, fun p b hp hp' => absurd hp (by omega)⟩
  rintro k hk hn ⟨d, hroot, hchild⟩
  have hm := h k hn hk
  refine ⟨fun j => if IsChild f k j then d k + 1 else d j, ?_, fun p b hp hp' => ?_⟩
  · refine (if_neg fun hc => ?_).trans hroot
    have := hm.child_lt hc
    omega
  · have hself : ¬ IsChild f k p := fun hc => by
      have := hm.child_lt hc
      omega
    have hc := isChild_childOn f p b
    simp only [if_neg hself]
    obtain rfl | hlt := Nat.eq_or_lt_of_le hp
    · rw [if_pos hc]
    · rw [if_neg fun hk' => hlt.ne (h.parent_unique hn hk (by omega) hp' hk' hc)]
      exact hchild p b hlt hp'

/-- A path adds its length to the depth. -/
theorem IsDepth.descend (hd : IsDepth f n n d) (h : AllMerged f n) (hleaf : ∀ i < n, (f i).leaf = true)
    {ps : List Bool} (hk : k < 2 * n - 1) (he : descend f k ps = some j) : d j = d k + ps.length := by
  induction ps generalizing k with
  | nil => rw [Option.some.inj he, List.length_nil, Nat.add_zero]
  | cons b ps ih =>
    rw [descend_cons] at he
    split at he
    · cases he
    · next hint =>
      have hn : n ≤ k := Nat.le_of_not_lt fun hlt => hint (hleaf k hlt)
      have hc := (h k hn hk).child_lt (isChild_childOn f k b)
      rw [ih (by omega) he, hd.child k b hn hk, List.length_cons]
      omega

/-! ### The merges are the best choice -/

theorem keyBefore_freq_le {i j : Nat} (h : KeyBefore f i j) : nodeFreq f i ≤ nodeFreq f j :=
  h.elim Nat.le_of_lt fun he => he.1.le

/-- The second child of a merge is the least of what the first leaves (42_tree_builder.md rule R152). -/
theorem MergedAt.child1_least (h : MergedAt f n k) :
    ∀ j ∈ (activeSet f n k).erase (f k).child0.toNat, nodeFreq f (f k).child1.toNat ≤ nodeFreq f j := by
  intro j hj
  obtain ⟨hj₀, hact⟩ := Finset.mem_erase.mp hj
  rw [mem_activeSet] at hact
  obtain ⟨-, -, -, -, -, hmin, -⟩ := h
  by_cases hj₁ : (f k).child1.toNat = j
  · rw [hj₁]
  · exact keyBefore_freq_le (hmin j (List.mem_range.mpr hact.1) hact (not_or.mpr ⟨Ne.symm hj₀, hj₁⟩))

/-- The first child of a merge is the least of the active set (42_tree_builder.md rule R152). -/
theorem MergedAt.child0_least (h : MergedAt f n k) :
    ∀ j ∈ activeSet f n k, nodeFreq f (f k).child0.toNat ≤ nodeFreq f j := by
  intro j hj
  by_cases hj₀ : j = (f k).child0.toNat
  · rw [hj₀]
  · have hnext := h.child1_least j (Finset.mem_erase.mpr ⟨hj₀, hj⟩)
    obtain ⟨-, -, -, -, hkey, -⟩ := h
    exact (keyBefore_freq_le hkey).trans hnext

/-! What a merge does to the two sums over the active set. -/

theorem MergedAt.kraftSum_eq (h : MergedAt f n k) (l : Nat → Nat) : kraftSum (activeSet f n k) l =
    (1 / 2) ^ l (f k).child0.toNat + ((1 / 2) ^ l (f k).child1.toNat + kraftSum (unmerged f n k) l) :=
  h.sum_activeSet _

theorem MergedAt.weightedLength_eq (h : MergedAt f n k) (w l : Nat → Nat) : weightedLength (activeSet f n k) w l =
    w (f k).child0.toNat * l (f k).child0.toNat +
      (w (f k).child1.toNat * l (f k).child1.toNat + weightedLength (unmerged f n k) w l) :=
  h.sum_activeSet _

theorem AllMerged.kraftSum_succ (h : AllMerged f n) (hn : n ≤ k) (hk : k < 2 * n - 1) (l : Nat → Nat) :
    kraftSum (activeSet f n (k + 1)) l = (1 / 2) ^ l k + kraftSum (unmerged f n k) l := h.sum_activeSet_succ hn hk _

theorem AllMerged.weightedLength_succ (h : AllMerged f n) (hn : n ≤ k) (hk : k < 2 * n - 1) (w l : Nat → Nat) :
    weightedLength (activeSet f n (k + 1)) w l = w k * l k + weightedLength (unmerged f n k) w l :=
  h.sum_activeSet_succ hn hk _

/-- In the active set of every merge, the depths have the least weighted length of all lengths that Kraft's inequality
allows: some such lengths that are no longer make the two children siblings, and then the merged set is one smaller. -/
theorem AllMerged.weightedLength_depth_le (h : AllMerged f n) (hd : IsDepth f n n d) (hpos : 1 ≤ n) (hn : n ≤ k)
    (hk : k ≤ 2 * n - 1) {l : Nat → Nat} (hkraft : kraftSum (activeSet f n k) l ≤ 1) :
    weightedLength (activeSet f n k) (nodeFreq f) d ≤ weightedLength (activeSet f n k) (nodeFreq f) l := by
  induction hk using Nat.decreasingInduction generalizing l with
  | self => simp [h.activeSet_last hpos, weightedLength, hd.root]
  | of_succ k hk ih =>
    have hm := h k hn hk
    obtain ⟨l', m, ha, hb, hkraft', hle⟩ := exists_siblings (mem_activeSet.mpr (hm.child_active (.inl rfl)))
      (Finset.mem_erase.mpr ⟨hm.child0_ne_child1.symm, mem_activeSet.mpr (hm.child_active (.inr rfl))⟩)
      hm.child0_least hm.child1_least hkraft
    have hrest (j : Nat) (hj : j ∈ unmerged f n k) : Function.update l' k m j = l' j :=
      Function.update_of_ne (fun e => not_mem_unmerged_self (e ▸ hj)) _ _
    have hd₀ : d (f k).child0.toNat = d k + 1 := hd.child k false hn hk
    have hd₁ : d (f k).child1.toNat = d k + 1 := hd.child k true hn hk
    rw [hm.kraftSum_eq, ha, hb, pow_succ] at hkraft'
    have ih := ih (by omega) (l := Function.update l' k m) (by
      rw [h.kraftSum_succ hn hk, Function.update_self, kraftSum_congr hrest]
      linarith)
    rw [h.weightedLength_succ hn hk, h.weightedLength_succ hn hk, Function.update_self, weightedLength_congr hrest,
      hm.freq_eq] at ih
    refine le_trans ?_ hle
    rw [hm.weightedLength_eq, hm.weightedLength_eq, hd₀, hd₁, ha, hb]
    linarith

end

/-! ### The code lengths of a table (43_code_table_generator.md rules R171 and R172) -/

section
variable {s : State}

theorem CodesMatch.isCodeOf (hc : CodesMatch s) {x : Nat} (hx : x ∈ presentSymbols s) : IsCodeOf s x := by
  obtain ⟨hlt, hpres⟩ := mem_presentSymbols.mp hx
  have := hc x (List.mem_range.mpr hlt)
  rwa [if_neg hpres] at this

/-- In a single-leaf tree the symbol's code is one bit. -/
theorem CodesMatch.codeLen_eq_one (hc : CodesMatch s) (hone : leafCount s = 1) {x : Nat} (hx : x ∈ presentSymbols s) :
    codeLen s x = 1 := by
  obtain ⟨-, -, hcode⟩ := hc.isCodeOf hx
  rw [if_pos hone] at hcode
  rw [codeLen, ← codeString_length, ← codeOf, hcode, List.length_singleton]

/-- With two leaves or more, the length of a symbol's code is the depth of its Leaf. -/
theorem TreeMatches.codeLen_eq_depth (h : TreeMatches s) (hc : CodesMatch s) (hmany : leafCount s ≠ 1)
    {d : Nat → Nat} (hd : IsDepth s.nodeAt (leafCount s) (leafCount s) d) {i : Nat} (hi : i < leafCount s) :
    codeLen s (s.nodeAt i).sym.toNat = d i := by
  obtain ⟨-, -, hpath⟩ := hc.isCodeOf (h.leaf_sym_mem hi)
  rw [if_neg hmany] at hpath
  obtain ⟨j, hj, hsym, hdesc⟩ := hpath
  obtain rfl := h.leaf_sym_injective (List.mem_range.mp hj) hi hsym
  rw [hd.descend h.allMerged (fun i hi => (h.isLeafOf hi).1) h.root_lt hdesc, h.root_eq, hd.root, codeOf,
    codeString_length, Nat.zero_add]

/-- A weighted length over the symbols, by the leaves. -/
theorem TreeMatches.sum_eq_weightedLength (h : TreeMatches s) {g l : Nat → Nat}
    (hl : ∀ i < leafCount s, g (s.nodeAt i).sym.toNat = l i) :
    ((presentSymbols s).map fun x => (s.freqAt x).toNat * g x).sum =
      weightedLength (Finset.range (leafCount s)) (nodeFreq s.nodeAt) l := by
  rw [← h.sum_leaves]
  refine Finset.sum_congr rfl fun i hi => ?_
  have hi := Finset.mem_range.mp hi
  rw [hl i hi, nodeFreq, h.leaf_freq hi]

/-- The lengths of codes of which none starts another meet Kraft's inequality over the leaves. -/
theorem TreeMatches.kraftSum_le_one (h : TreeMatches s) {c : Nat → List Bool} (hne : ∀ x ∈ presentSymbols s, c x ≠ [])
    (hfree : ∀ x ∈ presentSymbols s, ∀ y ∈ presentSymbols s, x ≠ y → ¬ c x <+: c y) :
    kraftSum (Finset.range (leafCount s)) (fun i => (c (s.nodeAt i).sym.toNat).length) ≤ 1 := by
  have hmem {i : Nat} (hi : i ∈ Finset.range (leafCount s)) := h.leaf_sym_mem (Finset.mem_range.mp hi)
  refine Safety.kraftSum_le_one (fun i hi => hne _ (hmem hi)) fun i hi j hj hij => hfree _ (hmem hi) _ (hmem hj) ?_
  exact fun e => hij (h.leaf_sym_injective (Finset.mem_range.mp hi) (Finset.mem_range.mp hj) e)

end
end Sys2Proof.Safety

namespace Sys2Proof.Proofs

open Sys2Proof.Machine Sys2Proof.Safety

/-- Settles O35: one bit is the least for a single leaf; else the code lengths are the depths of the leaves, and no
lengths that Kraft's inequality allows are better. -/
theorem codeLengthsAreOptimal : Obligations.CodeLengthsAreOptimal := by
  intro s h hc c hne hfree
  by_cases hone : leafCount s = 1
  · refine List.sum_le_sum fun x hx => Nat.mul_le_mul_left _ ?_
    rw [hc.codeLen_eq_one hone hx]
    exact List.length_pos_of_ne_nil (hne x hx)
  · obtain ⟨d, hd⟩ := h.allMerged.exists_isDepth h.leafCount_pos
    have hkraft := h.kraftSum_le_one hne hfree
    rw [h.sum_eq_weightedLength fun i hi => h.codeLen_eq_depth hc hone hd hi,
      h.sum_eq_weightedLength (g := fun x => (c x).length) fun _ _ => rfl]
    rw [← activeSet_first s.nodeAt] at hkraft ⊢
    exact h.allMerged.weightedLength_depth_le hd h.leafCount_pos le_rfl (by omega) hkraft

end Sys2Proof.Proofs

/-! The code table that GEN_CODES writes: its frame, and the codes read off the paths of the tree, which end at Leaf
nodes and are no longer than the tree is high (43_code_table_generator.md rules R170 to R177). -/

namespace Sys2Proof.Safety

open Sys2Proof.Machine

variable {s t : State}

/-! ### GEN_CODES by its outcome (43_code_table_generator.md rules R170 and R177) -/

/-- Without a tree GEN_CODES fails. -/
theorem exec_genCodes_of_noTree (hv : s.treeValid = false) : exec .genCodes s = .next (s.completeWith .noTree 0) := by
  obtain ⟨-, ht⟩ | ⟨hv', -⟩ | ⟨hv', -⟩ := exec_genCodes_cases s
  · exact ht
  · cases hv.symm.trans hv'
  · cases hv.symm.trans hv'

/-- On a tree GEN_CODES stores its table. -/
theorem TreeMatches.exec_genCodes (h : TreeMatches s) (hv : s.treeValid = true) :
    ∃ tbl, s.codeTable = .table tbl ∧ exec .genCodes s = .next ((withCodes s tbl).completeWith .none 0) := by
  obtain ⟨hv', -⟩ | ⟨-, tbl, htbl, ht⟩ | ⟨-, why, hstuck, -⟩ := exec_genCodes_cases s
  · cases hv.symm.trans hv'
  · exact ⟨tbl, htbl, ht⟩
  · obtain ⟨tbl, htbl⟩ := h.codeTable_ends
    cases hstuck.symm.trans htbl

theorem codesMatch_completeWith (h : CodesMatch s) (code : ErrCode) (index : Nat) :
    CodesMatch (s.completeWith code index) := by
  obtain ⟨hfreq, htree, hcodes, -⟩ := completeWith_frame s code index
  exact codesMatch_of_same hfreq htree hcodes h

/-- A GEN_CODES that did not fail stored a table, so CODES_VALID is 1. -/
theorem codesValid_of_exec_genCodes (he : exec .genCodes s = .next t) (hok : t.errCode = 0#8) :
    t.codesValid = true := by
  obtain ⟨-, ht⟩ | ⟨-, tbl, -, ht⟩ | ⟨-, why, -, ht⟩ := exec_genCodes_cases s <;> cases ht.symm.trans he
  · exact absurd (show 4#8 = 0#8 from hok) (by decide)
  · rfl

/-- A GEN_CODES that did not fail, from a state that meets the invariant, leaves a tree and its code table. -/
theorem Inv.matches_of_exec_genCodes (h : Inv s) (he : Machine.exec .genCodes s = .next t) (hok : t.errCode = 0#8) :
    TreeMatches t ∧ CodesMatch t := by
  have hv := codesValid_of_exec_genCodes he hok
  have ht := h.exec_genCodes he
  obtain ⟨-, -, -, -, -, htree⟩ := ht.registers
  exact ⟨ht.tree (htree hv), ht.codes hv⟩

/-! ### The codes of a table (43_code_table_generator.md rules R174 and R175) -/

/-- A present symbol has a non-empty code. -/
theorem CodesMatch.one_le_codeLen (hc : CodesMatch s) {x : Nat} (hx : x ∈ presentSymbols s) : 1 ≤ codeLen s x :=
  (hc.isCodeOf hx).1

/-- With two leaves or more, a symbol's code is the path of its Leaf. -/
theorem CodesMatch.exists_path (hc : CodesMatch s) (hmany : leafCount s ≠ 1) {x : Nat} (hx : x ∈ presentSymbols s) :
    ∃ i < leafCount s, (s.nodeAt i).sym.toNat = x ∧ descend s.nodeAt s.root.toNat (codeOf s x) = some i := by
  obtain ⟨-, -, hpath⟩ := hc.isCodeOf hx
  rw [if_neg hmany] at hpath
  obtain ⟨i, hi, hsym, hdesc⟩ := hpath
  exact ⟨i, List.mem_range.mp hi, hsym, hdesc⟩

/-- A path that goes on from a Leaf ends there. -/
theorem descend_eq_of_prefix {f : Nat → Node} {k i j : Nat} {ps qs : List Bool} (hpre : ps <+: qs)
    (hp : descend f k ps = some i) (hi : (f i).leaf = true) (hq : descend f k qs = some j) : j = i := by
  obtain ⟨rest, rfl⟩ := hpre
  rw [descend_append, hp, Option.bind_some] at hq
  exact (descend_of_leaf hi hq).2

/-- In a single-leaf tree there is only one present symbol. -/
theorem eq_of_leafCount_eq_one (hone : leafCount s = 1) {x y : Nat} (hx : x ∈ presentSymbols s)
    (hy : y ∈ presentSymbols s) : x = y := by
  obtain ⟨z, hz⟩ := List.length_eq_one_iff.mp hone
  rw [hz, List.mem_singleton] at hx hy
  exact hx.trans hy.symm

/-- No present symbol's code starts another's: the longer path would go on from the Leaf of the shorter. -/
theorem TreeMatches.eq_of_codeOf_prefix (h : TreeMatches s) (hc : CodesMatch s) {x y : Nat}
    (hx : x ∈ presentSymbols s) (hy : y ∈ presentSymbols s) (hpre : codeOf s x <+: codeOf s y) : x = y := by
  by_cases hone : leafCount s = 1
  · exact eq_of_leafCount_eq_one hone hx hy
  · obtain ⟨i, hi, rfl, hdi⟩ := hc.exists_path hone hx
    obtain ⟨j, -, rfl, hdj⟩ := hc.exists_path hone hy
    rw [descend_eq_of_prefix hpre hdi (h.isLeafOf hi).1 hdj]

/-- A path down from node `k` has at most `k - n + 1` bits: a child's index is less than its parent's, and no path
leaves a Leaf. -/
theorem AllMerged.descend_length_le {f : Nat → Node} {n j k : Nat} {ps : List Bool} (h : AllMerged f n)
    (hleaf : ∀ i < n, (f i).leaf = true) (hk : k < 2 * n - 1) (hd : descend f k ps = some j) :
    ps.length ≤ k + 1 - n := by
  induction ps generalizing k with
  | nil => exact Nat.zero_le _
  | cons b ps ih =>
    rw [descend_cons] at hd
    split at hd
    · cases hd
    · next hint =>
      have hn : n ≤ k := Nat.le_of_not_lt fun hlt => hint (hleaf k hlt)
      have hc := (h k hn hk).child_lt (isChild_childOn f k b)
      have := ih (by omega) hd
      rw [List.length_cons]
      omega

/-- With two leaves or more, a code has at most `n - 1` bits. -/
theorem TreeMatches.codeLen_le (h : TreeMatches s) (hc : CodesMatch s) (hmany : leafCount s ≠ 1) {x : Nat}
    (hx : x ∈ presentSymbols s) : codeLen s x ≤ leafCount s - 1 := by
  obtain ⟨i, -, -, hdesc⟩ := hc.exists_path hmany hx
  have hlen := h.allMerged.descend_length_le (fun j hj => (h.isLeafOf hj).1) h.root_lt hdesc
  rw [h.root_eq, codeOf, codeString_length] at hlen
  rw [codeLen]
  omega

end Sys2Proof.Safety

namespace Sys2Proof.Proofs

open Sys2Proof.Machine Sys2Proof.Safety

/-- Settles O40, by GEN_CODES's two completions. -/
theorem genCodesFrame : Obligations.GenCodesFrame := by
  intro s t he
  obtain ⟨-, ht⟩ | ⟨-, tbl, -, ht⟩ | ⟨-, why, -, ht⟩ := exec_genCodes_cases s <;> cases ht.symm.trans he
  · obtain ⟨hfreq, htree, hcodes, hsymbols, hbits, hrest⟩ := completeWith_frame s .noTree 0
    exact ⟨hfreq, htree, hsymbols, hbits, hrest, fun _ => hcodes, codesValid_of_exec_genCodes he⟩
  · exact ⟨fun _ => rfl, ⟨fun _ => rfl, rfl, rfl, rfl, rfl⟩, ⟨fun _ => rfl, rfl⟩, ⟨fun _ => rfl, rfl⟩,
      ⟨rfl, rfl, rfl, rfl, rfl, rfl, rfl⟩, fun hfailed => absurd rfl hfailed, codesValid_of_exec_genCodes he⟩

/-- Settles O37: on a tree the walk ends, and the table it stores is the code table of the tree. -/
theorem genCodesWritesThePaths : Obligations.GenCodesWritesThePaths := by
  intro s hv h
  obtain ⟨tbl, htbl, ht⟩ := h.exec_genCodes hv
  obtain ⟨hfreq, htree, hsymbols, hbits, hrest, -, hvalid⟩ := genCodesFrame s _ ht
  exact ⟨_, ht, completedWith_completeWith _ .none (by decide), hvalid rfl,
    codesMatch_completeWith (codesMatch_codeTable h htbl) _ _, hfreq, htree, hsymbols, hbits, hrest⟩

/-- Settles O38: the codes are the paths of distinct Leaf nodes. -/
theorem codesArePrefixFree : Obligations.CodesArePrefixFree := by
  intro s t h he hok x hx
  obtain ⟨htree, hcodes⟩ := h.matches_of_exec_genCodes he hok
  exact ⟨hcodes.one_le_codeLen hx, fun y hy hne hpre => hne (htree.eq_of_codeOf_prefix hcodes hx hy hpre)⟩

/-- Settles O39: one bit for a single leaf, else a path from ROOT, which has at most n - 1 bits. -/
theorem codeLengthsAreBounded : Obligations.CodeLengthsAreBounded := by
  intro s t h he hok x hx
  obtain ⟨htree, hcodes⟩ := h.matches_of_exec_genCodes he hok
  refine ⟨hcodes.one_le_codeLen hx, ?_, Nat.le_of_lt_succ (t.codeAt x).len.isLt⟩
  by_cases hone : leafCount t = 1
  · exact (hcodes.codeLen_eq_one hone hx).le.trans (le_max_left _ _)
  · exact (htree.codeLen_le hcodes hone hx).trans (le_max_right _ _)

/-- Settles O36: the failure is a completion, and CODES_VALID implies TREE_VALID under the invariant. -/
theorem genCodesNeedsATree : Obligations.GenCodesNeedsATree := by
  intro s hv
  obtain ⟨hfreq, htree, hcodes, hsymbols, hbits, hrest⟩ := completeWith_frame s .noTree 0
  refine ⟨_, exec_genCodes_of_noTree hv, completedWith_completeWith s .noTree (by decide), hfreq, htree, hcodes,
    hsymbols, hbits, hrest, fun h => ?_⟩
  obtain ⟨-, -, -, -, -, hvalid⟩ := h.registers
  exact Bool.eq_false_iff.mpr fun hc => absurd (hvalid hc) (by simp [hv])

end Sys2Proof.Proofs

/-! The encoder: its loop symbol by symbol, the concatenation of codes it has written by then, and from these every end
of ENCODE (44_encoder.md rules R190 to R199). -/

namespace Sys2Proof.Safety

open Sys2Proof.Machine

/-! ### The loop, one equation per branch (44_encoder.md rules R191 and R193) -/

section
variable {codeAt : Nat → CodeEntry} {cap : Nat} {out : List Bool} {x : Symbol}

theorem len_eq_zero_iff {c : CodeEntry} : c.len = 0#8 ↔ c.len.toNat = 0 := BitVec.toNat_inj.symm

theorem encodeLoop_absent (h : (codeAt x.toNat).len.toNat = 0) (i : Nat) (xs : List Symbol) :
    encodeLoop codeAt cap i out (x :: xs) = .failed .symbolNotInAlphabet i out := by
  rw [encodeLoop, if_pos (len_eq_zero_iff.mpr h)]

theorem encodeLoop_overflow (h : (codeAt x.toNat).len.toNat ≠ 0)
    (hcap : cap < out.length + (codeAt x.toNat).len.toNat) (i : Nat) (xs : List Symbol) :
    encodeLoop codeAt cap i out (x :: xs) = .failed .outputOverflow i out := by
  rw [encodeLoop, if_neg (mt len_eq_zero_iff.mp h), if_pos hcap]

theorem encodeLoop_fits (h : (codeAt x.toNat).len.toNat ≠ 0)
    (hcap : out.length + (codeAt x.toNat).len.toNat ≤ cap) (i : Nat) (xs : List Symbol) :
    encodeLoop codeAt cap i out (x :: xs) = encodeLoop codeAt cap (i + 1) (out ++ codeString (codeAt x.toNat)) xs := by
  rw [encodeLoop, if_neg (mt len_eq_zero_iff.mp h), if_neg (Nat.not_lt.mpr hcap)]

/-- The loop looks up symbols only, and a symbol is below 256. -/
theorem encodeLoop_congr {codeAt' : Nat → CodeEntry} (h : ∀ x < 256, codeAt x = codeAt' x) (i : Nat)
    (xs : List Symbol) : encodeLoop codeAt cap i out xs = encodeLoop codeAt' cap i out xs := by
  induction xs generalizing i out with
  | nil => rfl
  | cons x xs ih => simp only [encodeLoop, h x.toNat x.isLt, ih]

end

/-! ### The codes of the first symbols (44_encoder.md rule R192) -/

theorem codeString_getElem? {c : CodeEntry} {b : Nat} (hb : b < c.len.toNat) :
    (codeString c)[b]? = some (c.bits.getLsbD b) := by
  rw [codeString, List.getElem?_map, List.getElem?_range hb, Option.map_some]

/-- The concatenation of the codes of SYM[0..i-1]. -/
def encodedPrefix (s : State) (i : Nat) : List Bool := (List.range i).flatMap fun j => codeOf s (s.symAt j).toNat

section
variable {s : State} {i j n : Nat}

theorem encodedPrefix_succ (s : State) (i : Nat) :
    encodedPrefix s (i + 1) = encodedPrefix s i ++ codeOf s (s.symAt i).toNat := by
  simp [encodedPrefix, List.range_succ]

theorem codeStart_succ (s : State) (i : Nat) :
    codeStart s (i + 1) = codeStart s i + codeLen s (s.symAt i).toNat := by
  simp [codeStart, List.range_succ]

theorem codeStart_mono (s : State) : Monotone (codeStart s) :=
  monotone_nat_of_le_succ fun i => codeStart_succ s i ▸ Nat.le_add_right _ _

@[simp] theorem encodedPrefix_length (s : State) (i : Nat) : (encodedPrefix s i).length = codeStart s i := by
  simp only [encodedPrefix, List.length_flatMap, codeString_length, codeStart]

/-- The code of SYM[j] stands in the concatenation from `codeStart s j`. -/
theorem encodedPrefix_getElem? {b : Nat} (hj : j < i) (hb : b < codeLen s (s.symAt j).toNat) :
    (encodedPrefix s i)[codeStart s j + b]? = some ((s.codeAt (s.symAt j).toNat).bits.getLsbD b) := by
  induction i, hj using Nat.le_induction with
  | base =>
    rw [encodedPrefix_succ, List.getElem?_append_right (by simp), encodedPrefix_length, Nat.add_sub_cancel_left,
      codeString_getElem? hb]
  | succ i hj ih =>
    have hlt := (List.getElem?_eq_some_iff.mp ih).1
    rw [encodedPrefix_succ, List.getElem?_append_left hlt, ih]

/-- Codes of one bit each. -/
theorem codeStart_eq_self (h : ∀ j < i, codeLen s (s.symAt j).toNat = 1) : codeStart s i = i := by
  induction i with
  | zero => rfl
  | succ i ih => rw [codeStart_succ, ih fun j hj => h j (by omega), h i (by omega)]

/-! ### The loop after the first symbols -/

theorem drop_symbolsIn (s : State) (hi : i < n) :
    (s.symbolsIn n).drop i = s.symAt i :: (s.symbolsIn n).drop (i + 1) := by
  rw [List.drop_eq_getElem_cons (by simpa [State.symbolsIn] using hi)]
  simp [State.symbolsIn]

/-- While every symbol has a code and the codes fit, the loop goes on. -/
theorem encodeLoop_symbolsIn (hi : i ≤ n) (hcodes : ∀ j < i, codeLen s (s.symAt j).toNat ≠ 0) {cap : Nat}
    (hfits : codeStart s i ≤ cap) :
    encodeLoop s.codeAt cap 0 [] (s.symbolsIn n) =
      encodeLoop s.codeAt cap i (encodedPrefix s i) ((s.symbolsIn n).drop i) := by
  induction i with
  | zero => rfl
  | succ i ih =>
    have hbefore : codeStart s i ≤ cap := (codeStart_mono s i.le_succ).trans hfits
    rw [ih (by omega) (fun j hj => hcodes j (by omega)) hbefore, drop_symbolsIn s hi,
      encodeLoop_fits (hcodes i (by omega)) (by rwa [encodedPrefix_length, ← codeStart_succ]), encodedPrefix_succ]

/-- Every symbol has a code that fits: the loop ends with the concatenation. -/
theorem encodeLoop_done {cap : Nat} (hcodes : ∀ j < n, codeLen s (s.symAt j).toNat ≠ 0) (hfits : codeStart s n ≤ cap) :
    encodeLoop s.codeAt cap 0 [] (s.symbolsIn n) = .done (encodedPrefix s n) := by
  rw [encodeLoop_symbolsIn le_rfl hcodes hfits, List.drop_eq_nil_of_le (by simp [State.symbolsIn]), encodeLoop]

/-- SYM[i] has no code: the loop stops there. -/
theorem encodeLoop_stops_absent {cap : Nat} (hi : i < n) (hcodes : ∀ j < i, codeLen s (s.symAt j).toNat ≠ 0)
    (hfits : codeStart s i ≤ cap) (habsent : codeLen s (s.symAt i).toNat = 0) :
    encodeLoop s.codeAt cap 0 [] (s.symbolsIn n) = .failed .symbolNotInAlphabet i (encodedPrefix s i) := by
  rw [encodeLoop_symbolsIn hi.le hcodes hfits, drop_symbolsIn s hi, encodeLoop_absent habsent]

/-- The code of SYM[i] does not fit: the loop stops there. -/
theorem encodeLoop_stops_full {cap : Nat} (hi : i < n) (hcodes : ∀ j ≤ i, codeLen s (s.symAt j).toNat ≠ 0)
    (hfits : codeStart s i ≤ cap) (hfull : cap < codeStart s (i + 1)) :
    encodeLoop s.codeAt cap 0 [] (s.symbolsIn n) = .failed .outputOverflow i (encodedPrefix s i) := by
  rw [codeStart_succ, ← encodedPrefix_length] at hfull
  rw [encodeLoop_symbolsIn hi.le (fun j hj => hcodes j hj.le) hfits, drop_symbolsIn s hi,
    encodeLoop_overflow (hcodes i le_rfl) hfull]

end

/-! ### ENCODE by its outcome (44_encoder.md rules R190, R194 and R195) -/

section
variable {s t : State}

theorem exec_encode_of_noCodes (hv : s.codesValid = false) :
    exec .encode s = .next ((s.encodeOutput [] 0).completeWith .noCodes 0) := by
  obtain ⟨-, ht⟩ | ⟨hv', -⟩ | ⟨hv', -⟩ | ⟨hv', -⟩ := exec_encode_cases s
  · exact ht
  all_goals cases hv.symm.trans hv'

theorem exec_encode_of_badLength (hv : s.codesValid = true) (hlen : s.params.symDepth < s.symLen.toNat) :
    exec .encode s = .next ((s.encodeOutput [] 0).completeWith .badLength 0) := by
  obtain ⟨hv', -⟩ | ⟨-, -, ht⟩ | ⟨-, hle, -⟩ | ⟨-, hle, -⟩ := exec_encode_cases s
  · cases hv.symm.trans hv'
  · exact ht
  all_goals omega

theorem exec_encode_of_done (hv : s.codesValid = true) (hlen : s.symLen.toNat ≤ s.params.symDepth) {out : List Bool}
    (hl : encodeLoop s.codeAt s.params.bitDepth 0 [] (s.symbolsIn s.symLen.toNat) = .done out) :
    exec .encode s = .next ((s.encodeOutput out out.length).completeWith .none 0) := by
  obtain ⟨hv', -⟩ | ⟨-, hlt, -⟩ | ⟨-, -, out', hl', ht⟩ | ⟨-, -, code, index, out', hl', -⟩ := exec_encode_cases s
  · cases hv.symm.trans hv'
  · omega
  all_goals cases hl.symm.trans hl'
  exact ht

theorem exec_encode_of_failed (hv : s.codesValid = true) (hlen : s.symLen.toNat ≤ s.params.symDepth) {code : ErrCode}
    {index : Nat} {out : List Bool}
    (hl : encodeLoop s.codeAt s.params.bitDepth 0 [] (s.symbolsIn s.symLen.toNat) = .failed code index out) :
    exec .encode s = .next ((s.encodeOutput out 0).completeWith code index) := by
  obtain ⟨hv', -⟩ | ⟨-, hlt, -⟩ | ⟨-, -, out', hl', -⟩ | ⟨-, -, code', index', out', hl', ht⟩ := exec_encode_cases s
  · cases hv.symm.trans hv'
  · omega
  all_goals cases hl.symm.trans hl'
  exact ht

/-! ### What an output leaves in the state -/

theorem bitAt_encodeOutput_code {i j b : Nat} (hj : j < i) (hb : b < codeLen s (s.symAt j).toNat) (len : Nat) :
    (s.encodeOutput (encodedPrefix s i) len).bitAt (codeStart s j + b) =
      (s.codeAt (s.symAt j).toNat).bits.getLsbD b := by
  rw [bitAt_encodeOutput, encodedPrefix_getElem? hj hb, Option.getD_some]

/-- After the codes of SYM[0..i-1] ENCODE completes with `code` at `index`: these codes are in BIT, every later entry
and everything else is as before. -/
theorem encodedPrefix_completes (s : State) (i len : Nat) (code : ErrCode) {index : Nat} (hindex : index < 2 ^ 32)
    (ht : t = (s.encodeOutput (encodedPrefix s i) len).completeWith code index) :
    CompletedWith t (errCodeNumber code).toNat index ∧ t.bitLen = BitVec.ofNat 32 len ∧
      (∀ j < i, ∀ b < codeLen s (s.symAt j).toNat,
        t.bitAt (codeStart s j + b) = (s.codeAt (s.symAt j).toNat).bits.getLsbD b) ∧
      (∀ k, codeStart s i ≤ k → t.bitAt k = s.bitAt k) ∧
      SameFreq s t ∧ SameTree s t ∧ SameCodes s t ∧ SameSymbols s t ∧ SameRest s t := by
  subst ht
  exact ⟨completedWith_completeWith _ _ hindex, rfl, fun j hj b hb => bitAt_encodeOutput_code hj hb len,
    fun k hk => bitAt_encodeOutput_of_le (by rwa [encodedPrefix_length]) len, fun _ => rfl,
    ⟨fun _ => rfl, rfl, rfl, rfl, rfl⟩, ⟨fun _ => rfl, rfl⟩, ⟨fun _ => rfl, rfl⟩, rfl, rfl, rfl, rfl, rfl, rfl, rfl⟩

/-- The same output, completed in the same way, gives the same results from any two states. -/
theorem encodeOutput_results_eq (s s' : State) {out : List Bool} {len : Nat} (hlen : len ≤ out.length) (code : ErrCode)
    (index : Nat) (ht : t = (s.encodeOutput out len).completeWith code index) {t' : State}
    (ht' : t' = (s'.encodeOutput out len).completeWith code index) :
    t.errCode = t'.errCode ∧ t.errIndex = t'.errIndex ∧ t.bitLen = t'.bitLen ∧
      ∀ k < t.bitLen.toNat, t.bitAt k = t'.bitAt k := by
  subst ht ht'
  refine ⟨rfl, rfl, rfl, fun k hk => ?_⟩
  have hk : k < out.length := (hk.trans_le (Nat.mod_le _ _)).trans_le hlen
  simp only [completeWith_bitAt, bitAt_encodeOutput, List.getElem?_eq_getElem hk, Option.getD_some]

/-- The input symbols are the same in states that agree on them. -/
theorem symbolsIn_congr {s' : State} {n : Nat} (h : ∀ j < n, s.symAt j = s'.symAt j) :
    s.symbolsIn n = s'.symbolsIn n :=
  List.map_congr_left fun j hj => h j (List.mem_range.mp hj)

/-- The only symbol of an alphabet has the code "0" (43_code_table_generator.md rule R172). -/
theorem CodesMatch.single_code (hc : CodesMatch s) {x : Nat} (hx : presentSymbols s = [x]) :
    codeLen s x = 1 ∧ (s.codeAt x).bits.getLsbD 0 = false := by
  have hmem : x ∈ presentSymbols s := hx ▸ List.mem_singleton_self x
  have hone : leafCount s = 1 := by rw [leafCount, hx, List.length_singleton]
  have hlen := hc.codeLen_eq_one hone hmem
  obtain ⟨-, -, hcode⟩ := hc.isCodeOf hmem
  rw [if_pos hone] at hcode
  have hbit : (codeOf s x)[0]? = some ((s.codeAt x).bits.getLsbD 0) := codeString_getElem? hlen.ge
  rw [hcode] at hbit
  exact ⟨hlen, (Option.some.inj hbit).symm⟩

end
end Sys2Proof.Safety

namespace Sys2Proof.Proofs

open Sys2Proof.Machine Sys2Proof.Safety

/-- Settles O41: both failures come before the loop, with the empty output. -/
theorem encodeChecksItsPreconditions : Obligations.EncodeChecksItsPreconditions := by
  intro s h
  have hfails : ∃ code, exec .encode s = .next ((s.encodeOutput [] 0).completeWith code 0) ∧
      (errCodeNumber code).toNat = if s.codesValid then 8 else 5 := by
    cases hv : s.codesValid with
    | false => exact ⟨.noCodes, exec_encode_of_noCodes hv, rfl⟩
    | true => exact ⟨.badLength, exec_encode_of_badLength hv (h.resolve_left (by simp [hv])), rfl⟩
  obtain ⟨code, he, hcode⟩ := hfails
  obtain ⟨hcompleted, hbitLen, -, hbits, hframe⟩ := encodedPrefix_completes s 0 0 code (Nat.two_pow_pos 32) rfl
  exact ⟨_, he, hcode ▸ hcompleted, hbitLen, fun k => hbits k (Nat.zero_le k), hframe⟩

/-- Settles O42: the loop runs through, and its output is the concatenation of the codes. -/
theorem encodeConcatenatesCodes : Obligations.EncodeConcatenatesCodes := by
  intro s hv hlen hcodes hfits
  have hdepth := bitDepth_le s.params
  obtain ⟨hcompleted, hbitLen, hrest⟩ := encodedPrefix_completes s s.symLen.toNat
    (encodedPrefix s s.symLen.toNat).length .none (Nat.two_pow_pos 32) rfl
  refine ⟨_, exec_encode_of_done hv hlen (encodeLoop_done hcodes hfits), hcompleted, ?_, hrest⟩
  rw [hbitLen, encodedPrefix_length, BitVec.toNat_ofNat, Nat.mod_eq_of_lt (by omega)]

/-- Settles O43: the loop reaches SYM[i] and stops on its code. -/
theorem encodeStopsAtAbsentSymbol : Obligations.EncodeStopsAtAbsentSymbol :=
  fun s i hv hlen hi hcodes hfits habsent =>
    ⟨_, exec_encode_of_failed hv hlen (encodeLoop_stops_absent hi hcodes hfits habsent),
      encodedPrefix_completes s i 0 .symbolNotInAlphabet (hi.trans s.symLen.isLt) rfl⟩

/-- Settles O44: the loop reaches SYM[i] and stops on the buffer. -/
theorem encodeStopsAtFullBuffer : Obligations.EncodeStopsAtFullBuffer :=
  fun s i hv hlen hi hcodes hfits hfull =>
    ⟨_, exec_encode_of_failed hv hlen (encodeLoop_stops_full hi hcodes hfits hfull),
      encodedPrefix_completes s i 0 .outputOverflow (hi.trans s.symLen.isLt) rfl⟩

/-- Settles O45, from O42: every code is the one bit 0, so the code of SYM[j] is bit j. -/
theorem singleSymbolEncodesToZeros : Obligations.SingleSymbolEncodesToZeros := by
  intro s x hv hc hx hlen hdepth hsym
  obtain ⟨hcodeLen, hzero⟩ := hc.single_code hx
  have hone : ∀ j < s.symLen.toNat, codeLen s (s.symAt j).toNat = 1 := fun j hj => hsym j hj ▸ hcodeLen
  have hstart : ∀ j ≤ s.symLen.toNat, codeStart s j = j := fun j hj =>
    codeStart_eq_self fun i hi => hone i (hi.trans_le hj)
  obtain ⟨t, he, hcompleted, hbitLen, hbits, -⟩ := encodeConcatenatesCodes s hv hlen
    (fun j hj => hone j hj ▸ Nat.one_ne_zero) (by rwa [hstart _ le_rfl])
  refine ⟨t, he, hcompleted, BitVec.eq_of_toNat_eq (hbitLen.trans (hstart _ le_rfl)), fun j hj => ?_⟩
  have hbit := hbits j hj 0 (hone j hj).ge
  rw [hsym j hj, hstart j hj.le] at hbit
  exact hbit.trans hzero

/-- Settles O46: states that agree on the inputs take the same of ENCODE's four ends, with the same output. -/
theorem encodeIsPure : Obligations.EncodeIsPure := by
  intro s s' hv hlen hparams hsym hcode
  have hloop (hle : s.symLen.toNat ≤ s.params.symDepth) :
      encodeLoop s.codeAt s.params.bitDepth 0 [] (s.symbolsIn s.symLen.toNat) =
        encodeLoop s'.codeAt s'.params.bitDepth 0 [] (s'.symbolsIn s'.symLen.toNat) := by
    rw [encodeLoop_congr hcode, symbolsIn_congr fun j hj => hsym j (hj.trans_le hle), hparams, hlen]
  obtain ⟨hv', ht⟩ | ⟨hv', hlt, ht⟩ | ⟨hv', hle, out, hl, ht⟩ | ⟨hv', hle, code, index, out, hl, ht⟩ :=
    exec_encode_cases s
  · exact ⟨_, _, ht, exec_encode_of_noCodes (hv ▸ hv'), encodeOutput_results_eq s s' le_rfl _ _ rfl rfl⟩
  · exact ⟨_, _, ht, exec_encode_of_badLength (hv ▸ hv') (hparams ▸ hlen ▸ hlt),
      encodeOutput_results_eq s s' le_rfl _ _ rfl rfl⟩
  · exact ⟨_, _, ht, exec_encode_of_done (hv ▸ hv') (hparams ▸ hlen ▸ hle) (hloop hle ▸ hl),
      encodeOutput_results_eq s s' le_rfl _ _ rfl rfl⟩
  · exact ⟨_, _, ht, exec_encode_of_failed (hv ▸ hv') (hparams ▸ hlen ▸ hle) (hloop hle ▸ hl),
      encodeOutput_results_eq s s' (Nat.zero_le _) _ _ rfl rfl⟩

end Sys2Proof.Proofs

/-! The decoder: what it needs of the arena, its loop codeword by codeword, and from these every end of DECODE; and what
it reads back from a stream that ENCODE wrote (45_decoder.md rules R210 to R222). -/

namespace Sys2Proof.Safety

open Sys2Proof.Machine

variable {s t : State}

/-! ### What the decoder needs of NODE and ROOT (45_decoder.md rule R220) -/

/-- From ROOT down every node is in the arena, and an Internal node's children have lesser indices than it. This says
nothing of FREQ, which may change between ENCODE and DECODE. -/
structure DecoderTree (s : State) : Prop where
  root_lt : s.root.toNat < maxNodes
  child_lt : ∀ k b, k ≤ s.root.toNat → (s.nodeAt k).leaf = false → childOn s.nodeAt k b < k

theorem TreeMatches.decoderTree (h : TreeMatches s) : DecoderTree s := by
  have hroot := h.root_lt
  have hcount := leafCount_le s
  refine ⟨show s.root.toNat < 511 by omega, fun k b hk hint => ?_⟩
  exact (h.mergedAt_of_internal (by omega) (by simp [hint])).2.child_lt (isChild_childOn s.nodeAt k b)

theorem DecoderTree.of_same (h : DecoderTree s) (ht : SameTree s t) : DecoderTree t := by
  obtain ⟨hnode, -, hroot, -⟩ := ht
  obtain ⟨hlt, hchild⟩ := h
  have hnode : t.nodeAt = s.nodeAt := funext hnode
  exact ⟨hroot ▸ hlt, by rwa [hnode, hroot]⟩

theorem isCodeword_of_same (ht : SameTree s t) {p : List Bool} {i : Nat} (h : IsCodeword s p i) : IsCodeword t p i := by
  obtain ⟨hnode, -, hroot, -⟩ := ht
  have hnode : t.nodeAt = s.nodeAt := funext hnode
  rwa [IsCodeword, hnode, hroot]

/-! ### The loop (45_decoder.md rules R211 and R212) -/

section
variable {cap i j k start : Nat} {out : List Symbol} {ps : List Bool}

theorem moveOn_of_internal (hint : (s.nodeAt k).leaf = false) (b : Bool) :
    moveOn (s.nodeAt k) k b = childOn s.nodeAt k b := by
  rw [moveOn, if_neg (by simp [hint]), childOn]

theorem DecoderTree.arenaAt?_eq (h : DecoderTree s) (hk : k ≤ s.root.toNat) : s.arenaAt? k = some (s.nodeAt k) :=
  if_pos (hk.trans_lt h.root_lt)

theorem DecoderTree.moveOn_le (h : DecoderTree s) (hk : k ≤ s.root.toNat) (b : Bool) :
    moveOn (s.nodeAt k) k b ≤ s.root.toNat := by
  cases hleaf : (s.nodeAt k).leaf with
  | true => rwa [moveOn, if_pos hleaf]
  | false => exact (moveOn_of_internal hleaf b ▸ h.child_lt k b hk hleaf).le.trans hk

/-- The loop's one step on a tree: the move, and at a Leaf the emission or the overflow. -/
theorem DecoderTree.decodeLoop_cons (h : DecoderTree s) (hk : k ≤ s.root.toNat) (b : Bool) (rest : List Bool) :
    decodeLoop s.arenaAt? s.root.toNat cap i k start out (b :: rest) =
      if (s.nodeAt (moveOn (s.nodeAt k) k b)).leaf then
        if out.length = cap then .failed .outputOverflow i out
        else decodeLoop s.arenaAt? s.root.toNat cap (i + 1) s.root.toNat (if k = s.root.toNat then i else start)
          (out ++ [(s.nodeAt (moveOn (s.nodeAt k) k b)).sym]) rest
      else decodeLoop s.arenaAt? s.root.toNat cap (i + 1) (moveOn (s.nodeAt k) k b)
        (if k = s.root.toNat then i else start) out rest := by
  rw [decodeLoop, h.arenaAt?_eq hk]
  simp only [h.arenaAt?_eq (h.moveOn_le hk b)]

/-- At ROOT the loop does not look at `start`: the next bit sets it, and the stream may end there. -/
theorem decodeLoop_root_start (arenaAt? : Nat → Option Node) (r cap i start start' : Nat) (out : List Symbol)
    (bits : List Bool) :
    decodeLoop arenaAt? r cap i r start out bits = decodeLoop arenaAt? r cap i r start' out bits := by
  cases bits with
  | nil => simp [decodeLoop]
  | cons b bits => simp only [decodeLoop, if_true]

/-- A path goes down by at least one index a bit. -/
theorem DecoderTree.descend_add_length_le (h : DecoderTree s) (hk : k ≤ s.root.toNat)
    (hd : descend s.nodeAt k ps = some j) : j + ps.length ≤ k := by
  induction ps generalizing k with
  | nil => exact (Option.some.inj hd).ge
  | cons b ps ih =>
    rw [descend_cons] at hd
    split at hd
    · cases hd
    · next hint =>
      have hlt := h.child_lt k b hk (by simpa using hint)
      have := ih (by omega) hd
      rw [List.length_cons]
      omega

/-- Along a path through Internal nodes the loop only moves, and it keeps the codeword's first position. -/
theorem DecoderTree.decodeLoop_path (h : DecoderTree s) (hk : k ≤ s.root.toNat) (hstart : k = s.root.toNat → start = i)
    (hd : descend s.nodeAt k ps = some j) (hj : ps ≠ [] → (s.nodeAt j).leaf = false) (rest : List Bool) :
    decodeLoop s.arenaAt? s.root.toNat cap i k start out (ps ++ rest) =
      decodeLoop s.arenaAt? s.root.toNat cap (i + ps.length) j start out rest := by
  induction ps generalizing i k with
  | nil =>
    obtain rfl := Option.some.inj hd
    rfl
  | cons b ps ih =>
    rw [descend_cons] at hd
    split at hd
    · cases hd
    · next hint =>
      rw [Bool.not_eq_true] at hint
      have hj := hj (List.cons_ne_nil b ps)
      have hlt := h.child_lt k b hk hint
      have hchild : ¬ (s.nodeAt (childOn s.nodeAt k b)).leaf = true := fun hleaf => by
        obtain ⟨-, rfl⟩ := descend_of_leaf hleaf hd
        simp [hj] at hleaf
      have hkeep : (if k = s.root.toNat then i else start) = start := by
        split
        · next hr => exact (hstart hr).symm
        · rfl
      rw [List.cons_append, h.decodeLoop_cons hk, moveOn_of_internal hint, if_neg hchild, hkeep,
        ih (by omega) (fun hr => by omega) hd (fun _ => hj), List.length_cons, Nat.add_assoc, Nat.add_comm 1]

/-- The last bit of a codeword is the move that reaches its Leaf; the bits before it lead through Internal nodes. In a
single-leaf tree there are none before it. -/
theorem exists_lastMove {p : List Bool} (hc : IsCodeword s p i) :
    ∃ qs b m, p = qs ++ [b] ∧ descend s.nodeAt s.root.toNat qs = some m ∧ (qs ≠ [] → (s.nodeAt m).leaf = false) ∧
      moveOn (s.nodeAt m) m b = i := by
  obtain ⟨hleaf, hc⟩ := hc
  split at hc
  · next hroot =>
    obtain ⟨rfl, hlen⟩ := hc
    obtain ⟨b, rfl⟩ := List.length_eq_one_iff.mp hlen
    exact ⟨[], b, _, rfl, rfl, fun hne => absurd rfl hne, if_pos hroot⟩
  · next hroot =>
    obtain rfl | ⟨qs, b, rfl⟩ := List.eq_nil_or_concat' p
    · exact absurd (Option.some.inj hc ▸ hleaf) hroot
    · rw [descend_append, Option.bind_eq_some_iff] at hc
      obtain ⟨m, hm, hlast⟩ := hc
      rw [descend_cons] at hlast
      split at hlast
      · cases hlast
      · next hint =>
        rw [Bool.not_eq_true] at hint
        exact ⟨qs, b, m, rfl, hm, fun _ => hint, (moveOn_of_internal hint b).trans (Option.some.inj hlast)⟩

end

/-! ### The loop at a codeword's boundary -/

/-- The decoder's loop at ROOT before bit `i`. -/
abbrev decodeFrom (s : State) (cap i : Nat) (out : List Symbol) (bits : List Bool) : DecodeEnd :=
  decodeLoop s.arenaAt? s.root.toNat cap i s.root.toNat i out bits

/-- The stream of the codewords `ws`, each with its Leaf. -/
abbrev streamOf (ws : List (List Bool × Nat)) : List Bool := (ws.map Prod.fst).flatten

/-- The symbols of the codewords `ws`. -/
abbrev symbolsOf (s : State) (ws : List (List Bool × Nat)) : List Symbol := ws.map fun c => (s.nodeAt c.2).sym

section
variable {cap i j : Nat} {out : List Symbol} {ws : List (List Bool × Nat)} {p tail : List Bool}

/-- A codeword emits its symbol, or overflows at its last bit (45_decoder.md rules R212 and R217). -/
theorem DecoderTree.decodeFrom_codeword (h : DecoderTree s) (hc : IsCodeword s p j) (rest : List Bool) :
    decodeFrom s cap i out (p ++ rest) =
      if out.length = cap then .failed .outputOverflow (i + p.length - 1) out
      else decodeFrom s cap (i + p.length) (out ++ [(s.nodeAt j).sym]) rest := by
  obtain ⟨qs, b, m, rfl, hd, hint, rfl⟩ := exists_lastMove hc
  have hm := h.descend_add_length_le le_rfl hd
  rw [List.append_assoc, decodeFrom, h.decodeLoop_path le_rfl (fun _ => rfl) hd hint, List.singleton_append,
    h.decodeLoop_cons (by omega), if_pos hc.1, List.length_append, List.length_singleton, ← Nat.add_assoc,
    Nat.add_sub_cancel, decodeFrom, decodeLoop_root_start _ _ _ _ _ (i + qs.length + 1)]

/-- Whole codewords that fit emit their symbols. -/
theorem DecoderTree.decodeFrom_codewords (h : DecoderTree s) (hws : ∀ c ∈ ws, IsCodeword s c.1 c.2)
    (hcap : out.length + ws.length ≤ cap) (rest : List Bool) :
    decodeFrom s cap i out (streamOf ws ++ rest) =
      decodeFrom s cap (i + (streamOf ws).length) (out ++ symbolsOf s ws) rest := by
  induction ws generalizing i out with
  | nil => rw [symbolsOf, List.map_nil, List.append_nil]; rfl
  | cons c ws ih =>
    rw [List.length_cons] at hcap
    rw [streamOf, List.map_cons, List.flatten_cons, List.append_assoc, h.decodeFrom_codeword (hws c List.mem_cons_self),
      if_neg (by omega), ih (fun d hd => hws d (List.mem_cons_of_mem c hd)) (by simp; omega)]
    simp [Nat.add_assoc]

/-- A stream of whole codewords ends at ROOT. -/
theorem DecoderTree.decodeFrom_whole (h : DecoderTree s) (hws : ∀ c ∈ ws, IsCodeword s c.1 c.2)
    (hcap : ws.length ≤ cap) : decodeFrom s cap 0 [] (streamOf ws) = .done (symbolsOf s ws) := by
  rw [← List.append_nil (streamOf ws), h.decodeFrom_codewords hws (by simpa using hcap)]
  simp [decodeLoop]

/-- A stream that ends below ROOT is truncated (45_decoder.md rule R214). -/
theorem DecoderTree.decodeFrom_truncated (h : DecoderTree s) (hws : ∀ c ∈ ws, IsCodeword s c.1 c.2)
    (hcap : ws.length ≤ cap) (hne : tail ≠ []) (hd : descend s.nodeAt s.root.toNat tail = some j)
    (hint : (s.nodeAt j).leaf = false) :
    decodeFrom s cap 0 [] (streamOf ws ++ tail) =
      .failed .truncatedStream (streamOf ws).length (symbolsOf s ws) := by
  have hlt := h.descend_add_length_le le_rfl hd
  have hpos := List.length_pos_of_ne_nil hne
  rw [h.decodeFrom_codewords hws (by simpa using hcap), ← List.append_nil tail, decodeFrom,
    h.decodeLoop_path le_rfl (fun _ => rfl) hd (fun _ => hint), decodeLoop, if_pos (by omega), Nat.zero_add,
    List.nil_append]

/-- One codeword more than fit overflows at its last bit (45_decoder.md rule R217). -/
theorem DecoderTree.decodeFrom_overflow (h : DecoderTree s) (hws : ∀ c ∈ ws, IsCodeword s c.1 c.2)
    (hcap : ws.length = cap) (hc : IsCodeword s p j) (rest : List Bool) :
    decodeFrom s cap 0 [] (streamOf ws ++ p ++ rest) =
      .failed .outputOverflow ((streamOf ws).length + p.length - 1) (symbolsOf s ws) := by
  rw [List.append_assoc, h.decodeFrom_codewords hws (by simp [hcap]), h.decodeFrom_codeword hc,
    if_pos (by simpa using hcap), Nat.zero_add, List.nil_append]

/-- In a single-leaf tree every bit is a codeword, whatever its value (45_decoder.md rule R213). -/
def bitCodewords (s : State) (bits : List Bool) : List (List Bool × Nat) := bits.map fun b => ([b], s.root.toNat)

theorem isCodeword_bit (hleaf : (s.nodeAt s.root.toNat).leaf = true) (b : Bool) :
    IsCodeword s [b] s.root.toNat := ⟨hleaf, (if_pos hleaf).mpr ⟨rfl, rfl⟩⟩

theorem isCodeword_of_mem_bitCodewords (hleaf : (s.nodeAt s.root.toNat).leaf = true) {bits : List Bool} :
    ∀ c ∈ bitCodewords s bits, IsCodeword s c.1 c.2 := by
  intro c hc
  obtain ⟨b, -, rfl⟩ := List.mem_map.mp hc
  exact isCodeword_bit hleaf b

@[simp] theorem bitCodewords_length (s : State) (bits : List Bool) : (bitCodewords s bits).length = bits.length := by
  simp [bitCodewords]

@[simp] theorem streamOf_bitCodewords (s : State) (bits : List Bool) : streamOf (bitCodewords s bits) = bits := by
  rw [streamOf, bitCodewords, List.map_map, ← List.flatMap_def]
  exact List.flatMap_singleton' bits

@[simp] theorem symbolsOf_bitCodewords (s : State) (bits : List Bool) :
    symbolsOf s (bitCodewords s bits) = List.replicate bits.length (s.nodeAt s.root.toNat).sym := by
  simp [bitCodewords, Function.comp_def]

/-- The two ends of the loop on a single-leaf tree: every bit emits the sole symbol, until the buffer is full. -/
theorem DecoderTree.decodeFrom_singleLeaf (h : DecoderTree s) (hleaf : (s.nodeAt s.root.toNat).leaf = true)
    (cap : Nat) (bits : List Bool) :
    (bits.length ≤ cap ∧
      decodeFrom s cap 0 [] bits = .done (List.replicate bits.length (s.nodeAt s.root.toNat).sym)) ∨
    (cap < bits.length ∧
      decodeFrom s cap 0 [] bits = .failed .outputOverflow cap (List.replicate cap (s.nodeAt s.root.toNat).sym)) := by
  obtain hle | hlt := le_or_gt bits.length cap
  · have hend := h.decodeFrom_whole (isCodeword_of_mem_bitCodewords hleaf (bits := bits)) (by simpa using hle)
    simp only [streamOf_bitCodewords, symbolsOf_bitCodewords] at hend
    exact .inl ⟨hle, hend⟩
  · have hlen : (bits.take cap).length = cap := List.length_take_of_le hlt.le
    have hend := h.decodeFrom_overflow (isCodeword_of_mem_bitCodewords hleaf (bits := bits.take cap))
      (by rw [bitCodewords_length, hlen]) (isCodeword_bit hleaf bits[cap]) (bits.drop (cap + 1))
    simp only [streamOf_bitCodewords, symbolsOf_bitCodewords, hlen, List.length_singleton, Nat.add_sub_cancel,
      List.append_assoc, List.singleton_append, List.getElem_cons_drop, List.take_append_drop] at hend
    exact .inr ⟨hlt, hend⟩

end

/-! ### The inputs' lengths -/

@[simp] theorem bitsIn_length (s : State) (n : Nat) : (s.bitsIn n).length = n := by simp [State.bitsIn]

@[simp] theorem symbolsIn_length (s : State) (n : Nat) : (s.symbolsIn n).length = n := by simp [State.symbolsIn]

/-! ### DECODE by its outcome (45_decoder.md rules R210 and R218) -/

theorem exec_decode_of_noTree (hv : s.treeValid = false) :
    exec .decode s = .next ((s.decodeOutput [] 0).completeWith .noTree 0) := by
  obtain ⟨-, ht⟩ | ⟨hv', -⟩ | ⟨hv', -⟩ | ⟨hv', -⟩ | ⟨hv', -⟩ := exec_decode_cases s
  · exact ht
  all_goals cases hv.symm.trans hv'

theorem exec_decode_of_badLength (hv : s.treeValid = true) (hlen : s.params.bitDepth < s.bitLen.toNat) :
    exec .decode s = .next ((s.decodeOutput [] 0).completeWith .badLength 0) := by
  obtain ⟨hv', -⟩ | ⟨-, -, ht⟩ | ⟨-, hle, -⟩ | ⟨-, hle, -⟩ | ⟨-, hle, -⟩ := exec_decode_cases s
  · cases hv.symm.trans hv'
  · exact ht
  all_goals omega

section
variable (hv : s.treeValid = true) (hlen : s.bitLen.toNat ≤ s.params.bitDepth) {out : List Symbol}
include hv hlen

theorem exec_decode_of_done
    (hl : decodeFrom s s.params.symDepth 0 [] (s.bitsIn s.bitLen.toNat) = .done out) :
    exec .decode s = .next ((s.decodeOutput out out.length).completeWith .none 0) := by
  obtain ⟨hv', -⟩ | ⟨-, hlt, -⟩ | ⟨-, -, out', hl', ht⟩ | ⟨-, -, code, index, out', hl', -⟩ | ⟨-, -, why, hl', -⟩ :=
    exec_decode_cases s
  · cases hv.symm.trans hv'
  · omega
  all_goals cases hl.symm.trans hl'
  exact ht

theorem exec_decode_of_failed {code : ErrCode} {index : Nat}
    (hl : decodeFrom s s.params.symDepth 0 [] (s.bitsIn s.bitLen.toNat) = .failed code index out) :
    exec .decode s = .next ((s.decodeOutput out 0).completeWith code index) := by
  obtain ⟨hv', -⟩ | ⟨-, hlt, -⟩ | ⟨-, -, out', hl', -⟩ | ⟨-, -, code', index', out', hl', ht⟩ | ⟨-, -, why, hl', -⟩ :=
    exec_decode_cases s
  · cases hv.symm.trans hv'
  · omega
  all_goals cases hl.symm.trans hl'
  exact ht

/-- DECODE of whole codewords that fit. -/
theorem DecoderTree.exec_decode_whole (h : DecoderTree s) {ws : List (List Bool × Nat)}
    (hws : ∀ c ∈ ws, IsCodeword s c.1 c.2) (hcap : ws.length ≤ s.params.symDepth)
    (hbits : s.bitsIn s.bitLen.toNat = streamOf ws) :
    exec .decode s = .next ((s.decodeOutput (symbolsOf s ws) ws.length).completeWith .none 0) := by
  rw [exec_decode_of_done hv hlen (hbits ▸ h.decodeFrom_whole hws hcap), List.length_map]

/-- DECODE of whole codewords that fit, and a part of one more. -/
theorem DecoderTree.exec_decode_truncated (h : DecoderTree s) {ws : List (List Bool × Nat)}
    (hws : ∀ c ∈ ws, IsCodeword s c.1 c.2) (hcap : ws.length ≤ s.params.symDepth) {tail : List Bool} {k : Nat}
    (hne : tail ≠ []) (hd : descend s.nodeAt s.root.toNat tail = some k) (hint : (s.nodeAt k).leaf = false)
    (hbits : s.bitsIn s.bitLen.toNat = streamOf ws ++ tail) :
    exec .decode s = .next ((s.decodeOutput (symbolsOf s ws) 0).completeWith .truncatedStream (streamOf ws).length) :=
  exec_decode_of_failed hv hlen (hbits ▸ h.decodeFrom_truncated hws hcap hne hd hint)

/-- DECODE of as many codewords as fit, and one more. -/
theorem DecoderTree.exec_decode_overflow (h : DecoderTree s) {ws : List (List Bool × Nat)}
    (hws : ∀ c ∈ ws, IsCodeword s c.1 c.2) (hcap : ws.length = s.params.symDepth) {p rest : List Bool} {i : Nat}
    (hp : IsCodeword s p i) (hbits : s.bitsIn s.bitLen.toNat = streamOf ws ++ p ++ rest) :
    exec .decode s = .next ((s.decodeOutput (symbolsOf s ws) 0).completeWith .outputOverflow
      ((streamOf ws).length + p.length - 1)) :=
  exec_decode_of_failed hv hlen (hbits ▸ h.decodeFrom_overflow hws hcap hp rest)

end

/-! ### What an output leaves in the state (45_decoder.md rule R219) -/

theorem symAt_decodeOutput_of_lt {out : List Symbol} {k : Nat} (h : k < out.length) (len : Nat) :
    (s.decodeOutput out len).symAt k = out[k] := by
  rw [symAt_decodeOutput, List.getElem?_eq_getElem h, Option.getD_some]

/-- After the codewords `ws` DECODE completes with `code` at `index`: their symbols are in SYM, every later entry and
everything else is as before. -/
theorem symbolsOf_completes (s : State) (ws : List (List Bool × Nat)) (len : Nat) (code : ErrCode) {index : Nat}
    (hindex : index < 2 ^ 32) (ht : t = (s.decodeOutput (symbolsOf s ws) len).completeWith code index) :
    CompletedWith t (errCodeNumber code).toNat index ∧ t.symLen = BitVec.ofNat 32 len ∧
      (∀ j (h : j < ws.length), t.symAt j = (s.nodeAt ws[j].2).sym) ∧
      (∀ k, ws.length ≤ k → t.symAt k = s.symAt k) ∧
      SameFreq s t ∧ SameTree s t ∧ SameCodes s t ∧ SameBits s t ∧ SameRest s t := by
  subst ht
  refine ⟨completedWith_completeWith _ _ hindex, rfl, fun j hj => ?_,
    fun k hk => symAt_decodeOutput_of_le (by rwa [List.length_map]) len, fun _ => rfl,
    ⟨fun _ => rfl, rfl, rfl, rfl, rfl⟩, ⟨fun _ => rfl, rfl⟩, ⟨fun _ => rfl, rfl⟩, rfl, rfl, rfl, rfl, rfl, rfl, rfl⟩
  rw [completeWith_symAt, symAt_decodeOutput_of_lt (by rwa [List.length_map]), List.getElem_map]

/-- A position in the stream fits in ERR_INDEX. -/
theorem lt_of_bitsIn_eq {bits : List Bool} (hbits : s.bitsIn s.bitLen.toNat = bits) {k : Nat} (hk : k ≤ bits.length) :
    k < 2 ^ 32 := by
  rw [← hbits, bitsIn_length] at hk
  exact hk.trans_lt s.bitLen.isLt

/-! ### Streams that ENCODE wrote (45_decoder.md rules R221 and R222) -/

/-- The code of a symbol that has one is a codeword of the symbol's Leaf. -/
theorem TreeMatches.exists_codeword (h : TreeMatches s) (hc : CodesMatch s) {x : Symbol}
    (hlen : codeLen s x.toNat ≠ 0) : ∃ i, IsCodeword s (codeOf s x.toNat) i ∧ (s.nodeAt i).sym = x := by
  have hpres : x.toNat ∈ presentSymbols s := mem_presentSymbols.mpr ⟨x.isLt, fun habs => hlen ?_⟩
  · by_cases hone : leafCount s = 1
    · have hroot := h.root_leaf_iff.mpr hone
      obtain ⟨-, -, hcode⟩ := hc.isCodeOf hpres
      rw [if_pos hone] at hcode
      obtain ⟨i, hi, hsym⟩ := h.exists_leaf hpres
      obtain rfl : i = s.root.toNat := by have := h.root_eq; omega
      exact ⟨_, hcode ▸ isCodeword_bit hroot false, BitVec.eq_of_toNat_eq hsym⟩
    · obtain ⟨i, hi, hsym, hd⟩ := hc.exists_path hone hpres
      exact ⟨i, ⟨(h.isLeafOf hi).1, (if_neg (mt h.root_leaf_iff.mp hone)).mpr hd⟩, BitVec.eq_of_toNat_eq hsym⟩
  · have := hc _ (List.mem_range.mpr x.isLt)
    rw [if_pos habs] at this
    rw [codeLen, this]
    rfl

/-- A part of a codeword leads to an Internal node. -/
theorem exists_internal_of_take {p : List Bool} {i d : Nat} (hc : IsCodeword s p i) (hpos : 0 < d)
    (hlt : d < p.length) : ∃ k, descend s.nodeAt s.root.toNat (p.take d) = some k ∧ (s.nodeAt k).leaf = false := by
  obtain ⟨-, hc⟩ := hc
  split at hc
  · omega
  · rw [← List.take_append_drop d p, descend_append, Option.bind_eq_some_iff] at hc
    obtain ⟨k, hk, hrest⟩ := hc
    refine ⟨k, hk, Bool.eq_false_iff.mpr fun hleaf => ?_⟩
    exact absurd (List.drop_eq_nil_iff.mp (descend_of_leaf hleaf hrest).1) (Nat.not_le.mpr hlt)

theorem encodedPrefix_prefix (s : State) {j n : Nat} (h : j ≤ n) : encodedPrefix s j <+: encodedPrefix s n := by
  induction n, h using Nat.le_induction with
  | base => exact List.prefix_rfl
  | succ n _ ih => exact ih.trans (encodedPrefix_succ s n ▸ List.prefix_append _ _)

/-- A cut inside or before the code of SYM[j]: the codes before it, and a part of it. -/
theorem take_encodedPrefix (s : State) {j n k : Nat} (hj : j < n) (hle : codeStart s j ≤ k)
    (hlt : k < codeStart s (j + 1)) :
    (encodedPrefix s n).take k = encodedPrefix s j ++ (codeOf s (s.symAt j).toNat).take (k - codeStart s j) := by
  obtain ⟨more, hmore⟩ := encodedPrefix_prefix s (Nat.succ_le_of_lt hj)
  rw [← hmore, List.take_append_of_le_length (by rw [encodedPrefix_length]; exact hlt.le), encodedPrefix_succ,
    List.take_append, encodedPrefix_length, List.take_of_length_le (by rwa [encodedPrefix_length])]

/-- What an ENCODE that did not fail found and wrote (44_encoder.md rule R192). -/
theorem exec_encode_success (he : exec .encode s = .next t) (hok : t.errCode = 0#8) :
    s.codesValid = true ∧ s.symLen.toNat ≤ s.params.symDepth ∧
      (∀ j < s.symLen.toNat, codeLen s (s.symAt j).toNat ≠ 0) ∧ codeStart s s.symLen.toNat ≤ s.params.bitDepth ∧
      t = (s.encodeOutput (encodedPrefix s s.symLen.toNat) (codeStart s s.symLen.toNat)).completeWith .none 0 := by
  have hfits := encodeLoop_out_length_le (codeAt := s.codeAt) (i := 0) (out := [])
    (xs := s.symbolsIn s.symLen.toNat) (Nat.zero_le s.params.bitDepth)
  obtain ⟨-, ht⟩ | ⟨-, -, ht⟩ | ⟨hv, hle, out, hl, ht⟩ | ⟨-, -, code, index, out, hl, ht⟩ := exec_encode_cases s <;>
    cases ht.symm.trans he
  · exact absurd (show 5#8 = 0#8 from hok) (by decide)
  · exact absurd (show 8#8 = 0#8 from hok) (by decide)
  · obtain ⟨r, hr, hcat, hcodes, -⟩ | ⟨code, pre, x, post, -, hr, -⟩ :=
      encodeLoop_cases s.codeAt s.params.bitDepth 0 [] (s.symbolsIn s.symLen.toNat) <;> cases hr.symm.trans hl
    have hout : out = encodedPrefix s s.symLen.toNat := by
      rw [hcat, State.symbolsIn, List.flatMap_map]
      rfl
    subst hout
    rw [hl] at hfits
    refine ⟨hv, hle, fun j hj => mt len_eq_zero_iff.mpr (hcodes _ ?_), (encodedPrefix_length s _).ge.trans hfits, ?_⟩
    · exact List.mem_map_of_mem (List.mem_range.mpr hj)
    · rw [encodedPrefix_length]
  · obtain rfl | rfl := (encodeLoop_failed hl).1
    · exact absurd (show 2#8 = 0#8 from hok) (by decide)
    · exact absurd (show 6#8 = 0#8 from hok) (by decide)

/-- The first bits of an output, read as an input. -/
theorem bitsIn_encodeOutput (s : State) {out : List Bool} {k : Nat} (hk : k ≤ out.length) (len : Nat) :
    (s.encodeOutput out len).bitsIn k = out.take k := by
  refine List.ext_getElem (by simp [hk]) fun i hi _ => ?_
  rw [bitsIn_length] at hi
  simp [State.bitsIn, bitAt_encodeOutput, hi.trans_le hk]

/-- `u` holds the tree that the codes of `s` belong to and, in BIT, the encoding of SYM[0..SYM_LEN-1] of `s`, and its
buffers hold both. -/
structure HoldsEncoding (s u : State) : Prop where
  treeValid : u.treeValid = true
  tree : DecoderTree u
  symbols_fit : s.symLen.toNat ≤ u.params.symDepth
  bits_fit : codeStart s s.symLen.toNat ≤ u.params.bitDepth
  codeword : ∀ j < s.symLen.toNat, ∃ i, IsCodeword u (codeOf s (s.symAt j).toNat) i ∧ (u.nodeAt i).sym = s.symAt j
  bits : ∀ k ≤ codeStart s s.symLen.toNat, u.bitsIn k = (encodedPrefix s s.symLen.toNat).take k

/-- What an ENCODE that did not fail leaves, in any later state with the same tree, BIT and parameters. -/
theorem Inv.holdsEncoding (h : Inv s) (he : Machine.exec .encode s = .next t) (hok : t.errCode = 0#8) {u : State}
    (htree : SameTree t u) (hbits : ∀ k, u.bitAt k = t.bitAt k) (hparams : u.params = t.params) :
    HoldsEncoding s u := by
  obtain ⟨hv, hsymbols, hcodes, hfits, rfl⟩ := exec_encode_success he hok
  obtain ⟨-, -, -, -, -, hvalid⟩ := h.registers
  have htree : SameTree s u := htree
  have hparams : u.params = s.params := hparams
  obtain ⟨hnode, -, -, -, htv⟩ := id htree
  have hmatches := h.tree (hvalid hv)
  refine ⟨htv.trans (hvalid hv), hmatches.decoderTree.of_same htree, hparams ▸ hsymbols, hparams ▸ hfits,
    fun j hj => ?_, fun k hk => ?_⟩
  · obtain ⟨i, hword, hsym⟩ := hmatches.exists_codeword (h.codes hv) (hcodes j hj)
    exact ⟨i, isCodeword_of_same htree hword, hnode i ▸ hsym⟩
  · rw [← bitsIn_encodeOutput s (by rwa [encodedPrefix_length]) (codeStart s s.symLen.toNat)]
    exact List.map_congr_left fun i _ => hbits i

section
variable {u : State} {j : Nat}

/-- The encoding up to SYM[j] is a stream of codewords of its symbols. -/
theorem HoldsEncoding.exists_codewords (h : HoldsEncoding s u) (hj : j ≤ s.symLen.toNat) :
    ∃ ws, (∀ c ∈ ws, IsCodeword u c.1 c.2) ∧ streamOf ws = encodedPrefix s j ∧ symbolsOf u ws = s.symbolsIn j := by
  induction j with
  | zero => exact ⟨[], fun c hc => absurd hc List.not_mem_nil, rfl, rfl⟩
  | succ j ih =>
    obtain ⟨ws, hws, hstream, hsymbols⟩ := ih (by omega)
    obtain ⟨i, hword, hsym⟩ := h.codeword j hj
    refine ⟨ws ++ [(codeOf s (s.symAt j).toNat, i)], fun c hc => ?_, ?_, ?_⟩
    · obtain hc | hc := List.mem_append.mp hc
      · exact hws c hc
      · exact List.mem_singleton.mp hc ▸ hword
    · simp [streamOf, encodedPrefix_succ, ← hstream]
    · simp [hsymbols, hsym, State.symbolsIn, List.range_succ]

/-- DECODE of the encoding up to SYM[j] gives the symbols before it (45_decoder.md rules R221 and R222). -/
theorem HoldsEncoding.exec_decode_boundary (h : HoldsEncoding s u) (hj : j ≤ s.symLen.toNat)
    (hlen : u.bitLen.toNat = codeStart s j) :
    exec .decode u = .next ((u.decodeOutput (s.symbolsIn j) j).completeWith .none 0) := by
  obtain ⟨ws, hws, hstream, hsymbols⟩ := h.exists_codewords hj
  have hcount : ws.length = j := by simpa using congrArg List.length hsymbols
  have hle := codeStart_mono s hj
  have hbits : u.bitsIn u.bitLen.toNat = streamOf ws := by
    rw [hlen, h.bits _ hle, hstream, ← encodedPrefix_length]
    exact (List.prefix_iff_eq_take.mp (encodedPrefix_prefix s hj)).symm
  have he := h.tree.exec_decode_whole h.treeValid (hlen.trans_le (hle.trans h.bits_fit)) hws
    (hcount.trans_le (hj.trans h.symbols_fit)) hbits
  rwa [hsymbols, hcount] at he

/-- DECODE of an encoding cut inside the code of SYM[j] is truncated there (45_decoder.md rule R222). -/
theorem HoldsEncoding.exec_decode_inside (h : HoldsEncoding s u) (hj : j < s.symLen.toNat)
    (hlt : codeStart s j < u.bitLen.toNat) (hlt' : u.bitLen.toNat < codeStart s (j + 1)) :
    exec .decode u =
      .next ((u.decodeOutput (s.symbolsIn j) 0).completeWith .truncatedStream (codeStart s j)) := by
  obtain ⟨ws, hws, hstream, hsymbols⟩ := h.exists_codewords hj.le
  have hcount : ws.length = j := by simpa using congrArg List.length hsymbols
  have hle : u.bitLen.toNat ≤ codeStart s s.symLen.toNat := hlt'.le.trans (codeStart_mono s hj)
  have hbits := (h.bits _ hle).trans (take_encodedPrefix s hj hlt.le hlt')
  rw [← hstream] at hbits
  obtain ⟨i, hword, -⟩ := h.codeword j hj
  have hd : u.bitLen.toNat - codeStart s j < (codeOf s (s.symAt j).toNat).length := by
    rw [codeStart_succ, codeLen] at hlt'
    rw [codeOf, codeString_length]
    omega
  obtain ⟨k, hdesc, hint⟩ := exists_internal_of_take hword (by omega) hd
  have htail := List.ne_nil_of_length_pos (l := (codeOf s (s.symAt j).toNat).take (u.bitLen.toNat - codeStart s j))
    (by rw [List.length_take]; omega)
  have he := h.tree.exec_decode_truncated h.treeValid (hle.trans h.bits_fit) hws
    (hcount.trans_le (hj.le.trans h.symbols_fit)) htail hdesc hint hbits
  rwa [hsymbols, hstream, encodedPrefix_length] at he

end

theorem symAt_decodeOutput_symbolsIn (s u : State) {i j : Nat} (hi : i < j) (len : Nat) :
    (u.decodeOutput (s.symbolsIn j) len).symAt i = s.symAt i := by
  rw [symAt_decodeOutput_of_lt (by rwa [symbolsIn_length])]
  simp [State.symbolsIn]

end Sys2Proof.Safety

namespace Sys2Proof.Proofs

open Sys2Proof.Machine Sys2Proof.Safety

/-- Settles O48: both failures come before the loop, with the empty output. -/
theorem decodeChecksItsPreconditions : Obligations.DecodeChecksItsPreconditions := by
  intro s h
  have hfails : ∃ code, exec .decode s = .next ((s.decodeOutput [] 0).completeWith code 0) ∧
      (errCodeNumber code).toNat = if s.treeValid then 8 else 4 := by
    cases hv : s.treeValid with
    | false => exact ⟨.noTree, exec_decode_of_noTree hv, rfl⟩
    | true => exact ⟨.badLength, exec_decode_of_badLength hv (h.resolve_left (by simp [hv])), rfl⟩
  obtain ⟨code, he, hcode⟩ := hfails
  obtain ⟨hcompleted, hsymLen, -, hsymbols, hframe⟩ := symbolsOf_completes s [] 0 code (Nat.two_pow_pos 32) rfl
  exact ⟨_, he, hcode ▸ hcompleted, hsymLen, fun k => hsymbols k (Nat.zero_le k), hframe⟩

/-- Settles O49: the loop is back at ROOT after every codeword, with its symbol emitted. -/
theorem decodeReadsWholeCodewords : Obligations.DecodeReadsWholeCodewords := by
  intro s ws hv h hlen hws hcap hbits
  have hdepth := symDepth_le s.params
  obtain ⟨hcompleted, hsymLen, hrest⟩ := symbolsOf_completes s ws ws.length .none (Nat.two_pow_pos 32) rfl
  refine ⟨_, h.decoderTree.exec_decode_whole hv hlen hws hcap hbits, hcompleted, ?_, hrest⟩
  rw [hsymLen, BitVec.toNat_ofNat, Nat.mod_eq_of_lt (by omega)]

/-- Settles O50: the path below ROOT starts where the last whole codeword ends, and a single-leaf tree has none. -/
theorem decodeReportsTruncation : Obligations.DecodeReportsTruncation := by
  constructor
  · intro s ws tail k hv h hlen hws hcap hne hd hint hbits
    exact ⟨_, h.decoderTree.exec_decode_truncated hv hlen hws hcap hne hd hint hbits,
      symbolsOf_completes s ws 0 .truncatedStream (lt_of_bitsIn_eq hbits (by simp)) rfl⟩
  · intro s t h hone he
    have hends := h.decoderTree.decodeFrom_singleLeaf (h.root_leaf_iff.mpr hone) s.params.symDepth
      (s.bitsIn s.bitLen.toNat)
    obtain ⟨-, ht⟩ | ⟨-, -, ht⟩ | ⟨-, -, out, -, ht⟩ | ⟨-, -, code, index, out, hl, ht⟩ | ⟨-, -, why, -, ht⟩ :=
      exec_decode_cases s <;> cases ht.symm.trans he <;> rw [completeWith_errCode]
    · decide
    · decide
    · decide
    · obtain ⟨-, hend⟩ | ⟨-, hend⟩ := hends <;> cases hend.symm.trans hl
      decide

/-- Settles O51: the loop reaches the codeword that does not fit, and stops at its last bit. -/
theorem decodeReportsOverflow : Obligations.DecodeReportsOverflow := by
  intro s ws p rest i hv h hlen hws hcap hp hbits
  exact ⟨_, h.decoderTree.exec_decode_overflow hv hlen hws hcap hp hbits,
    symbolsOf_completes s ws 0 .outputOverflow (lt_of_bitsIn_eq hbits (by simp; omega)) rfl⟩

/-- Settles O52: the loop's two ends on a single-leaf tree. -/
theorem singleLeafDecodesEveryBit : Obligations.SingleLeafDecodesEveryBit := by
  intro s x hv h hx hlen
  have hone : leafCount s = 1 := by rw [leafCount, hx, List.length_singleton]
  have hsym : (s.nodeAt s.root.toNat).sym.toNat = x := by
    simpa [hx] using h.leaf_sym_mem (i := s.root.toNat) (by rw [h.root_eq, hone]; decide)
  have hdepth := symDepth_le s.params
  obtain ⟨hle, hl⟩ | ⟨hlt, hl⟩ := h.decoderTree.decodeFrom_singleLeaf (h.root_leaf_iff.mpr hone) s.params.symDepth
    (s.bitsIn s.bitLen.toNat)
  · rw [bitsIn_length] at hle hl
    refine ⟨_, exec_decode_of_done hv hlen hl,
      fun _ => ⟨completedWith_completeWith _ .none (by decide), by simp, fun j hj => ?_⟩, fun hlt => by omega⟩
    rw [completeWith_symAt, symAt_decodeOutput_of_lt (by simpa using hj), List.getElem_replicate, hsym]
  · rw [bitsIn_length] at hlt
    refine ⟨_, exec_decode_of_failed hv hlen hl, fun hle => by omega,
      fun _ => ⟨completedWith_completeWith _ .outputOverflow (by omega), rfl, fun j hj => ?_⟩⟩
    rw [completeWith_symAt, symAt_decodeOutput_of_lt (by simpa using hj), List.getElem_replicate, hsym]

/-- Settles O53: of DECODE's ends, the preconditions exclude two and the tree excludes a stop. -/
theorem decodeIsNeverUndefined : Obligations.DecodeIsNeverUndefined := by
  intro s hv h hlen
  obtain ⟨hv', -⟩ | ⟨-, hlt, -⟩ | ⟨-, -, out, -, ht⟩ | ⟨-, -, code, index, out, hl, ht⟩ | ⟨-, -, why, hl, -⟩ :=
    exec_decode_cases s
  · cases hv.symm.trans hv'
  · omega
  · exact ⟨_, ht, .inl rfl⟩
  · refine ⟨_, ht, .inr ?_⟩
    obtain rfl | rfl := (decodeLoop_failed hl).1
    · exact .inl rfl
    · exact .inr rfl
  · exact absurd hl (h.decodeLoop_ne_stuck h.root_lt)

/-- Settles O55: the encoding is a stream of whole codewords of the symbols. -/
theorem decodeInvertsEncodeOfSymbols : Obligations.DecodeInvertsEncodeOfSymbols := by
  intro s t u h he hok htree hbits hparams
  have hlen : u.bitLen.toNat = codeStart s s.symLen.toNat := by
    obtain ⟨-, -, -, hfits, rfl⟩ := exec_encode_success he hok
    have hdepth := bitDepth_le s.params
    exact (congrArg BitVec.toNat hbits.2).trans (Nat.mod_eq_of_lt (by omega))
  have hd := (h.holdsEncoding he hok htree hbits.1 hparams).exec_decode_boundary le_rfl hlen
  exact ⟨_, hd, completedWith_completeWith _ .none (by decide), by simp,
    fun j hj => symAt_decodeOutput_symbolsIn s u hj s.symLen.toNat⟩

/-- Settles O56: a cut on a boundary leaves whole codewords, and a cut inside a codeword leaves a path to an Internal
node after them. -/
theorem prefixOfAnEncodingDecodes : Obligations.PrefixOfAnEncodingDecodes := by
  intro s t u j h he hok htree hbits hparams hpos hj hle hlt
  have hu := h.holdsEncoding he hok htree hbits hparams
  split
  · next heq =>
    refine ⟨_, hu.exec_decode_boundary hj.le heq, completedWith_completeWith _ .none (by decide),
      Nat.mod_eq_of_lt (hj.trans s.symLen.isLt), fun i hi => symAt_decodeOutput_symbolsIn s u hi j⟩
  · next hne =>
    exact ⟨_, hu.exec_decode_inside hj (by omega) hlt,
      completedWith_completeWith _ .truncatedStream (hle.trans_lt u.bitLen.isLt), rfl⟩

end Sys2Proof.Proofs

/-! The interrupt output as a level over the pending and enabled sources (60_exceptions.md rule R236). -/

namespace Sys2Proof.Safety

open Sys2Proof.Machine

/-- The interrupt output reads as the pending and enabled sources (60_exceptions.md rule R236). -/
theorem irq_eq_true_iff (s : State) :
    s.irq = true ↔ (s.done = true ∧ s.irqEn.getLsbD 0 = true) ∨ (s.error = true ∧ s.irqEn.getLsbD 1 = true) ∨
      (s.reject = true ∧ s.irqEn.getLsbD 2 = true) := by
  simp only [State.irq, Bool.or_eq_true, Bool.and_eq_true, or_assoc]

/-- With no source pending the interrupt output is 0, whatever IRQ_EN holds. -/
theorem irq_eq_false_of_no_source {s : State} (hdone : s.done = false) (herror : s.error = false)
    (hreject : s.reject = false) : s.irq = false := by
  rw [Bool.eq_false_iff, ne_eq, irq_eq_true_iff]
  simp [hdone, herror, hreject]

end Sys2Proof.Safety

namespace Sys2Proof.Proofs

open Sys2Proof.Machine Sys2Proof.Safety

/-- Settles O26: irq is the disjunction of the enabled sources, and reset leaves no source pending. -/
theorem irqIsTheEnabledSources : Obligations.IrqIsTheEnabledSources :=
  ⟨irq_eq_true_iff, irq_eq_false_of_no_source rfl rfl rfl⟩

end Sys2Proof.Proofs

/-! Reset and hazards (70_reset_and_hazards.md rules R260, R261 and R269): the state that a reset leaves, what ends a
pending command, and a read right after a write of the same location. -/

namespace Sys2Proof.Safety

open Sys2Proof.Machine

/-! ### Reset (70_reset_and_hazards.md rule R260) -/

/-- The reset table holds whatever the parameters and the model's own fields are. -/
theorem isResetState_resetWith (p : Params) (resets draws : Nat) (inputs : List Input) :
    IsResetState (State.resetWith p resets draws inputs) := by
  have read {addr : Offset} (T : Target) (hT : targetAt (wordOffset addr) = T) :
      (State.resetWith p resets draws inputs).readValue addr =
        (State.resetWith p resets draws inputs).targetWord T :=
    hostRead_rdata_eq (s := State.resetWith p resets draws inputs) rfl (.inl rfl) hT
  exact ⟨⟨rfl, rfl, rfl, rfl⟩, ⟨rfl, rfl⟩, ⟨rfl, rfl, rfl⟩, ⟨rfl, rfl, rfl⟩, ⟨rfl, rfl⟩,
    ⟨rfl, irq_eq_false_of_no_source rfl rfl rfl⟩,
    ⟨read .id (by decide), read .version (by decide), read .paramSym (by decide), read .paramBit (by decide)⟩,
    fun _ => rfl, fun _ => rfl, fun _ => rfl, fun _ => rfl, fun _ => rfl⟩

/-! ### What a step does to a pending command (70_reset_and_hazards.md rule R261) -/

section
variable {s t : State} {addr : Offset} {T : Target} (v : Word)

/-- After a CMD write a command is pending: the one that was, or the one written (41_command_control.md rule R131). -/
theorem cmdWrite_busy : (s.cmdWrite v).busy = true := by
  rw [State.cmdWrite]
  split
  · next hb => exact hb
  · rfl

/-- Every other target's write leaves the pending command as it is. -/
theorem targetWrite_busy (hT : T ≠ .cmd) : (s.targetWrite v T).busy = s.busy := by
  cases T with
  | cmd => exact absurd rfl hT
  | sym w => rw [State.targetWrite, symWrite_frame]; rfl
  | bit w => rw [State.targetWrite, bitWrite_frame]; rfl
  | status | irqEn | symLen | bitLen | freq => rfl
  | id | version | paramSym | paramBit | errCode | errIndex | nsym | root | nnodes | node | code | reserved => rfl

/-- No host write ends a command. -/
theorem hostWrite_busy_of_busy (hb : s.busy = true) : (s.hostWrite addr v).busy = true := by
  obtain ⟨-, -, he⟩ | ⟨-, he⟩ := hostWrite_cases s addr v <;> rw [he]
  · exact hb
  · by_cases hT : targetOf addr = .cmd
    · rw [hT]
      exact cmdWrite_busy v
    · exact (targetWrite_busy v hT).trans hb

/-- The engine's step on a pending word, legal or not, ends with DONE = 1. -/
theorem engineStep_done (hb : s.busy = true) (he : engineStep s = .next t) : t.done = true := by
  obtain ⟨hp, -⟩ | ⟨w, i, -, -, ht⟩ | ⟨w, why, -, -, ht⟩ := engineStep_cases s
  · simp [State.busy, hp] at hb
  · obtain ⟨u, code, index, rfl⟩ := exec_completes (ht ▸ he)
    rfl
  · cases ht.symm.trans he
    rfl

/-- A step that is no reset keeps the command pending or completes it. -/
theorem step_busy_or_done (hb : s.busy = true) (hreset : s.inputs.head? ≠ some .reset) (he : step s = .next t) :
    t.busy = true ∨ t.done = true := by
  obtain ⟨-, ht⟩ | ⟨rest, addr, -, ht⟩ | ⟨rest, addr, v, -, ht⟩ | ⟨rest, -, ht⟩ | ⟨rest, hi, -⟩ := step_cases s
  · exact .inr (engineStep_done hb (ht ▸ he))
  · cases ht.symm.trans he
    exact .inl hb
  · cases ht.symm.trans he
    exact .inl (hostWrite_busy_of_busy (s := { s with inputs := rest }) v hb)
  · exact .inr (engineStep_done (s := { s with inputs := rest }) hb (ht ▸ he))
  · exact absurd (by rw [hi]; rfl) hreset

end

/-! ### A read right after a write (70_reset_and_hazards.md rule R269) -/

section
variable {s : State} {addr : Offset} {o w : Nat} {T : Target} (v : Word)

/-- While idle, a read right after a write that is no CMD write returns the word of the target just written. -/
theorem hostRead_hostWrite (hb : s.busy = false) (hw : wordOffset addr = o) (hT : targetAt o = T) (hcmd : T ≠ .cmd) :
    ((s.hostWrite addr v).hostRead addr).rdata = (s.targetWrite v T).targetWord T := by
  rw [hostWrite_eq_targetWrite hw hT (.inr hb)]
  exact hostRead_rdata_eq hw (.inl ((targetWrite_busy v hcmd).trans hb)) hT

/-- An offset at or above an aligned base reaches one of the words counted from that base. -/
theorem exists_wordOffset_eq {base : Nat} (hbase : base % 4 = 0) (h : base ≤ wordOffset addr) :
    ∃ w, wordOffset addr = base + 4 * w := by
  have hword : wordOffset addr % 4 = 0 := by rw [wordOffset]; omega
  exact ⟨(wordOffset addr - base) / 4, by omega⟩

/-- P_SYM_DEPTH is a whole number of SYM words (00_scope.md rule R9). -/
theorem symDepth_mod_four (p : Params) : p.symDepth % 4 = 0 := Nat.mul_mod_right _ _

/-- P_BIT_DEPTH is a whole number of BIT words (00_scope.md rule R9). -/
theorem bitDepth_mod_thirtyTwo (p : Params) : p.bitDepth % 32 = 0 := Nat.mul_mod_right _ _

/-- A word is its four byte lanes (20_memory.md rule R65). -/
theorem eq_of_lanes_eq {u v : Word} (h : ∀ k < 4, u.extractLsb' (8 * k) 8 = v.extractLsb' (8 * k) 8) : u = v := by
  refine BitVec.eq_of_getLsbD_eq fun j hj => ?_
  have hlane := congrArg (·.getLsbD (j % 8)) (h (j / 8) (by omega))
  simpa only [BitVec.getLsbD_extractLsb', Nat.div_add_mod, Nat.mod_lt j (by decide : 8 > 0), decide_true,
    Bool.true_and] using hlane

theorem symWord_symWrite (hw : w < s.params.symDepth / 4) : (s.symWrite w v).symWord w = v := by
  have hparams : (s.symWrite w v).params = s.params := by rw [symWrite_frame]
  refine eq_of_lanes_eq fun k hk => ?_
  rw [symWord_lane (hparams ▸ hw) hk, symAt_symWrite_lane v hw hk]

theorem bitWord_bitWrite (hw : w < s.params.bitDepth / 32) : (s.bitWrite w v).bitWord w = v := by
  have hparams : (s.bitWrite w v).params = s.params := by rw [bitWrite_frame]
  refine BitVec.eq_of_getLsbD_eq fun b hb => ?_
  rw [bitWord_getLsbD (hparams ▸ hw) hb, bitAt_bitWrite_bit v hw hb]

end
end Sys2Proof.Safety

namespace Sys2Proof.Proofs

open Sys2Proof.Machine Sys2Proof.Safety

/-- Settles O8: a reset leaves the reset state, and no other step takes a command away without its completion. -/
theorem onlyResetAbandonsACommand : Obligations.OnlyResetAbandonsACommand := by
  intro s t hb he
  refine ⟨fun hreset => ?_, fun hreset hidle => ?_⟩
  · obtain ⟨rest, hi⟩ := List.head?_eq_some_iff.mp hreset
    cases (step_of_cons hi).symm.trans he
    exact isResetState_resetWith _ _ _ _
  · exact (step_busy_or_done hb hreset he).resolve_left (by simp [hidle])

/-- Settles O25: while idle the write reaches the target that the read then returns, and each of these targets gives
back the word stored. -/
theorem readAfterWriteReturnsTheWord : Obligations.ReadAfterWriteReturnsTheWord := by
  intro s addr v hb
  have read {o : Nat} (T : Target) (hw : wordOffset addr = o) (hT : targetAt o = T) (hcmd : T ≠ .cmd) :
      ((s.hostWrite addr v).hostRead addr).rdata = (s.targetWrite v T).targetWord T :=
    hostRead_hostWrite v hb hw hT hcmd
  refine ⟨?_, fun h => ?irqEn⟩
  case irqEn =>
    rw [read .irqEn h rfl nofun, targetWord_irqEn_toNat]
    exact BitVec.toNat_setWidth 3 v
  rintro (⟨hlo, hhi⟩ | ⟨hlo, hhi⟩ | ⟨hlo, hhi⟩ | h | h)
  case inl =>
    obtain ⟨x, h⟩ := exists_wordOffset_eq (by decide) hlo
    rw [read (.freq x) h (targetAt_freq (by omega)) nofun]
    exact (freqAt_freqWrite s x v x).trans (if_pos rfl)
  case inr.inl =>
    obtain ⟨w, h⟩ := exists_wordOffset_eq (by decide) hlo
    have hdepth := symDepth_le s.params
    have hwords := symDepth_mod_four s.params
    rw [read (.sym w) h (targetAt_sym (by omega)) nofun]
    exact symWord_symWrite v (by omega)
  case inr.inr.inl =>
    obtain ⟨w, h⟩ := exists_wordOffset_eq (by decide) hlo
    have hdepth := bitDepth_le s.params
    have hwords := bitDepth_mod_thirtyTwo s.params
    rw [read (.bit w) h (targetAt_bit (by omega)) nofun]
    exact bitWord_bitWrite v (by omega)
  case inr.inr.inr.inl => exact read .symLen h rfl nofun
  case inr.inr.inr.inr => exact read .bitLen h rfl nofun

/-- Settles O7: power-up and the reset event both give a state of `isResetState_resetWith`. -/
theorem resetLeavesTheResetState : Obligations.ResetLeavesTheResetState :=
  ⟨⟨isResetState_resetWith _ _ _ _, rfl⟩, fun s _ hi =>
    ⟨_, step_of_cons hi, isResetState_resetWith s.params _ _ _, rfl⟩⟩

end Sys2Proof.Proofs
